-- ==== Sys2Proof/Word.lean ====
section
/-! DEFINITION. Word.lean: the data types the rules of spec/ are written over (R5, R9, R10). Nothing here computes:
the operations on them stand in Machine/. -/

namespace Sys2Proof

/-- A byte: 8 bits, an unsigned number 0..255 (R9). -/
abbrev Byte := BitVec 8

/-- A Block: exactly 16 bytes; position `i` is the byte at buffer offset `OFF + i` (R5, R10, R36). -/
abbrev Block := Vector Byte 16

/-- A master key: 32 bytes (R5, R31). -/
abbrev Key := Vector Byte 32

/-- A substitution or permutation table over all values of `k` bits: `Table 8` is the shape of SBOX and INV_SBOX
(256 entries of 8 bits, R21, R22), `Table 4` that of SHIFT and INV_SHIFT (16 entries of 4 bits, R23, R24). -/
abbrev Table (k : Nat) := Vector (BitVec k) (2 ^ k)

/-- The eight round keys of 16 bytes, `RK[r][i]` (R26). -/
abbrev RoundKeys := Vector Block 8

end Sys2Proof
end

