-- ==== Sys2Proof/Syntax.lean ====
section
/-! DEFINITION. Syntax.lean: the operations of spec/opcode_table.json, one constructor a row: the four host commands and
the reserved command words (format CMD8, R90 to R93), and the nineteen phases (format PHASE5, R95). -/

namespace Sys2Proof

/-- The operations of the core. No operand is encoded in any of them (R92): a command takes its operands from the host
registers, a phase from the working registers. -/
inductive Instr where
  /-- `KSCHED`, command word 0x01 (R91, R211). -/
  | ksched
  /-- `ENCRYPT`, command word 0x02 (R91, R213). -/
  | encrypt
  /-- `DECRYPT`, command word 0x03 (R91, R214). -/
  | decrypt
  /-- `RELEASE`, command word 0x04 (R91, R215). -/
  | release
  /-- `IDLE`, phase id 00000 (R95, R210). -/
  | idle
  /-- `KS_SEED`, phase id 00001 (R121 to R123). -/
  | ksSeed
  /-- `KS_SBOX`, phase id 00010 (R124, R125). -/
  | ksSbox
  /-- `KS_SHIFT`, phase id 00011 (R126, R127). -/
  | ksShift
  /-- `KS_MIXC`, phase id 00100 (R128). -/
  | ksMixc
  /-- `KS_RKEYS`, phase id 00101 (R130, R131). -/
  | ksRkeys
  /-- `SUB`, phase id 01000 (R151). -/
  | sub
  /-- `SHIFTR`, phase id 01001 (R152). -/
  | shiftr
  /-- `MIX`, phase id 01010 (R153). -/
  | mix
  /-- `ARK`, phase id 01011 (R154). -/
  | ark
  /-- `ISUB`, phase id 01100 (R157). -/
  | isub
  /-- `ISHIFTR`, phase id 01101 (R156). -/
  | ishiftr
  /-- `IMIX`, phase id 01110 (R155). -/
  | imix
  /-- `ENCBLK`, phase id 10000 (R159). -/
  | encblk
  /-- `DECBLK`, phase id 10001 (R161). -/
  | decblk
  /-- `PAD`, phase id 10100 (R182). -/
  | pad
  /-- `CBC_ENC`, phase id 10101 (R183). -/
  | cbcEnc
  /-- `CBC_DEC`, phase id 10110 (R185). -/
  | cbcDec
  /-- `UNPAD`, phase id 10111 (R186). -/
  | unpad
  /-- `RESERVED`: the command word `word`, any value but 0x01 to 0x04 (R93). -/
  | reserved (word : Byte)
  deriving DecidableEq, Repr

/-- The values of the hidden sequencing register PHASE (R40, R95). -/
inductive Phase where
  | idle
  | ksSeed | ksSbox | ksShift | ksMixc | ksRkeys
  | sub | shiftr | mix | ark | isub | ishiftr | imix
  | encblk | decblk
  | pad | cbcEnc | cbcDec | unpad
  deriving DecidableEq, Repr

/-- The commands that can be in progress: those with phases of their own (R40). RELEASE and a reserved word end in the
step that accepts them. -/
inductive Command where
  | ksched | encrypt | decrypt
  deriving DecidableEq, Repr

/-- The operation a phase runs (R95: each phase has one rule). -/
def Phase.instr : Phase → Instr
  | .idle => .idle
  | .ksSeed => .ksSeed
  | .ksSbox => .ksSbox
  | .ksShift => .ksShift
  | .ksMixc => .ksMixc
  | .ksRkeys => .ksRkeys
  | .sub => .sub
  | .shiftr => .shiftr
  | .mix => .mix
  | .ark => .ark
  | .isub => .isub
  | .ishiftr => .ishiftr
  | .imix => .imix
  | .encblk => .encblk
  | .decblk => .decblk
  | .pad => .pad
  | .cbcEnc => .cbcEnc
  | .cbcDec => .cbcDec
  | .unpad => .unpad

end Sys2Proof
end

