-- ==== Sys2Proof/WellFormed.lean ====
section
/-! DEFINITION. WellFormed.lean: which terms of `Instr` stand for an operation of the core. -/

namespace Sys2Proof

/-- The reserved command words: every value but the four opcodes (R93). -/
abbrev isReservedWord (word : Byte) : Prop := word ≠ 1 ∧ word ≠ 2 ∧ word ≠ 3 ∧ word ≠ 4

/-- A term is well formed unless it calls one of the four opcodes reserved (R91, R93). -/
abbrev WellFormed : Instr → Prop
  | .reserved word => isReservedWord word
  | .ksched | .encrypt | .decrypt | .release => True
  | .idle | .ksSeed | .ksSbox | .ksShift | .ksMixc | .ksRkeys => True
  | .sub | .shiftr | .mix | .ark | .isub | .ishiftr | .imix | .encblk | .decblk => True
  | .pad | .cbcEnc | .cbcDec | .unpad => True

end Sys2Proof
end

