-- ==== Sys2Proof/Decode.lean ====
section
/-! DEFINITION. Decode.lean: the two encodings of spec/30_encoding.md, the 8-bit command word CMD8 (R90 to R93) and the
5-bit phase id PHASE5 (R95), read (`decodeWord`, `decode`) and written (`encode`). -/

namespace Sys2Proof

/-- A code word of the core: a value written to CMD, or a value of the PHASE register. -/
inductive CodeWord where
  /-- A CMD8 word (R90). -/
  | cmd8 (word : Byte)
  /-- A PHASE5 id (R95). -/
  | phase5 (id : BitVec 5)
  deriving DecidableEq, Repr

/-- Why a decoder gives no instruction. -/
inductive DecodeError where
  /-- There is no byte to read a command word from. -/
  | noWord
  /-- The 5-bit value is none of the nineteen phase ids: "All other 5-bit values are unused" (R95). -/
  | unusedPhase (id : BitVec 5)
  deriving DecidableEq, Repr

/-- The command a CMD8 word stands for: a full match on all 8 bits, total on the 256 values (R91, R93). -/
def decodeCmd (word : Byte) : Instr :=
  if word = 0x01 then .ksched
  else if word = 0x02 then .encrypt
  else if word = 0x03 then .decrypt
  else if word = 0x04 then .release
  else .reserved word

/-- The phase a PHASE5 id stands for (the table of R95). -/
def decodePhase (id : BitVec 5) : Except DecodeError Phase :=
  if id = 0b00000 then .ok .idle
  else if id = 0b00001 then .ok .ksSeed
  else if id = 0b00010 then .ok .ksSbox
  else if id = 0b00011 then .ok .ksShift
  else if id = 0b00100 then .ok .ksMixc
  else if id = 0b00101 then .ok .ksRkeys
  else if id = 0b01000 then .ok .sub
  else if id = 0b01001 then .ok .shiftr
  else if id = 0b01010 then .ok .mix
  else if id = 0b01011 then .ok .ark
  else if id = 0b01100 then .ok .isub
  else if id = 0b01101 then .ok .ishiftr
  else if id = 0b01110 then .ok .imix
  else if id = 0b10000 then .ok .encblk
  else if id = 0b10001 then .ok .decblk
  else if id = 0b10100 then .ok .pad
  else if id = 0b10101 then .ok .cbcEnc
  else if id = 0b10110 then .ok .cbcDec
  else if id = 0b10111 then .ok .unpad
  else .error (.unusedPhase id)

/-- The operation a code word stands for. -/
def decodeWord : CodeWord → Except DecodeError Instr
  | .cmd8 word => .ok (decodeCmd word)
  | .phase5 id => (decodePhase id).map Phase.instr

/-- The first command of a list of bytes and the bytes after it: every command is one byte long (R90). -/
def decode : List Byte → Except DecodeError (Instr × List Byte)
  | [] => .error .noWord
  | word :: rest => .ok (decodeCmd word, rest)

/-- The code word of an operation (R91, R93, R95). -/
def encode : Instr → CodeWord
  | .ksched => .cmd8 0x01
  | .encrypt => .cmd8 0x02
  | .decrypt => .cmd8 0x03
  | .release => .cmd8 0x04
  | .reserved word => .cmd8 word
  | .idle => .phase5 0b00000
  | .ksSeed => .phase5 0b00001
  | .ksSbox => .phase5 0b00010
  | .ksShift => .phase5 0b00011
  | .ksMixc => .phase5 0b00100
  | .ksRkeys => .phase5 0b00101
  | .sub => .phase5 0b01000
  | .shiftr => .phase5 0b01001
  | .mix => .phase5 0b01010
  | .ark => .phase5 0b01011
  | .isub => .phase5 0b01100
  | .ishiftr => .phase5 0b01101
  | .imix => .phase5 0b01110
  | .encblk => .phase5 0b10000
  | .decblk => .phase5 0b10001
  | .pad => .phase5 0b10100
  | .cbcEnc => .phase5 0b10101
  | .cbcDec => .phase5 0b10110
  | .unpad => .phase5 0b10111

/-- The id of a phase (the table of R95). -/
def Phase.id (p : Phase) : BitVec 5 :=
  match encode p.instr with
  | .phase5 id => id
  | .cmd8 _ => 0

/-- The operation of the code word whose bits are `w`. A CMD8 word is one byte, so 8 bits are read as a command word;
5 bits, which the table's "whole bytes" never give, are read as a phase id. -/
def decodeTableWord (nbits w : Nat) : Option Instr :=
  if nbits = 8 ∧ w < 2 ^ 8 then (decodeWord (.cmd8 (BitVec.ofNat 8 w))).toOption
  else if nbits = 5 ∧ w < 2 ^ 5 then (decodeWord (.phase5 (BitVec.ofNat 5 w))).toOption
  else none

end Sys2Proof
end

