-- ==== Sys2Proof/Config.lean ====
section
/-! DEFINITION. Config.lean: the parameters of the machine (R6, R7, R8, R41), which no command changes, and the one
source of the values the spec leaves unspecified. -/

namespace Sys2Proof

/-- The switch SEED_FOLD (R7, R122; decision D8): how 64 bits become the 32-bit seed. -/
inductive SeedFold where
  /-- `FOLD_HI_LO`, the spec's default: the upper half is XORed onto the lower. -/
  | foldHiLo
  /-- `TRUNC_LOW`: the lower half is kept. -/
  | truncLow
  deriving DecidableEq, Repr, Inhabited

/-- The switch SEED_ENDIAN (R7, R63, R121; decision D9): the byte order of the two seed words. -/
inductive SeedEndian where
  /-- `LE`, the spec's default. -/
  | le
  /-- `BE`. -/
  | be
  deriving DecidableEq, Repr, Inhabited

/-- The switch RK_INDEX_MODE (R7, R131; decision D10, conflict C1): which key byte masks a round-key byte. -/
inductive RkIndexMode where
  /-- `LOCAL`, the spec's default: `kidx(r, i) = i mod 32`. -/
  | localIndex
  /-- `RUNNING`: `kidx(r, i) = (16 r + i) mod 32`. -/
  | runningIndex
  deriving DecidableEq, Repr, Inhabited

/-- The pseudo-random generator record `cfg.prng` (R8; decision D6). Its members are total functions of their
arguments (law (a)), and `shuffle` returns a permutation (law (b), carried by the type `Equiv.Perm`). Nothing else may
be assumed of it. The generator's state type `G` is coded as a natural number (log entry 3). -/
structure Prng where
  /-- `PRNG_W`: the width of one raw output. -/
  width : Nat
  /-- `prng_seed : u32 -> G`. -/
  seed : BitVec 32 → Nat
  /-- `prng_next : G -> (Nat, G)`: one raw output `g()`, below `2^PRNG_W`. -/
  next : Nat → BitVec width × Nat
  /-- `shuffle : (n : Nat) -> G -> (a permutation of 0..n-1, G)`. -/
  shuffle : (n : Nat) → Nat → Equiv.Perm (Fin n) × Nat
  /-- `next_byte : G -> (u8, G)`. -/
  nextByte : Nat → Byte × Nat
  deriving Inhabited

/-- The two widths an implementation chooses, both positive (R6; U19). -/
structure Widths where
  /-- `LENW`: the width in bits of LEN and RESULT. -/
  lenw : ℕ+
  /-- `AW`: the width in bits of a data-space address. -/
  aw : ℕ+
  deriving DecidableEq, Repr, Inhabited

/-- The parameters of one implementation (R6, R7, R8, R41). Every operation of Machine/ takes them as an argument. -/
structure Cfg where
  /-- `LENW`: the width in bits of LEN and RESULT (R6). -/
  lenw : Nat
  /-- `AW`: the width in bits of a data-space address (R6). -/
  aw : Nat
  /-- SEED_FOLD (R7). -/
  seedFold : SeedFold
  /-- SEED_ENDIAN (R7). -/
  seedEndian : SeedEndian
  /-- RK_INDEX_MODE (R7). -/
  rkIndexMode : RkIndexMode
  /-- `cfg.prng` (R8). -/
  prng : Prng

/-- The registers and memory bytes that can hold an unspecified value; one name each, so that two of them are never
forced to hold equal values. -/
inductive Site where
  | key | iv | dataPtr | len | result
  | sbox | invSbox | shift | invShift | mixc | rk
  | blk | prev | save | keyc | ptr | n | g | padded | off | rnd | idx
  | buffer | hostRead
  deriving DecidableEq, Repr, Inhabited

namespace Config

/-- SEED_FOLD of the machine: left open, so that a claim about `exec` holds for both values (R7). -/
opaque seedFold : SeedFold

/-- SEED_ENDIAN of the machine: left open (R7). -/
opaque seedEndian : SeedEndian

/-- RK_INDEX_MODE of the machine: left open (R7, conflict C1). -/
opaque rkIndexMode : RkIndexMode

/-- The generator of the machine: left open (R8, N2 to N5, U17). -/
opaque prng : Prng

/-- The two widths of the machine that `State.reset` is the reset state of: left open (R6, U19). -/
opaque widths : Widths

/-- Every value the spec calls unspecified (R27, R36, R37, R42, R71, R249, R271; U2, U13 to U16): the value drawn for
register or buffer `site`, at draw number `draw`, index `index` inside it. It has no body: no proof can learn one. -/
opaque free (site : Site) (draw index : Nat) : Nat

/-- The parameters of a machine of widths `w`: the widths are those it is given (R6, R41), the three switches and the
generator are open (log entries 1, 2 and 3). -/
def cfg (w : Widths) : Cfg where
  lenw := w.lenw
  aw := w.aw
  seedFold := Config.seedFold
  seedEndian := Config.seedEndian
  rkIndexMode := Config.rkIndexMode
  prng := Config.prng

end Config

end Sys2Proof
end

