-- ==== Sys2Proof/Machine/State.lean ====
section
/-! DEFINITION. Machine/State.lean: everything the spec gives the machine to hold (spec/10_state.md, spec/20_memory.md),
as plain data; the reasons a step can stop; the state after reset (R42, R270). -/

namespace Sys2Proof.Machine

/-! ## STATUS and the key context -/

/-- The completion code `CC` (R241). Codes 6 to 15 are never produced (U12), so there are six values. -/
inductive CC where
  /-- 0 `OK`: the command ran to its end. -/
  | ok
  /-- 1 `E_CMD`: a reserved command word (R244). -/
  | eCmd
  /-- 2 `E_NOKEY`: ENCRYPT or DECRYPT with `KEYED = 0` (R245). -/
  | eNokey
  /-- 3 `E_KEYED`: KSCHED with `KEYED = 1` (R246). -/
  | eKeyed
  /-- 4 `E_LEN`: a bad length (R247, R248). -/
  | eLen
  /-- 5 `E_BUS`: a memory access was not admitted (R249). -/
  | eBus
  deriving DecidableEq, Repr

/-- Register 1, STATUS (R30), field by field; the byte the host reads is `Status.toByte` (Flags.lean). -/
structure Status where
  /-- Bit 0, `BUSY`: the engine executes a command. -/
  busy : Bool
  /-- Bit 1, `KEYED`: the key context holds a complete DerivedState (R27). -/
  keyed : Bool
  /-- Bit 2, `DONE`: the last accepted command has ended. -/
  done : Bool
  /-- Bit 3, `FAULT`: sticky (R250). -/
  fault : Bool
  /-- Bits 7:4, `CC` (R241). -/
  cc : CC
  deriving DecidableEq, Repr

/-- DerivedState (R20): the six register files of the key context. Not readable by the host. -/
structure DerivedState where
  /-- `SBOX` (R21). -/
  sbox : Table 8
  /-- `INV_SBOX` (R22). -/
  invSbox : Table 8
  /-- `SHIFT` (R23). -/
  shift : Table 4
  /-- `INV_SHIFT` (R24). -/
  invShift : Table 4
  /-- `MIXC` (R25). -/
  mixc : Byte
  /-- `RK` (R26). -/
  rk : RoundKeys
  deriving DecidableEq, Repr

/-- The working registers of the engine (R36 to R39). Not readable by the host. Lengths, offsets and addresses are
numbers (R11, R64); `Working.WidthsOk` (Safety.lean) says the widths. -/
structure Working where
  /-- `BLK`: the Block (R36). -/
  blk : Block
  /-- `PREV`: the previous block of the chaining (R36). -/
  prev : Block
  /-- `SAVE`: the current ciphertext, kept during decryption (R36). -/
  save : Block
  /-- `KEYC`: the copy of KEY (R37). -/
  keyc : Key
  /-- `PTR`: the copy of DATA_PTR, `AW` bits (R37). -/
  ptr : Nat
  /-- `N`: the copy of LEN, `LENW` bits (R37). -/
  n : Nat
  /-- `G`: the generator state (R38; its type is log entry 3). -/
  g : Nat
  /-- `PADDED`: the padded length, `LENW` bits (R39). -/
  padded : Nat
  /-- `OFF`: the offset of the block being processed, `LENW` bits (R39). -/
  off : Nat
  /-- `RND`: the round index, 3 bits (R39). -/
  rnd : Fin 8
  /-- `IDX`: the byte index of the inner loops (R39). -/
  idx : Nat
  deriving DecidableEq, Repr

/-! ## The data space -/

/-- The contents of the data space (R60): the bytes that differ from what an unlisted address reads as, by strictly
rising address. The form is `Memory.wf` (Ops.lean). -/
abbrev Memory := List Host.Cell

/-- What the platform has put in a part of the data space (R67, R68). -/
inductive RegionKind where
  /-- Ordinary memory: reads and writes are admitted. -/
  | ram
  /-- Read-only memory: reads are admitted, writes are not (R68). -/
  | rom
  /-- A device with side effects: a buffer there is outside the spec (R67). -/
  | device
  deriving DecidableEq, Repr

/-- One range of the platform's address map: `size` addresses from `base` (R68). -/
structure Region where
  base : Nat
  size : Nat
  kind : RegionKind
  deriving DecidableEq, Repr

/-- What one ENCRYPT or DECRYPT bars the host from (R71, R280). -/
structure Window where
  /-- The first address. -/
  base : Nat
  /-- How many addresses the host must neither read nor write: `max(N, PADDED)` (R71). -/
  barred : Nat
  /-- How many of them are the buffer of the command: `PADDED` for ENCRYPT, `N` for DECRYPT (R61). -/
  buffer : Nat
  deriving DecidableEq, Repr

/-! ## The host's side -/

/-- The host registers (R28), and the numbers 7 and above, which do not exist (R94). -/
inductive Reg where
  /-- Register 0. -/
  | cmd
  /-- Register 1. -/
  | status
  /-- Register 2. -/
  | key
  /-- Register 3. -/
  | iv
  /-- Register 4. -/
  | dataPtr
  /-- Register 5. -/
  | len
  /-- Register 6. -/
  | result
  /-- Register number `7 + k`. -/
  | absent (k : Nat)
  deriving DecidableEq, Repr

/-- What a read gives the host: registers are read whole, as values (R28). -/
inductive ReadValue where
  /-- The value of an 8-bit register. -/
  | byte (v : Byte)
  /-- The bytes of KEY, IV or of a range of memory, index 0 first. -/
  | bytes (v : List Byte)
  /-- A length, an address, or the 0 that an absent register reads as. -/
  | number (v : Nat)
  deriving DecidableEq, Repr

/-- One action of the host (R96), or of the reset input (R270). -/
inductive HostMove where
  /-- `WR CMD, v` (R29). -/
  | wrCmd (v : Byte)
  /-- A write to STATUS, which is read only (R28). -/
  | wrStatus (v : Byte)
  /-- `WR KEY, v` (R31). -/
  | wrKey (v : Key)
  /-- `WR IV, v` (R32). -/
  | wrIv (v : Block)
  /-- `WR DATA_PTR, v` (R33). -/
  | wrDataPtr (v : Nat)
  /-- `WR LEN, v` (R34). -/
  | wrLen (v : Nat)
  /-- A write to RESULT, which is read only (R28). -/
  | wrResult (v : Nat)
  /-- A write of `v` to register number `7 + k` (R94). -/
  | wrAbsent (k v : Nat)
  /-- `RD r`. -/
  | rd (r : Reg)
  /-- `WAIT`: read STATUS until `BUSY` reads 0. -/
  | wait
  /-- `MEM[a .. a+n-1] = bytes`. -/
  | memWrite (a : Nat) (bytes : List Byte)
  /-- The host reads `n` bytes of the data space at `a`. -/
  | memRead (a n : Nat)
  /-- `rst` is asserted (R270, R271). -/
  | rst
  deriving DecidableEq, Repr

/-- Which agent moves next (R3 section 4: the engine and the host are the two agents). -/
inductive Turn where
  /-- The engine runs. -/
  | engine
  /-- The host acts. -/
  | host (m : HostMove)
  deriving DecidableEq, Repr

/-- How much of a command one step of the machine runs (R219; log entry 12). -/
inductive Pace where
  /-- A command is one step, from its acceptance to its end. -/
  | atomic
  /-- Acceptance is one step, and so is each phase of the command's sequence (R40). -/
  | phases
  /-- As `phases`, and CBC_ENC, CBC_DEC, ENCBLK and DECBLK are entered: one step a round phase. -/
  | micro
  deriving DecidableEq, Repr

/-! ## Why a step stops -/

/-- Faults. None is the core's own: every fault the spec gives the core is a completion code (R240). -/
inductive Fault where
  /-- Raised by a host access to an address at which the platform has no memory that takes it (R68). Safe: the model
  stops where the platform would do something. -/
  | hostAccess (addr : Nat)
  deriving DecidableEq, Repr

/-- Refusals. -/
inductive Refusal where
  /-- Raised by an arm of `exec` that has no meaning yet. Safe. -/
  | notModelled (mnemonic : String)
  /-- Raised by a phase whose access reaches a device at `addr`: "Pointing DATA_PTR at a device with read or write side
  effects is outside this spec; a model should refuse such a launch" (R67). Safe. -/
  | deviceBuffer (addr : Nat)
  /-- Raised by a host access to a device at `addr`, whose behaviour the spec does not give. Safe. -/
  | hostDevice (addr : Nat)
  deriving DecidableEq, Repr

end Sys2Proof.Machine

namespace Sys2Proof.Machine

/-- The state of the machine: the key context, the host register file, the working registers, the sequencing state, the
data space with its admission map, the widths of the machine it is a state of, and the model's own bookkeeping
(INVENTORY.md, State). -/
structure State where
  /-- Register 1, STATUS (R30). -/
  status : Status
  /-- Register 2, KEY (R31). -/
  key : Key
  /-- Register 3, IV (R32). -/
  iv : Block
  /-- Register 4, DATA_PTR, `AW` bits (R33). -/
  dataPtr : Nat
  /-- Register 5, LEN, `LENW` bits (R34). -/
  len : Nat
  /-- Register 6, RESULT, `LENW` bits (R35). -/
  result : Nat
  /-- DerivedState (R20). -/
  ds : DerivedState
  /-- The working registers (R36 to R39). -/
  work : Working
  /-- PHASE (R40, R95). -/
  phase : Phase
  /-- The command in progress, which fixes the phase sequence (R40; log entry 14). -/
  cmd : Option Command
  /-- The contents of the data space (R60). -/
  mem : Memory
  /-- Which addresses exist and are writable: the platform's (R68; log entry 6). No step changes it. -/
  map : List Region
  /-- The widths of the machine, its parameters (R6, R41; log entry 1). No step changes them. -/
  widths : Widths
  /-- MODEL'S OWN: whether the host has accessed the buffer of the command in progress, against its duty H8 (R71, R280;
  U15; log entry 15). -/
  trespass : Bool
  /-- MODEL'S OWN: what the ENCRYPT and DECRYPT commands that have ended bar the host from until it reads `BUSY` as 0, the
  last one first (R71, R280; log entry 25). -/
  unseen : List Window
  /-- MODEL'S OWN: the moves to come, the next one first (log entry 11). -/
  turns : List Turn
  /-- MODEL'S OWN: what the host's last read gave (log entry 21). -/
  rdata : Option ReadValue
  /-- MODEL'S OWN: how much of a command one step runs (R219; log entry 12). No step changes it. -/
  pace : Pace
  /-- MODEL'S OWN: how many draws of unspecified values have been made (log entry 4). -/
  draws : Nat
  deriving DecidableEq, Repr

/-- The parameters of the machine that `s` is a state of (R6, R41). -/
def State.cfg (s : State) : Cfg :=
  Config.cfg s.widths

/-! ## Unspecified values and reset -/

/-- The unspecified bytes of `site` at draw number `k`. -/
def drawBytes (n : Nat) (site : Site) (k : Nat) : Vector Byte n :=
  Vector.ofFn fun i => BitVec.ofNat 8 (Config.free site k i)

/-- The unspecified table of `site` at draw number `k`. -/
def drawTable (w : Nat) (site : Site) (k : Nat) : Table w :=
  Vector.ofFn fun i => BitVec.ofNat w (Config.free site k i)

/-- The unspecified number of `width` bits of `site` at draw number `k`. -/
def drawNumber (width : Nat) (site : Site) (k : Nat) : Nat :=
  Config.free site k 0 % 2 ^ width

/-- Unspecified contents of the key context (R27, R42; U14). -/
def DerivedState.unspecified (k : Nat) : DerivedState where
  sbox := drawTable 8 .sbox k
  invSbox := drawTable 8 .invSbox k
  shift := drawTable 4 .shift k
  invShift := drawTable 4 .invShift k
  mixc := BitVec.ofNat 8 (Config.free .mixc k 0)
  rk := Vector.ofFn fun r => Vector.ofFn fun i => BitVec.ofNat 8 (Config.free .rk k (16 * r + i))

/-- Unspecified contents of the working registers (R36, R37, R42; U14). -/
def Working.unspecified (c : Cfg) (k : Nat) : Working where
  blk := drawBytes 16 .blk k
  prev := drawBytes 16 .prev k
  save := drawBytes 16 .save k
  keyc := drawBytes 32 .keyc k
  ptr := drawNumber c.aw .ptr k
  n := drawNumber c.lenw .n k
  g := Config.free .g k 0
  padded := drawNumber c.lenw .padded k
  off := drawNumber c.lenw .off k
  rnd := Fin.ofNat 8 (Config.free .rnd k 0)
  idx := Config.free .idx k 0

/-- STATUS after reset: `0x00` (R42). -/
def Status.reset : Status where
  busy := false
  keyed := false
  done := false
  fault := false
  cc := .ok

/-- A machine of widths `w` right after reset (R42, R270): STATUS and RESULT are 0 and the engine is idle; every register the spec
leaves unspecified holds draw number 0 (log entry 4); memory lists nothing (log entry 5); the whole data space is
ordinary memory (log entry 6); no host move is pending (log entry 11). -/
def State.resetAt (w : Widths) : State where
  status := Status.reset
  key := drawBytes 32 .key 0
  iv := drawBytes 16 .iv 0
  dataPtr := drawNumber w.aw .dataPtr 0
  len := drawNumber w.lenw .len 0
  result := 0
  ds := DerivedState.unspecified 0
  work := Working.unspecified (Config.cfg w) 0
  phase := .idle
  cmd := none
  mem := []
  map := [⟨0, 2 ^ (w.aw : Nat), .ram⟩]
  widths := w
  trespass := false
  unseen := []
  turns := []
  rdata := none
  pace := .atomic
  draws := 1

/-- The machine right after reset, at widths that are left open (R6, R42, R270; log entry 1). -/
def State.reset : State :=
  State.resetAt Config.widths

end Sys2Proof.Machine
end

