-- ==== Sys2Proof/Machine/Flags.lean ====
section
/-! DEFINITION. Machine/Flags.lean: every change the rules make to STATUS (R30, R210, R242, R243, R258) and the byte the
host reads from it. -/

namespace Sys2Proof.Machine

/-- The number of a completion code (the table of R241). -/
def CC.code : CC → BitVec 4
  | .ok => 0
  | .eCmd => 1
  | .eNokey => 2
  | .eKeyed => 3
  | .eLen => 4
  | .eBus => 5

/-- The byte STATUS reads as: `CC` in bits 7:4, `FAULT`, `DONE`, `KEYED`, `BUSY` in bits 3, 2, 1, 0 (R30). -/
def Status.toByte (s : Status) : Byte :=
  s.cc.code ++ BitVec.ofBool s.fault ++ BitVec.ofBool s.done ++ BitVec.ofBool s.keyed ++ BitVec.ofBool s.busy

/-- Acceptance of a command: `BUSY <- 1; DONE <- 0`; `CC` keeps its old value (R210, R30). -/
def Status.accept (s : Status) : Status :=
  { s with busy := true, done := false }

/-- A CMD write while `BUSY = 1`: `FAULT <- 1`, nothing else (R210, R258). -/
def Status.drop (s : Status) : Status :=
  { s with fault := true }

/-- `complete`: `CC <- 0; DONE <- 1; BUSY <- 0`; `FAULT` is left as it was (R242). -/
def Status.complete (s : Status) : Status :=
  { s with cc := .ok, done := true, busy := false }

/-- `refuse code`: `CC <- code; FAULT <- 1; DONE <- 1; BUSY <- 0` (R243). -/
def Status.refuse (code : CC) (s : Status) : Status :=
  { s with cc := code, fault := true, done := true, busy := false }

/-- `KEYED <- 1`, the last step of a successful KSCHED (R27, R211). -/
def Status.setKeyed (s : Status) : Status :=
  { s with keyed := true }

/-- `KEYED <- 0`, by RELEASE (R27, R215). -/
def Status.clearKeyed (s : Status) : Status :=
  { s with keyed := false }

end Sys2Proof.Machine
end

