-- ==== Sys2Proof/Machine/Ops.lean ====
section
/-! DEFINITION. Machine/Ops.lean: the named operations over memory (R11, R60, R66 to R70), the ends of a command
(`complete` R242, `refuse` R243, the bus refusal R249, the block's exception entry in the sense of R254), and reset
(R270, R271). There is no return from an exception: the host acknowledges a refusal by doing nothing (R255). -/

namespace Sys2Proof.Machine

/-! ## The contents of the data space -/

/-- What an address that no cell lists reads as (log entry 5). -/
def Memory.blank : Byte := 0x00

/-- The byte at an address (R60, R67). -/
def Memory.read (m : Memory) (a : Nat) : Byte :=
  match m with
  | [] => Memory.blank
  | (b, v) :: rest => if a = b then v else Memory.read rest a

/-- Write one byte, keeping the canonical form: a blank byte is not listed (R60, R67). -/
def Memory.write (m : Memory) (a : Nat) (v : Byte) : Memory :=
  match m with
  | [] => if v = Memory.blank then [] else [(a, v)]
  | (b, w) :: rest =>
    if a < b then (if v = Memory.blank then (b, w) :: rest else (a, v) :: (b, w) :: rest)
    else if a = b then (if v = Memory.blank then rest else (a, v) :: rest)
    else (b, w) :: Memory.write rest a v

/-- Every listed address is at least `lo`, the addresses rise strictly, and no listed byte is blank. -/
def Memory.wfFrom (lo : Nat) : Memory → Bool
  | [] => true
  | (a, v) :: rest => decide (lo ≤ a) && decide (v ≠ Memory.blank) && Memory.wfFrom (a + 1) rest

/-- The canonical form of the contents of memory. -/
def Memory.wf (m : Memory) : Bool :=
  Memory.wfFrom 0 m

/-- `MemRead(a, 16)` as a Block: position `i` is the byte at `a + i` (R11, R62). -/
def Memory.readBlock (m : Memory) (a : Nat) : Block :=
  Vector.ofFn fun i => m.read (a + i)

/-- `MemWrite(a, 16, b)`: position `i` goes to `a + i` (R11, R62). -/
def Memory.writeBlock (m : Memory) (a : Nat) (b : Block) : Memory :=
  Nat.fold 16 (fun i _ (m : Memory) => m.write (a + i) b[i]) m

/-- `MemRead(a, n)` as a list, entry `k` the byte at `a + k` (R11). -/
def Memory.readBytes (m : Memory) (a n : Nat) : List Byte :=
  (List.range n).map fun k => m.read (a + k)

/-- `MemWrite(a, n, bytes)` from a list, entry `k` to `a + k` (R11). -/
def Memory.writeBytes (m : Memory) (a : Nat) (bytes : List Byte) : Memory :=
  match bytes with
  | [] => m
  | v :: rest => Memory.writeBytes (m.write a v) (a + 1) rest

/-! ## Admission -/

/-- The direction of an access. -/
inductive Dir where
  | read | write
  deriving DecidableEq, Repr

/-- What the platform does with an access (R67, R68). -/
inductive Access where
  /-- The memory accepts it. -/
  | admitted
  /-- The memory does not accept it (R68, R249). -/
  | bus
  /-- It reaches a device, at this address (R67). -/
  | device (addr : Nat)
  deriving DecidableEq, Repr

/-- What the platform has at an address: the first region of the map that holds it. -/
def regionAt (map : List Region) (a : Nat) : Option RegionKind :=
  (map.find? fun r => decide (r.base ≤ a) && decide (a < r.base + r.size)).map Region.kind

/-- Whether a one-byte access is admitted: not at or above `2^AW`, not where nothing is mapped, not a write to read-only
memory (R68). -/
def accessByte (c : Cfg) (map : List Region) (dir : Dir) (a : Nat) : Access :=
  if 2 ^ c.aw ≤ a then .bus
  else
    match regionAt map a, dir with
    | some .ram, _ => .admitted
    | some .rom, .read => .admitted
    | some .rom, .write => .bus
    | some .device, _ => .device a
    | none, _ => .bus

/-- Two accesses of one group: a device anywhere in it is outside the spec, and else one access that is not admitted
stops the group, in whatever order the group's bytes are accessed (R66; log entry 7). -/
def Access.join : Access → Access → Access
  | .device a, _ => .device a
  | _, .device a => .device a
  | .bus, _ => .bus
  | _, .bus => .bus
  | .admitted, .admitted => .admitted

/-- Whether an access of `n` bytes from `a` is admitted (R66, R68). -/
def accessRange (c : Cfg) (map : List Region) (dir : Dir) (a n : Nat) : Access :=
  Nat.fold n (fun k _ acc => acc.join (accessByte c map dir (a + k))) .admitted

/-! ## A phase that accesses memory -/

/-- How far a phase that accesses memory has come. -/
inductive Run where
  /-- It goes on, from this state. -/
  | go (s : State)
  /-- An access was not admitted; the state is the one before that access (R249). -/
  | bus (s : State)
  /-- An access reaches a device (R67). -/
  | device (addr : Nat)
  deriving DecidableEq, Repr

/-- What follows, unless the run has stopped. -/
def Run.bind (r : Run) (f : State → Run) : Run :=
  match r with
  | .go s => f s
  | .bus s => .bus s
  | .device a => .device a

/-- Go on if an access of `n` bytes from `a` is admitted (R68, R249). -/
def reach (c : Cfg) (dir : Dir) (a n : Nat) (s : State) : Run :=
  match accessRange c s.map dir a n with
  | .admitted => .go s
  | .bus => .bus s
  | .device addr => .device addr

/-- `MemWrite(a, 1, v)`, whose access has been admitted. -/
def State.storeByte (s : State) (a : Nat) (v : Byte) : State :=
  { s with mem := s.mem.write a v }

/-- `MemWrite(a, 16, b)`, whose access has been admitted. -/
def State.storeBlock (s : State) (a : Nat) (b : Block) : State :=
  { s with mem := s.mem.writeBlock a b }

/-! ## Unspecified contents -/

/-- Unspecified contents of the `n` bytes from `a`, whatever the platform has there, as far as they are addresses of the
data space: draw number `k` (R60, R249, R271; U13, U16; log entry 8). -/
def Memory.unspecify (c : Cfg) (a n k : Nat) (m : Memory) : Memory :=
  Nat.fold n
    (fun i _ (m : Memory) =>
      if a + i < 2 ^ c.aw then m.write (a + i) (BitVec.ofNat 8 (Config.free .buffer k i)) else m) m

/-- RESULT and the `n` bytes from `a` hold unspecified values: what E_BUS leaves of a buffer (R249, U13), and what a host
that broke its duty H8 finds (R71, R280; U15). -/
def State.loseRange (c : Cfg) (a n : Nat) (s : State) : State :=
  { s with
    result := drawNumber c.lenw .result s.draws
    mem := s.mem.unspecify c a n s.draws
    draws := s.draws + 1 }

/-- The working registers after a command that used them: unspecified (R36, R37; U14; log entry 9). -/
def State.retire (c : Cfg) (s : State) : State :=
  { s with work := Working.unspecified c s.draws, draws := s.draws + 1 }

/-! ## What a command bars the host from -/

/-- `PADDED = (floor(N/16) + 1) * 16` (R181). -/
def paddedLength (n : Nat) : Nat :=
  (n / 16 + 1) * 16

/-- What a command on `n` bytes at `ptr` bars the host from: `max(N, PADDED)` addresses for ENCRYPT and DECRYPT, with the
PADDED of R181, which is what the register holds in an ENCRYPT (R39) and is no register's value in a DECRYPT (R71; log
entry 15). KSCHED has no buffer (R280). -/
def windowOf (cmd : Command) (ptr n : Nat) : Option Window :=
  match cmd with
  | .ksched => none
  | .encrypt => some ⟨ptr, max n (paddedLength n), paddedLength n⟩
  | .decrypt => some ⟨ptr, max n (paddedLength n), n⟩

/-- What the command in progress bars the host from, by its copies of the operands (R37, R71). -/
def State.window (s : State) : Option Window :=
  s.cmd.bind fun cmd => windowOf cmd s.work.ptr s.work.n

/-- How many bytes of the data space from PTR the command in progress may access: `PADDED` for ENCRYPT, `N` for DECRYPT,
none for KSCHED (R61, R271). -/
def State.extent (s : State) : Nat :=
  match s.window with
  | some w => w.buffer
  | none => 0

/-- One of the `n` addresses from `a` is one that `w` bars the host from. -/
abbrev Window.meets (w : Window) (a n : Nat) : Prop :=
  0 < n ∧ 0 < w.barred ∧ a < w.base + w.barred ∧ w.base < a + n

/-- The host reads STATUS: where `BUSY` reads 0 it has observed the end of every command (R71, R72, R280). -/
def State.observe (s : State) : State :=
  if s.status.busy then s else { s with unseen := [] }

/-! ## The ends of a command -/

/-- The engine is idle: `PHASE <- IDLE` (R242, R243). No command is in progress; the host has not yet observed the end of
the one that was (R71). -/
def State.toIdle (s : State) : State :=
  { s with phase := .idle, cmd := none, trespass := false, unseen := s.window.toList ++ s.unseen }

/-- `complete` (R242). -/
def State.complete (s : State) : State :=
  { s.toIdle with status := s.status.complete }

/-- `refuse code`, the codes 1 to 4: the complete effect of R243 (R254). -/
def State.refuse (code : CC) (s : State) : State :=
  { s.toIdle with status := s.status.refuse code, result := 0 }

/-- `refuse E_BUS`: RESULT and the `n` bytes of the buffer are unspecified afterwards; DerivedState and KEYED are
unchanged (R243, R249; log entry 8). -/
def State.refuseBus (c : Cfg) (n : Nat) (s : State) : State :=
  { (s.loseRange c s.work.ptr n).toIdle with status := s.status.refuse .eBus }

/-- The outcome of a phase that accesses memory, run by itself: `n` is the length of the command's buffer. -/
def Run.settle (c : Cfg) (n : Nat) (r : Run) : Host.Outcome State Fault Refusal :=
  match r with
  | .go s => .next s
  | .bus s => .next ((s.refuseBus c n).retire c)
  | .device a => .refused (.deviceBuffer a)

/-- The end of a command whose host broke its duty H8: "the contents of the buffer at the end of the command, and
`RESULT`, are unspecified" (R71, R280; U15; log entry 15). Where the duty was kept nothing is lost. -/
def State.loseIfTrespassed (c : Cfg) (s : State) : State :=
  if s.trespass then s.loseRange c s.work.ptr s.extent else s

/-! ## Reset -/

/-- `rst` is asserted (R270, R271): STATUS and RESULT are 0, the engine is idle, every other register is unspecified, and
so is the buffer of an abandoned command; the rest of memory, the platform and the moves to come stay. No end of a command
is left to observe (log entry 25). -/
def State.assertReset (c : Cfg) (s : State) : State :=
  { s with
    status := Status.reset
    key := drawBytes 32 .key s.draws
    iv := drawBytes 16 .iv s.draws
    dataPtr := drawNumber c.aw .dataPtr s.draws
    len := drawNumber c.lenw .len s.draws
    result := 0
    ds := DerivedState.unspecified s.draws
    work := Working.unspecified c s.draws
    phase := .idle
    cmd := none
    trespass := false
    unseen := []
    mem := s.mem.unspecify c s.work.ptr s.extent s.draws
    draws := s.draws + 1 }

end Sys2Proof.Machine
end

