-- ==== Sys2Proof/Machine/Operands.lean ====
section
/-! DEFINITION. Machine/Operands.lean: the host registers as the host reads and writes them (R28 to R35, R94), the
sampling of the operands at acceptance (R37, R218), and the only place where bytes are assembled into a wider number
(R12, R63). -/

namespace Sys2Proof.Machine

/-! ## Register numbers -/

/-- The number of a register (R28, R94). -/
def Reg.number : Reg → Nat
  | .cmd => 0
  | .status => 1
  | .key => 2
  | .iv => 3
  | .dataPtr => 4
  | .len => 5
  | .result => 6
  | .absent k => 7 + k

/-- The register of a number (R28, R94). -/
def Reg.ofNumber : Nat → Reg
  | 0 => .cmd
  | 1 => .status
  | 2 => .key
  | 3 => .iv
  | 4 => .dataPtr
  | 5 => .len
  | 6 => .result
  | k + 7 => .absent k

/-! ## Host reads and writes -/

/-- What a read of a register returns (R28, R94): CMD reads 0 (R29), KEY reads 32 zero bytes (R31), a register that does
not exist reads 0; no read has an effect on the core. -/
def State.readReg (s : State) : Reg → ReadValue
  | .cmd => .byte 0
  | .status => .byte s.status.toByte
  | .key => .bytes (List.replicate 32 0)
  | .iv => .bytes s.iv.toList
  | .dataPtr => .number s.dataPtr
  | .len => .number s.len
  | .result => .number s.result
  | .absent _ => .number 0

/-- A host write to KEY replaces all 32 bytes (R31). -/
def State.writeKey (s : State) (v : Key) : State :=
  { s with key := v }

/-- A host write to IV (R32). -/
def State.writeIv (s : State) (v : Block) : State :=
  { s with iv := v }

/-- A host write to DATA_PTR, `AW` bits wide (R33; log entry 20). -/
def State.writeDataPtr (c : Cfg) (s : State) (v : Nat) : State :=
  { s with dataPtr := v % 2 ^ c.aw }

/-- A host write to LEN, `LENW` bits wide (R34; log entry 20). -/
def State.writeLen (c : Cfg) (s : State) (v : Nat) : State :=
  { s with len := v % 2 ^ c.lenw }

/-! ## Acceptance -/

/-- The first phase of a command (R40). -/
def firstPhase : Command → Phase
  | .ksched => .ksSeed
  | .encrypt => .pad
  | .decrypt => .cbcDec

/-- Operand sampling (R37, R218): KSCHED copies KEY; ENCRYPT and DECRYPT copy IV, DATA_PTR and LEN. -/
def State.sample (s : State) : Command → State
  | .ksched => { s with work := { s.work with keyc := s.key } }
  | .encrypt => { s with work := { s.work with prev := s.iv, ptr := s.dataPtr, n := s.len } }
  | .decrypt => { s with work := { s.work with prev := s.iv, ptr := s.dataPtr, n := s.len } }

/-- Acceptance of a command with phases (R210): `BUSY <- 1; DONE <- 0`, the operands are sampled, PHASE leaves IDLE, and
the host has not yet broken a duty towards it (log entry 15). -/
def State.accept (s : State) (cmd : Command) : State :=
  let t := s.sample cmd
  { t with status := t.status.accept, phase := firstPhase cmd, cmd := some cmd, trespass := false }

/-- Acceptance of a command without phases, RELEASE or a reserved word, which samples nothing (R210, R218) and has no
buffer. -/
def State.acceptPlain (s : State) : State :=
  { s with status := s.status.accept, cmd := none }

/-- A CMD write while `BUSY = 1` is dropped (R210, R258). -/
def State.dropCommand (s : State) : State :=
  { s with status := s.status.drop }

/-! ## Tables -/

/-- `T[x]`: entry `x` of a table (R10). -/
def lookup {w : Nat} (t : Table w) (x : BitVec w) : BitVec w :=
  t[x.toNat]'(x.isLt)

/-! ## Byte order -/

/-- The 8 bytes of a key from byte `start` (R121). -/
def keyWord (k : Key) (start : Fin 25) : Vector Byte 8 :=
  Vector.ofFn fun i => k[start.val + i.val]

/-- `LE64(b) = b[0] + 256 b[1] + ... + 256^7 b[7]` (R12). -/
def le64 (b : Vector Byte 8) : BitVec 64 :=
  BitVec.ofNat 64 (Nat.fold 8 (fun k _ acc => acc + 256 ^ k * b[k].toNat) 0)

/-- `BE64(b) = b[7] + 256 b[6] + ... + 256^7 b[0]` (R12). -/
def be64 (b : Vector Byte 8) : BitVec 64 :=
  BitVec.ofNat 64 (Nat.fold 8 (fun k _ acc => acc + 256 ^ k * b[7 - k].toNat) 0)

end Sys2Proof.Machine
end

