-- ==== Sys2Proof/Machine/RoundTransform.lean ====
section
/-! DEFINITION. Machine/RoundTransform.lean: the phases of one round, forward and inverse, and the two block operations
(spec/41_round_transform.md). All are total; they read DerivedState and never write it (R163). -/

namespace Sys2Proof.Machine

/-! ## The steps, on a Block -/

/-- Every byte replaced by its entry of the table, all positions at once (R151, R157). -/
def subBytes (t : Table 8) (b : Block) : Block :=
  Vector.ofFn fun i : Fin 16 => lookup t b[i]

/-- Output position `i` takes the value at input position `t[i]`, all positions at once: a gather (R152, R156). -/
def gatherBytes (t : Table 4) (b : Block) : Block :=
  Vector.ofFn fun i : Fin 16 => b[t[i].toNat]'(t[i].isLt)

/-- `for i = 0 .. 14: BLK[i] <- BLK[i] ^ BLK[i+1] ^ MIXC`, one position after the other; position 15 is not written
(R153). -/
def mixColumns (m : Byte) (b : Block) : Block :=
  Nat.fold 15 (fun i _ (b : Block) => b.set i (b[i] ^^^ b[i + 1] ^^^ m)) b

/-- `for i = 14 downto 0: BLK[i] <- BLK[i] ^ BLK[i+1] ^ MIXC`, one position after the other (R155). -/
def invMixColumns (m : Byte) (b : Block) : Block :=
  Nat.foldRev 15 (fun i _ (b : Block) => b.set i (b[i] ^^^ b[i + 1] ^^^ m)) b

/-- `X ^ Y` of two 16-byte values, position by position (R10, R154). -/
def xorBlock (x y : Block) : Block :=
  Vector.ofFn fun i : Fin 16 => x[i] ^^^ y[i]

/-- Forward round `r`: SUB, SHIFTR, MIX, ARK (R158). -/
def forwardRound (d : DerivedState) (r : Fin 8) (b : Block) : Block :=
  xorBlock (mixColumns d.mixc (gatherBytes d.shift (subBytes d.sbox b))) d.rk[r]

/-- Inverse round `r`: ARK, IMIX, ISHIFTR, ISUB (R160). -/
def inverseRound (d : DerivedState) (r : Fin 8) (b : Block) : Block :=
  subBytes d.invSbox (gatherBytes d.invShift (invMixColumns d.mixc (xorBlock b d.rk[r])))

/-- ENCBLK: forward rounds 0..7 in increasing order (R159). -/
def encryptBlock (d : DerivedState) (b : Block) : Block :=
  Nat.fold 8 (fun r h (b : Block) => forwardRound d ⟨r, h⟩ b) b

/-- DECBLK: inverse rounds 7..0 descending (R161). -/
def decryptBlock (d : DerivedState) (b : Block) : Block :=
  Nat.foldRev 8 (fun r h (b : Block) => inverseRound d ⟨r, h⟩ b) b

/-! ## The phases, on the state -/

/-- The state with another Block. -/
def State.setBlk (s : State) (b : Block) : State :=
  { s with work := { s.work with blk := b } }

/-- The state with another byte index. -/
def State.setIdx (s : State) (i : Nat) : State :=
  { s with work := { s.work with idx := i } }

/-- The state with another round index. -/
def State.setRnd (s : State) (r : Fin 8) : State :=
  { s with work := { s.work with rnd := r } }

/-- SUB (R151). -/
def phaseSub (s : State) : State :=
  s.setBlk (subBytes s.ds.sbox s.work.blk)

/-- SHIFTR (R152). -/
def phaseShiftr (s : State) : State :=
  s.setBlk (gatherBytes s.ds.shift s.work.blk)

/-- MIX (R153); the loop index is left at its last value, 14 (R39). -/
def phaseMix (s : State) : State :=
  (s.setBlk (mixColumns s.ds.mixc s.work.blk)).setIdx 14

/-- ARK with `RK[RND]` (R154). -/
def phaseArk (s : State) : State :=
  s.setBlk (xorBlock s.work.blk s.ds.rk[s.work.rnd])

/-- ISUB (R157). -/
def phaseIsub (s : State) : State :=
  s.setBlk (subBytes s.ds.invSbox s.work.blk)

/-- ISHIFTR (R156). -/
def phaseIshiftr (s : State) : State :=
  s.setBlk (gatherBytes s.ds.invShift s.work.blk)

/-- IMIX (R155); the loop index is left at its last value, 0 (R39). -/
def phaseImix (s : State) : State :=
  (s.setBlk (invMixColumns s.ds.mixc s.work.blk)).setIdx 0

/-- ENCBLK: writes BLK and RND (R159), which is left at its last value, 7; MIX leaves IDX at 14. -/
def phaseEncblk (s : State) : State :=
  ((s.setBlk (encryptBlock s.ds s.work.blk)).setRnd 7).setIdx 14

/-- DECBLK: writes BLK and RND (R161), which is left at its last value, 0; IMIX leaves IDX at 0. -/
def phaseDecblk (s : State) : State :=
  ((s.setBlk (decryptBlock s.ds s.work.blk)).setRnd 0).setIdx 0

/-! ## The meanings -/

/-- `SUB` (R151). -/
def execSub (s : State) : Host.Outcome State Fault Refusal :=
  .next (phaseSub s)

/-- `SHIFTR` (R152). -/
def execShiftr (s : State) : Host.Outcome State Fault Refusal :=
  .next (phaseShiftr s)

/-- `MIX` (R153). -/
def execMix (s : State) : Host.Outcome State Fault Refusal :=
  .next (phaseMix s)

/-- `ARK` (R154). -/
def execArk (s : State) : Host.Outcome State Fault Refusal :=
  .next (phaseArk s)

/-- `ISUB` (R157). -/
def execIsub (s : State) : Host.Outcome State Fault Refusal :=
  .next (phaseIsub s)

/-- `ISHIFTR` (R156). -/
def execIshiftr (s : State) : Host.Outcome State Fault Refusal :=
  .next (phaseIshiftr s)

/-- `IMIX` (R155). -/
def execImix (s : State) : Host.Outcome State Fault Refusal :=
  .next (phaseImix s)

/-- `ENCBLK` (R159). -/
def execEncblk (s : State) : Host.Outcome State Fault Refusal :=
  .next (phaseEncblk s)

/-- `DECBLK` (R161). -/
def execDecblk (s : State) : Host.Outcome State Fault Refusal :=
  .next (phaseDecblk s)

end Sys2Proof.Machine
end

