-- ==== Sys2Proof/Machine/CbcMode.lean ====
section
/-! DEFINITION. Machine/CbcMode.lean: the phases of the chained mode (spec/42_cbc_mode.md), the only ones that access
memory. Their accesses are made in the order the rules list them (R70); one that is not admitted stops the phase there
(R249). -/

namespace Sys2Proof.Machine

/-! ## PAD -/

/-- The zero fill of PAD: `count` bytes from offset `idx` (R182). -/
def zeroFill (c : Cfg) : Nat → Nat → State → Run
  | 0, _, s => .go s
  | count + 1, idx, s =>
    (reach c .write (s.work.ptr + idx) 1 s).bind fun s =>
      zeroFill c count (idx + 1) ((s.storeByte (s.work.ptr + idx) 0x00).setIdx idx)

/-- PAD: the marker 0x80 at offset `N`, then 0x00 up to `PADDED - 1` (R182). -/
def phasePad (c : Cfg) (s : State) : Run :=
  (reach c .write (s.work.ptr + s.work.n) 1 s).bind fun s =>
    zeroFill c (s.work.padded - (s.work.n + 1)) (s.work.n + 1) (s.storeByte (s.work.ptr + s.work.n) 0x80)

/-! ## CBC_ENC -/

/-- The state with another block offset. -/
def State.setOff (s : State) (off : Nat) : State :=
  { s with work := { s.work with off := off } }

/-- The state with another previous block. -/
def State.setPrev (s : State) (b : Block) : State :=
  { s with work := { s.work with prev := b } }

/-- The state with another saved ciphertext block. -/
def State.setSave (s : State) (b : Block) : State :=
  { s with work := { s.work with save := b } }

/-- `BLK <- MemRead(PTR + OFF, 16)` (R183, R185). -/
def loadBlock (c : Cfg) (s : State) : Run :=
  (reach c .read (s.work.ptr + s.work.off) 16 s).bind fun s =>
    .go (s.setBlk (s.mem.readBlock (s.work.ptr + s.work.off)))

/-- `MemWrite(PTR + OFF, 16, BLK)` (R183, R185). -/
def storeBlock (c : Cfg) (s : State) : Run :=
  (reach c .write (s.work.ptr + s.work.off) 16 s).bind fun s =>
    .go (s.storeBlock (s.work.ptr + s.work.off) s.work.blk)

/-- The statements of R183 before ENCBLK: load the block, `BLK ^= PREV`. -/
def encLoad (c : Cfg) (s : State) : Run :=
  (loadBlock c s).bind fun s => .go (s.setBlk (xorBlock s.work.blk s.work.prev))

/-- The statements of R183 after ENCBLK: store the block, `PREV <- BLK`. -/
def encStore (c : Cfg) (s : State) : Run :=
  (storeBlock c s).bind fun s => .go (s.setPrev s.work.blk)

/-- One pass of the loop of R183, at offset OFF. -/
def encStep (c : Cfg) (s : State) : Run :=
  ((encLoad c s).bind fun s => .go (phaseEncblk s)).bind (encStore c)

/-- The first `count` passes of the loop of R183: offsets 0, 16, .., ascending. -/
def encLoop (c : Cfg) : Nat → State → Run
  | 0, s => .go s
  | b + 1, s => (encLoop c b s).bind fun s => encStep c (s.setOff (16 * b))

/-- CBC_ENC: chain and encrypt all `PADDED / 16` blocks (R183). -/
def phaseCbcEnc (c : Cfg) (s : State) : Run :=
  encLoop c (s.work.padded / 16) s

/-! ## CBC_DEC -/

/-- The statements of R185 before DECBLK: load the block, `SAVE <- BLK`. -/
def decLoad (c : Cfg) (s : State) : Run :=
  (loadBlock c s).bind fun s => .go (s.setSave s.work.blk)

/-- The statements of R185 after DECBLK: `BLK ^= PREV`, store the block, `PREV <- SAVE`. -/
def decStore (c : Cfg) (s : State) : Run :=
  (storeBlock c (s.setBlk (xorBlock s.work.blk s.work.prev))).bind fun s => .go (s.setPrev s.work.save)

/-- One pass of the loop of R185, at offset OFF. -/
def decStep (c : Cfg) (s : State) : Run :=
  ((decLoad c s).bind fun s => .go (phaseDecblk s)).bind (decStore c)

/-- The first `count` passes of the loop of R185: offsets 0, 16, .., ascending. -/
def decLoop (c : Cfg) : Nat → State → Run
  | 0, s => .go s
  | b + 1, s => (decLoop c b s).bind fun s => decStep c (s.setOff (16 * b))

/-- CBC_DEC: decrypt and unchain all `N / 16` blocks (R185). -/
def phaseCbcDec (c : Cfg) (s : State) : Run :=
  decLoop c (s.work.n / 16) s

/-! ## UNPAD -/

/-- The state with another RESULT. -/
def State.setResult (s : State) (r : Nat) : State :=
  { s with result := r }

/-- The scan of R186 over the offsets below `count`, from the highest down to the first that holds 0x80. -/
def unpadScan (c : Cfg) : Nat → State → Run
  | 0, s => .go s
  | idx + 1, s =>
    (reach c .read (s.work.ptr + idx) 1 s).bind fun s =>
      if s.mem.read (s.work.ptr + idx) = 0x80 then .go ((s.setIdx idx).setResult idx)
      else unpadScan c idx (s.setIdx idx)

/-- UNPAD: `RESULT <- N`, then the backward scan (R186). -/
def phaseUnpad (c : Cfg) (s : State) : Run :=
  unpadScan c s.work.n (s.setResult s.work.n)

/-! ## The meanings -/

/-- `PAD` (R182). -/
def execPad (s : State) : Host.Outcome State Fault Refusal :=
  (phasePad s.cfg s).settle s.cfg s.work.padded

/-- `CBC_ENC` (R183). -/
def execCbcEnc (s : State) : Host.Outcome State Fault Refusal :=
  (phaseCbcEnc s.cfg s).settle s.cfg s.work.padded

/-- `CBC_DEC` (R185). -/
def execCbcDec (s : State) : Host.Outcome State Fault Refusal :=
  (phaseCbcDec s.cfg s).settle s.cfg s.work.n

/-- `UNPAD` (R186). -/
def execUnpad (s : State) : Host.Outcome State Fault Refusal :=
  (phaseUnpad s.cfg s).settle s.cfg s.work.n

end Sys2Proof.Machine
end

