-- ==== Sys2Proof/Machine/KeyScheduler.lean ====
section
/-! DEFINITION. Machine/KeyScheduler.lean: the five phases of the key schedule (spec/40_key_scheduler.md). Each reads KEYC
or the generator state G, writes the register files its rule names, and touches nothing else; none can fail (R134). -/

namespace Sys2Proof.Machine

/-! ## KS_SEED -/

/-- The two seed words, `w0` from key bytes 0..7 and `w1` from bytes 8..15 (R121). -/
def seedWords (e : SeedEndian) (k : Key) : BitVec 64 × BitVec 64 :=
  match e with
  | .le => (le64 (keyWord k 0), le64 (keyWord k 8))
  | .be => (be64 (keyWord k 0), be64 (keyWord k 8))

/-- The 32-bit seed folded from the two words (R122). -/
def foldSeed (m : SeedFold) (w0 w1 : BitVec 64) : BitVec 32 :=
  let f := w0 ^^^ w1
  match m with
  | .foldHiLo => f.extractLsb' 32 32 ^^^ f.extractLsb' 0 32
  | .truncLow => f.extractLsb' 0 32

/-- The seed of a key (R121, R122). -/
def seedOf (c : Cfg) (k : Key) : BitVec 32 :=
  foldSeed c.seedFold (seedWords c.seedEndian k).1 (seedWords c.seedEndian k).2

/-- KS_SEED: `G <- prng_seed(seed)` (R123). -/
def ksSeed (c : Cfg) (s : State) : State :=
  { s with work := { s.work with g := c.prng.seed (seedOf c s.work.keyc) } }

/-! ## KS_SBOX and KS_SHIFT -/

/-- The table whose entry `x` is `P[x]` (R124, R126). -/
def tableOfPerm (w : Nat) (p : Equiv.Perm (Fin (2 ^ w))) : Table w :=
  Vector.ofFn fun x => BitVec.ofFin (p x)

/-- `for x = 0 .. 2^w - 1: INV[T[x]] <- x`, over the old contents of INV (R125, R127). -/
def invertTable {w : Nat} (t old : Table w) : Table w :=
  Nat.fold (2 ^ w) (fun x _ (inv : Table w) => inv.set t[x].toNat (BitVec.ofNat w x) t[x].isLt) old

/-- KS_SBOX: shuffle 0..255 into SBOX, invert it into INV_SBOX, carry G on (R124, R125). -/
def ksSbox (c : Cfg) (s : State) : State :=
  let r := c.prng.shuffle (2 ^ 8) s.work.g
  let t := tableOfPerm 8 r.1
  { s with
    ds := { s.ds with sbox := t, invSbox := invertTable t s.ds.invSbox }
    work := { s.work with g := r.2 } }

/-- KS_SHIFT: shuffle 0..15 into SHIFT, invert it into INV_SHIFT, carry G on (R126, R127). -/
def ksShift (c : Cfg) (s : State) : State :=
  let r := c.prng.shuffle (2 ^ 4) s.work.g
  let t := tableOfPerm 4 r.1
  { s with
    ds := { s.ds with shift := t, invShift := invertTable t s.ds.invShift }
    work := { s.work with g := r.2 } }

/-! ## KS_MIXC -/

/-- `(w mod 255) | 1` for a raw output `w`, a natural number (R128). -/
def mixConstant (w : Nat) : Byte :=
  BitVec.ofNat 8 (w % 255) ||| 1

/-- KS_MIXC: one raw output reduced to an odd byte (R128). -/
def ksMixc (c : Cfg) (s : State) : State :=
  let r := c.prng.next s.work.g
  { s with
    ds := { s.ds with mixc := mixConstant r.1.toNat }
    work := { s.work with g := r.2 } }

/-! ## KS_RKEYS -/

/-- The key index `kidx(r, i)` (R131). -/
def kidx (m : RkIndexMode) (r i : Nat) : Fin 32 :=
  match m with
  | .localIndex => Fin.ofNat 32 i
  | .runningIndex => Fin.ofNat 32 (16 * r + i)

/-- One round key: 16 byte draws, byte-minor (R130). -/
def roundKey (c : Cfg) (k : Key) (r : Nat) (g : Nat) (old : Block) : Block × Nat :=
  Nat.fold 16
    (fun i _ (acc : Block × Nat) =>
      let d := c.prng.nextByte acc.2
      (acc.1.set i (k[kidx c.rkIndexMode r i] ^^^ d.1), d.2))
    (old, g)

/-- The eight round keys: 128 byte draws, round-major (R130). -/
def roundKeys (c : Cfg) (k : Key) (g : Nat) (old : RoundKeys) : RoundKeys × Nat :=
  Nat.fold 8
    (fun r _ (acc : RoundKeys × Nat) =>
      let x := roundKey c k r acc.2 acc.1[r]
      (acc.1.set r x.1, x.2))
    (old, g)

/-- KS_RKEYS: 128 byte draws XOR key bytes (R130); the loop index is left at its last value, 15 (R39). -/
def ksRkeys (c : Cfg) (s : State) : State :=
  let r := roundKeys c s.work.keyc s.work.g s.ds.rk
  { s with
    ds := { s.ds with rk := r.1 }
    work := { s.work with g := r.2, idx := 15 } }

/-- The whole key schedule, in the one order of R120. -/
def keySchedule (c : Cfg) (s : State) : State :=
  ksRkeys c (ksMixc c (ksShift c (ksSbox c (ksSeed c s))))

/-! ## The meanings -/

/-- `KS_SEED` (R121 to R123). -/
def execKsSeed (s : State) : Host.Outcome State Fault Refusal :=
  .next (ksSeed s.cfg s)

/-- `KS_SBOX` (R124, R125). -/
def execKsSbox (s : State) : Host.Outcome State Fault Refusal :=
  .next (ksSbox s.cfg s)

/-- `KS_SHIFT` (R126, R127). -/
def execKsShift (s : State) : Host.Outcome State Fault Refusal :=
  .next (ksShift s.cfg s)

/-- `KS_MIXC` (R128). -/
def execKsMixc (s : State) : Host.Outcome State Fault Refusal :=
  .next (ksMixc s.cfg s)

/-- `KS_RKEYS` (R130, R131). -/
def execKsRkeys (s : State) : Host.Outcome State Fault Refusal :=
  .next (ksRkeys s.cfg s)

end Sys2Proof.Machine
end

