-- ==== Sys2Proof/Machine/Commands.lean ====
section
/-! DEFINITION. Machine/Commands.lean: the four host commands and the reserved command words
(spec/43_boundary_commands.md), and the idle phase. The checks are made in the order of R251. At the pace `atomic` a
command runs to its end (R219); at the others its meaning ends where its first phase begins, and Sequencer.lean takes it
from there, to the same end. -/

namespace Sys2Proof.Machine

/-! ## The last steps of the commands with phases -/

/-- The end of a successful KSCHED: `KEYED <- 1; RESULT <- 0; complete` (R211). -/
def endKsched (c : Cfg) (s : State) : State :=
  ({ s with status := s.status.setKeyed, result := 0 } : State).complete.retire c

/-- The end of a successful ENCRYPT: `RESULT <- PADDED; complete` (R184, R213); RESULT and the buffer are lost to a host
that broke its duty (R71). -/
def endEncrypt (c : Cfg) (s : State) : State :=
  ((s.setResult s.work.padded).loseIfTrespassed c).complete.retire c

/-- The end of a successful DECRYPT, whose RESULT the scan has written: `complete` (R186, R214); RESULT and the buffer are
lost to a host that broke its duty (R71). -/
def endDecrypt (c : Cfg) (s : State) : State :=
  (s.loseIfTrespassed c).complete.retire c

/-- A command with phases refused before its first phase (R243). -/
def refuseCommand (c : Cfg) (code : CC) (s : State) : State :=
  (s.refuse code).retire c

/-! ## The checks of ENCRYPT and DECRYPT -/

/-- The padded length of `n` does not fit `LENW` bits (R213, R248). -/
abbrev paddedOverflows (c : Cfg) (n : Nat) : Prop :=
  2 ^ c.lenw ≤ paddedLength n

/-- A length DECRYPT refuses: 0, or not a multiple of 16 (R214, R247). -/
abbrev badCipherLength (n : Nat) : Prop :=
  n = 0 ∨ n % 16 ≠ 0

/-! ## KSCHED -/

/-- KSCHED (R210, R211, R212). -/
def kschedCommand (c : Cfg) (s : State) : State :=
  if s.status.busy then s.dropCommand
  else if s.status.keyed then refuseCommand c .eKeyed (s.accept .ksched)
  else
    match s.pace with
    | .atomic => endKsched c (keySchedule c (s.accept .ksched))
    | .phases => s.accept .ksched
    | .micro => s.accept .ksched

/-! ## ENCRYPT -/

/-- ENCRYPT past its checks: `PADDED <- (floor(N/16) + 1) * 16` (R181, R213). -/
def launchEncrypt (s : State) : State :=
  { s with work := { s.work with padded := paddedLength s.work.n } }

/-- The phases of ENCRYPT in their one order (R40, R213). -/
def runEncrypt (c : Cfg) (s : State) : Run :=
  (phasePad c s).bind (phaseCbcEnc c)

/-- ENCRYPT (R210, R213). -/
def encryptCommand (c : Cfg) (s : State) : Host.Outcome State Fault Refusal :=
  if s.status.busy then .next s.dropCommand
  else if s.status.keyed = false then .next (refuseCommand c .eNokey (s.accept .encrypt))
  else if paddedOverflows c s.len then .next (refuseCommand c .eLen (s.accept .encrypt))
  else
    match s.pace with
    | .atomic =>
      ((runEncrypt c (launchEncrypt (s.accept .encrypt))).bind fun s => .go (endEncrypt c s)).settle c
        (paddedLength s.len)
    | .phases => .next (launchEncrypt (s.accept .encrypt))
    | .micro => .next (launchEncrypt (s.accept .encrypt))

/-! ## DECRYPT -/

/-- The phases of DECRYPT in their one order (R40, R214). -/
def runDecrypt (c : Cfg) (s : State) : Run :=
  (phaseCbcDec c s).bind (phaseUnpad c)

/-- DECRYPT (R210, R214). Where CBC_DEC is entered block by block, its first offset is 0 (R185). -/
def decryptCommand (c : Cfg) (s : State) : Host.Outcome State Fault Refusal :=
  if s.status.busy then .next s.dropCommand
  else if s.status.keyed = false then .next (refuseCommand c .eNokey (s.accept .decrypt))
  else if badCipherLength s.len then .next (refuseCommand c .eLen (s.accept .decrypt))
  else
    match s.pace with
    | .atomic =>
      ((runDecrypt c (s.accept .decrypt)).bind fun s => .go (endDecrypt c s)).settle c s.len
    | .phases => .next (s.accept .decrypt)
    | .micro => .next ((s.accept .decrypt).setOff 0)

/-! ## RELEASE and the reserved words -/

/-- What RELEASE leaves in the register files of the key context: unspecified contents where it empties a context that
was keyed (R215, R27; log entry 10), nothing new where the context was empty. -/
def State.emptyContext (s : State) : State :=
  if s.status.keyed then { s with ds := DerivedState.unspecified s.draws, draws := s.draws + 1 } else s

/-- RELEASE: `KEYED <- 0; RESULT <- 0; complete`, one step at every pace (R40, R215). -/
def releaseCommand (s : State) : State :=
  if s.status.busy then s.dropCommand
  else
    let t := s.acceptPlain.emptyContext
    ({ t with status := t.status.clearKeyed, result := 0 } : State).complete

/-- A reserved word: refused at once with `E_CMD`, nothing sampled (R93, R244). -/
def reservedCommand (s : State) : State :=
  if s.status.busy then s.dropCommand else s.acceptPlain.refuse .eCmd

/-! ## The meanings -/

/-- `KSCHED` (R211). -/
def execKsched (s : State) : Host.Outcome State Fault Refusal :=
  .next (kschedCommand s.cfg s)

/-- `ENCRYPT` (R213). -/
def execEncrypt (s : State) : Host.Outcome State Fault Refusal :=
  encryptCommand s.cfg s

/-- `DECRYPT` (R214). -/
def execDecrypt (s : State) : Host.Outcome State Fault Refusal :=
  decryptCommand s.cfg s

/-- `RELEASE` (R215). -/
def execRelease (s : State) : Host.Outcome State Fault Refusal :=
  .next (releaseCommand s)

/-- `RESERVED` (R93, R244): the word itself has no effect. -/
def execReserved (_word : Byte) (s : State) : Host.Outcome State Fault Refusal :=
  .next (reservedCommand s)

/-- `IDLE`: no command in progress, nothing to do (R95, R210, R257). -/
def execIdle (s : State) : Host.Outcome State Fault Refusal :=
  .next s

end Sys2Proof.Machine
end

