-- ==== Sys2Proof/Machine/HostPort.lean ====
section
/-! DEFINITION. Machine/HostPort.lean: the host's moves (R28 to R35, R94, R96), the two output signals (R253), and the
functions of the API as sequences of host moves (R97). -/

namespace Sys2Proof.Machine

/-! ## The host and the data space -/

/-- One of the `n` addresses from `a` is one that the command in progress bars the host from (R71, R280, H8). -/
abbrev meetsBuffer (s : State) (a n : Nat) : Prop :=
  s.status.busy = true ∧ ∃ w ∈ s.window.toList, w.meets a n

/-- One of the `n` addresses from `a` is one that an ended command still bars the host from, because the host has not yet
read `BUSY` as 0: R71 and R280 end the exclusion there, and H8 and U15, which say `BUSY = 1`, where BUSY falls. The model
follows R71 (DESIGN CHOICE, log entry 25). -/
abbrev meetsUnseen (s : State) (a n : Nat) : Prop :=
  ∃ w ∈ s.unseen, w.meets a n

/-- A host access to `n` bytes of the data space at `a`, where `t` is the state once it is made (R67, R96; log entry 16).
It is made whether BUSY is 0 or 1: that R96 has such lines only while BUSY = 0, and R71 and H8 bar the host from the
buffer alone, leaves open what a host access to other addresses does while BUSY = 1, and the model lets it be an ordinary
one (DESIGN CHOICE, log entry 24). -/
def hostAccess (c : Cfg) (dir : Dir) (a n : Nat) (s t : State) : Host.Outcome State Fault Refusal :=
  match accessRange c s.map dir a n with
  | .admitted => .next t
  | .bus => .fault (.hostAccess a)
  | .device addr => .refused (.hostDevice addr)

/-- What an access to `n` addresses from `a` costs a host that has not observed the end of a command it is barred by:
RESULT and the buffer of that command (R71, R72; log entry 25). RESULT is drawn also where a later command has ended since
and RESULT holds that command's value, such as the 0 of RELEASE or KSCHED (R35): R71 does not say whose RESULT is lost then
(DESIGN CHOICE, log entry 26). -/
def State.loseUnseen (c : Cfg) (a n : Nat) (s : State) : State :=
  s.unseen.foldl (fun s w => if w.meets a n then s.loseRange c w.base w.buffer else s) s

/-- The host has written `bytes` at `a`; the model records whether that broke its duty H8 towards the command in progress
(R71; U15; log entry 15), and makes it pay for a broken duty towards an ended one (log entry 25). -/
def State.hostWrite (c : Cfg) (s : State) (a : Nat) (bytes : List Byte) : State :=
  ({ s with
    mem := s.mem.writeBytes a bytes
    trespass := s.trespass || decide (meetsBuffer s a bytes.length) } : State).loseUnseen c a bytes.length

/-- What the host reads at the `n` addresses from `a`: the bytes of memory (R67), but unspecified ones where a command bars
it from reading (R71; U15; log entries 15 and 25). -/
def State.hostBytes (s : State) (a n : Nat) : List Byte :=
  (s.mem.readBytes a n).mapIdx fun k v =>
    if meetsBuffer s (a + k) 1 ∨ meetsUnseen s (a + k) 1 then BitVec.ofNat 8 (Config.free .hostRead s.draws k) else v

/-- The host has read `n` bytes at `a`; the model records whether that broke its duty H8 towards the command in progress
(R71; U15; log entry 15), and makes it pay for a broken duty towards an ended one (log entry 25). -/
def State.hostRead (c : Cfg) (s : State) (a n : Nat) : State :=
  ({ s with
    rdata := some (.bytes (s.hostBytes a n))
    trespass := s.trespass || decide (meetsBuffer s a n)
    draws := if meetsBuffer s a n ∨ meetsUnseen s a n then s.draws + 1 else s.draws } : State).loseUnseen c a n

/-! ## The moves -/

/-- The host has read register `r`: the model records the value (log entry 21), and whether STATUS showed it the end of the
last command (R71). -/
def State.hostReadReg (s : State) (r : Reg) : State :=
  let t : State := { s with rdata := some (s.readReg r) }
  if r = .status then t.observe else t

/-- A host move other than a CMD write or WAIT, which Step.lean runs. -/
def hostMove (c : Cfg) (m : HostMove) (s : State) : Host.Outcome State Fault Refusal :=
  match m with
  | .wrCmd _ => .next s
  | .wrStatus _ => .next s
  | .wrKey v => .next (s.writeKey v)
  | .wrIv v => .next (s.writeIv v)
  | .wrDataPtr v => .next (s.writeDataPtr c v)
  | .wrLen v => .next (s.writeLen c v)
  | .wrResult _ => .next s
  | .wrAbsent _ _ => .next s
  | .rd r => .next (s.hostReadReg r)
  | .wait => .next s
  | .memWrite a bytes =>
    hostAccess c .write a bytes.length s (s.hostWrite c a bytes)
  | .memRead a n =>
    hostAccess c .read a n s (s.hostRead c a n)
  | .rst => .next (s.assertReset c)

/-- A host move as an access to the register file: the register's number, and whether it is a write (R96). -/
def HostMove.access : HostMove → Option (Nat × Dir)
  | .wrCmd _ => some (Reg.number .cmd, .write)
  | .wrStatus _ => some (Reg.number .status, .write)
  | .wrKey _ => some (Reg.number .key, .write)
  | .wrIv _ => some (Reg.number .iv, .write)
  | .wrDataPtr _ => some (Reg.number .dataPtr, .write)
  | .wrLen _ => some (Reg.number .len, .write)
  | .wrResult _ => some (Reg.number .result, .write)
  | .wrAbsent k _ => some (Reg.number (.absent k), .write)
  | .rd r => some (r.number, .read)
  | .wait => some (Reg.number .status, .read)
  | .memWrite _ _ => none
  | .memRead _ _ => none
  | .rst => none

/-- The level output `busy` (R253). -/
def State.busyOut (s : State) : Bool :=
  s.status.busy

/-- The level output `done` (R253). -/
def State.doneOut (s : State) : Bool :=
  s.status.done

/-! ## The functions of the API (R97, R217) -/

/-- `CREATE key`. -/
def apiCreate (key : Key) : List HostMove :=
  [.wrKey key, .wrCmd 0x01, .wait, .rd .status]

/-- `ENC ptr, len, iv`. -/
def apiEncrypt (ptr len : Nat) (iv : Block) : List HostMove :=
  [.wrIv iv, .wrDataPtr ptr, .wrLen len, .wrCmd 0x02, .wait, .rd .status, .rd .result]

/-- `DEC ptr, len, iv`. -/
def apiDecrypt (ptr len : Nat) (iv : Block) : List HostMove :=
  [.wrIv iv, .wrDataPtr ptr, .wrLen len, .wrCmd 0x03, .wait, .rd .status, .rd .result]

/-- `DELETE`. -/
def apiDelete : List HostMove :=
  [.wrCmd 0x04, .wait]

/-- What `CreateAEMS` returns once `CREATE` has run: `some true` a non-null handle, `some false` the null handle of
"allocation failure" (R97, R212). -/
def apiHandle : CC → Option Bool
  | .ok => some true
  | .eKeyed => some false
  | .eCmd => none
  | .eNokey => none
  | .eLen => none
  | .eBus => none

/-- What `Encrypt` and `Decrypt` return once their sequence has run: RESULT when `CC = 0` (R97, R217). -/
def apiSize (s : State) : Option Nat :=
  if s.status.cc = .ok then some s.result else none

end Sys2Proof.Machine
end

