-- ==== Sys2Proof/Machine/Sequencer.lean ====
section
/-! DEFINITION. Machine/Sequencer.lean: the sequencing state, the core's analog of a program counter (R40): where the
engine goes when a phase has run (`advance`), and, at the pace `micro`, how a phase made of other phases is entered
(`enter`). -/

namespace Sys2Proof.Machine

/-- The state with another PHASE. -/
def State.setPhase (s : State) (p : Phase) : State :=
  { s with phase := p }

/-- The phases made of other phases (R40). -/
def isComposite : Phase → Bool
  | .cbcEnc | .cbcDec | .encblk | .decblk => true
  | .idle | .ksSeed | .ksSbox | .ksShift | .ksMixc | .ksRkeys => false
  | .sub | .shiftr | .mix | .ark | .isub | .ishiftr | .imix | .pad | .unpad => false

/-- ENCBLK is over: the rest of this pass of CBC_ENC, then the next block or the end of ENCRYPT (R183, R184). -/
def afterEncBlock (c : Cfg) (s : State) : Host.Outcome State Fault Refusal :=
  ((encStore c s).bind fun s =>
    if s.work.off + 16 < s.work.padded then .go ((s.setOff (s.work.off + 16)).setPhase .cbcEnc)
    else .go (endEncrypt c s)).settle c s.work.padded

/-- DECBLK is over: the rest of this pass of CBC_DEC, then the next block or UNPAD (R185, R186). -/
def afterDecBlock (c : Cfg) (s : State) : Host.Outcome State Fault Refusal :=
  ((decStore c s).bind fun s =>
    if s.work.off + 16 < s.work.n then .go ((s.setOff (s.work.off + 16)).setPhase .cbcDec)
    else .go (s.setPhase .unpad)).settle c s.work.n

/-- ARK is over: the end of a forward round, or the start of an inverse round when DECRYPT is in progress (R159, R161). -/
def afterArk (c : Cfg) (s : State) : Host.Outcome State Fault Refusal :=
  if s.cmd = some .decrypt then .next (s.setPhase .imix)
  else if s.work.rnd = 7 then afterEncBlock c s
  else .next ((s.setRnd (s.work.rnd + 1)).setPhase .sub)

/-- ISUB is over: the end of an inverse round (R161). -/
def afterIsub (c : Cfg) (s : State) : Host.Outcome State Fault Refusal :=
  if s.work.rnd = 0 then afterDecBlock c s
  else .next ((s.setRnd (s.work.rnd - 1)).setPhase .ark)

/-- Where the engine goes when phase `p` has run: the sequences of R40. -/
def advance (c : Cfg) (p : Phase) (s : State) : Host.Outcome State Fault Refusal :=
  match p with
  | .idle => .next s
  | .ksSeed => .next (s.setPhase .ksSbox)
  | .ksSbox => .next (s.setPhase .ksShift)
  | .ksShift => .next (s.setPhase .ksMixc)
  | .ksMixc => .next (s.setPhase .ksRkeys)
  | .ksRkeys => .next (endKsched c s)
  | .sub => .next (s.setPhase .shiftr)
  | .shiftr => .next (s.setPhase .mix)
  | .mix => .next (s.setPhase .ark)
  | .ark => afterArk c s
  | .imix => .next (s.setPhase .ishiftr)
  | .ishiftr => .next (s.setPhase .isub)
  | .isub => afterIsub c s
  | .encblk => afterEncBlock c s
  | .decblk => afterDecBlock c s
  | .pad => .next ((s.setOff 0).setPhase .cbcEnc)
  | .cbcEnc => .next (endEncrypt c s)
  | .cbcDec => .next (s.setPhase .unpad)
  | .unpad => .next (endDecrypt c s)

/-- Entering a composite phase: CBC_ENC and CBC_DEC load the block at OFF and go on to the block operation (R183, R185);
ENCBLK starts at round 0 with SUB (R159), DECBLK at round 7 with ARK (R161). The other phases are not composite, and
nothing is entered. -/
def enter (c : Cfg) (s : State) : Host.Outcome State Fault Refusal :=
  match s.phase with
  | .cbcEnc => ((encLoad c s).bind fun s => .go (s.setPhase .encblk)).settle c s.work.padded
  | .cbcDec => ((decLoad c s).bind fun s => .go (s.setPhase .decblk)).settle c s.work.n
  | .encblk => .next ((s.setRnd 0).setPhase .sub)
  | .decblk => .next ((s.setRnd 7).setPhase .ark)
  | .idle | .ksSeed | .ksSbox | .ksShift | .ksMixc | .ksRkeys => .next s
  | .sub | .shiftr | .mix | .ark | .isub | .ishiftr | .imix | .pad | .unpad => .next s

/-- A phase has run with outcome `o`: the engine moves on if the command is still in progress. -/
def proceed (c : Cfg) (p : Phase) (o : Host.Outcome State Fault Refusal) : Host.Outcome State Fault Refusal :=
  match o with
  | .next s => if s.phase = .idle then .next s else advance c p s
  | .fault r => .fault r
  | .refused r => .refused r

end Sys2Proof.Machine
end

