-- ==== Sys2Proof/Machine/Dispatch.lean ====
section
/-! DEFINITION. Machine/Dispatch.lean: the meaning of each operation of spec/opcode_table.json. -/

namespace Sys2Proof.Machine

def exec (i : Instr) (s : State) : Host.Outcome State Fault Refusal :=
  match i with
  | .ksched => Sys2Proof.Machine.execKsched s
  | .encrypt => Sys2Proof.Machine.execEncrypt s
  | .decrypt => Sys2Proof.Machine.execDecrypt s
  | .release => Sys2Proof.Machine.execRelease s
  | .idle => Sys2Proof.Machine.execIdle s
  | .ksSeed => Sys2Proof.Machine.execKsSeed s
  | .ksSbox => Sys2Proof.Machine.execKsSbox s
  | .ksShift => Sys2Proof.Machine.execKsShift s
  | .ksMixc => Sys2Proof.Machine.execKsMixc s
  | .ksRkeys => Sys2Proof.Machine.execKsRkeys s
  | .sub => Sys2Proof.Machine.execSub s
  | .shiftr => Sys2Proof.Machine.execShiftr s
  | .mix => Sys2Proof.Machine.execMix s
  | .ark => Sys2Proof.Machine.execArk s
  | .isub => Sys2Proof.Machine.execIsub s
  | .ishiftr => Sys2Proof.Machine.execIshiftr s
  | .imix => Sys2Proof.Machine.execImix s
  | .encblk => Sys2Proof.Machine.execEncblk s
  | .decblk => Sys2Proof.Machine.execDecblk s
  | .pad => Sys2Proof.Machine.execPad s
  | .cbcEnc => Sys2Proof.Machine.execCbcEnc s
  | .cbcDec => Sys2Proof.Machine.execCbcDec s
  | .unpad => Sys2Proof.Machine.execUnpad s
  | .reserved word => Sys2Proof.Machine.execReserved word s

end Sys2Proof.Machine
end

