-- ==== Sys2Proof/Machine/Engine.lean ====
section
/-! DEFINITION. Machine/Engine.lean: what one move of the engine and one move of the host do (R40, R96, R210, R219; log
entry 12). -/

namespace Sys2Proof.Machine

/-- One move of the engine: the phase that PHASE names is run, and the engine moves on (R40). At the pace `micro` a
composite phase is entered. -/
def engineStep (s : State) : Host.Outcome State Fault Refusal :=
  if s.pace = .micro ∧ isComposite s.phase = true then enter s.cfg s
  else proceed s.cfg s.phase (exec s.phase.instr s)

/-- One move of the host: a write to CMD runs the command the word decodes to (R29, R210); WAIT reads STATUS and, while
BUSY reads 1, stays the next move and lets the engine run (R96). -/
def hostStep (m : HostMove) (s : State) : Host.Outcome State Fault Refusal :=
  match m with
  | .wrCmd word => exec (decodeCmd word) s
  | .wait =>
    if s.status.busy then engineStep { s.hostReadReg .status with turns := .host .wait :: s.turns }
    else .next (s.hostReadReg .status)
  | m => hostMove s.cfg m s

end Sys2Proof.Machine
end

