-- ==== Sys2Proof/Machine/Step.lean ====
section
/-! DEFINITION. Machine/Step.lean: one step of the machine: the next move of the host, or one move of the engine (R40,
R210, R219; log entries 11 and 12). -/

namespace Sys2Proof.Machine

/-- One step of the machine. When no move is listed, the engine moves: "a busy engine eventually takes its next step"
(R291). -/
def step (s : State) : Host.Outcome State Fault Refusal :=
  match s.turns with
  | [] => engineStep s
  | .engine :: rest => engineStep { s with turns := rest }
  | .host m :: rest => hostStep m { s with turns := rest }

/-- `s` with the code word `w` where the next step takes its operation from. The core fetches nothing (R40): an 8-bit
word is the value of a pending host write to CMD (R29); a 5-bit one is the PHASE of an engine about to move. -/
def State.withFetchWord (s : State) (nbits w : Nat) : State :=
  if nbits = 5 then
    match decodePhase (BitVec.ofNat 5 w) with
    | .ok p => { s with phase := p, turns := .engine :: s.turns }
    | .error _ => s
  else { s with turns := .host (.wrCmd (BitVec.ofNat 8 w)) :: s.turns }

end Sys2Proof.Machine
end

