-- ==== Sys2Proof/Safety.lean ====
section
/-! DEFINITION. Safety.lean: what the statements about the machine are made of: the invariant every step keeps, the
conditions under which a phase completes, and what one state shares with another. -/

namespace Sys2Proof.Machine

/-! ## The key context -/

/-- `inv` undoes `t`: `INV[T[x]] = x` for every `x` (R20). -/
def Inverts {w : Nat} (inv t : Table w) : Prop :=
  ∀ x : BitVec w, lookup inv (lookup t x) = x

/-- The two tables of DerivedState are permutations with their true inverses: the properties of R20 that R162 needs. -/
structure DerivedState.TablesOk (d : DerivedState) : Prop where
  sbox : Inverts d.invSbox d.sbox
  shift : Inverts d.invShift d.shift

/-- All the properties of R20: the tables, and an odd MIXC. -/
structure DerivedState.Valid (d : DerivedState) : Prop where
  sbox : Inverts d.invSbox d.sbox
  shift : Inverts d.invShift d.shift
  mixc : d.mixc.getLsbD 0 = true

/-- `b` after `k` byte draws: the generator state (R130). -/
def streamState (c : Cfg) (g : Nat) : Nat → Nat
  | 0 => g
  | k + 1 => (c.prng.nextByte (streamState c g k)).2

/-- The `k`-th byte drawn from generator state `g` (R130). -/
def streamByte (c : Cfg) (g k : Nat) : Byte :=
  (c.prng.nextByte (streamState c g k)).1

/-- `LE32` of four key bytes from byte `start` (R122). -/
def le32 (k : Key) (start : Fin 13) : BitVec 32 :=
  BitVec.ofNat 32 (k[start.val].toNat + 256 * k[start.val + 1].toNat + 65536 * k[start.val + 2].toNat
    + 16777216 * k[start.val + 3].toNat)

/-- `BE32` of four key bytes from byte `start` (R122). -/
def be32 (k : Key) (start : Fin 13) : BitVec 32 :=
  BitVec.ofNat 32 (16777216 * k[start.val].toNat + 65536 * k[start.val + 1].toNat + 256 * k[start.val + 2].toNat
    + k[start.val + 3].toNat)

/-! ## The buffer -/

/-- The `n` addresses from `a` are ordinary memory that the platform lets the engine read and write (R67, R68). -/
def Ram (c : Cfg) (map : List Region) (a n : Nat) : Prop :=
  ∀ k, k < n → accessByte c map .write (a + k) = .admitted

/-- No address of the `n` from `a` is a device (R67, H10). -/
def NoDevice (c : Cfg) (map : List Region) (a n : Nat) : Prop :=
  ∀ k, k < n → accessByte c map .write (a + k) ≠ .device (a + k)

/-- Address `x` is outside the `n` addresses from `a`. -/
abbrev Outside (a n x : Nat) : Prop :=
  x < a ∨ a + n ≤ x

/-- Block `b` of the buffer at `ptr` (R62). -/
abbrev blockAt (m : Memory) (ptr b : Nat) : Block :=
  m.readBlock (ptr + 16 * b)

/-- The byte at offset `k` of the padded plaintext that ENCRYPT makes of the `n` bytes at `ptr`: the data, the marker
0x80, zeros (R182). -/
def paddedByte (m : Memory) (ptr n k : Nat) : Byte :=
  if k < n then m.read (ptr + k) else if k = n then 0x80 else 0x00

/-- Block `b` of that padded plaintext (R182, R183). -/
def paddedBlock (m : Memory) (ptr n b : Nat) : Block :=
  Vector.ofFn fun i => paddedByte m ptr n (16 * b + i)

/-- `r` is the index the backward scan of R186 returns for the `n` bytes at `ptr`. -/
def IsUnpadded (m : Memory) (ptr n r : Nat) : Prop :=
  (r < n ∧ m.read (ptr + r) = 0x80 ∧ ∀ k, r < k → k < n → m.read (ptr + k) ≠ 0x80) ∨
  (r = n ∧ ∀ k, k < n → m.read (ptr + k) ≠ 0x80)

/-! ## What two states share -/

/-- The operand registers the host writes (R31 to R34). -/
structure SameOperands (s t : State) : Prop where
  key : t.key = s.key
  iv : t.iv = s.iv
  dataPtr : t.dataPtr = s.dataPtr
  len : t.len = s.len

/-- The platform's address map (R68), the widths (R41), and of the model's own fields the moves to come, the last read and
the pace. -/
structure SameOutside (s t : State) : Prop where
  map : t.map = s.map
  widths : t.widths = s.widths
  turns : t.turns = s.turns
  rdata : t.rdata = s.rdata
  pace : t.pace = s.pace

/-- `t` is `s` after a command with phases was refused with `code` before its first phase (R243): STATUS says so, RESULT
is 0, the engine is idle with no record of a broken duty, the working registers are unspecified, the host has yet to
observe the end of a command that bars it (R71), and nothing else has changed. -/
def RefusedWith (code : CC) (cmd : Command) (s t : State) : Prop :=
  t = { s with
    status := { s.status with cc := code, fault := true, done := true, busy := false }
    result := 0
    work := t.work
    phase := .idle
    cmd := none
    trespass := false
    unseen := (windowOf cmd s.dataPtr s.len).toList ++ s.unseen
    draws := t.draws }

/-- `t` is `s` after a command that changed STATUS, RESULT, memory and working registers alone; the engine is idle, with no
record of a broken duty, and the host has yet to observe the end of a command that bars it (R71). -/
def EndedWith (status : Status) (cmd : Command) (s t : State) : Prop :=
  t = { s with
    status := status
    result := t.result
    mem := t.mem
    work := t.work
    phase := .idle
    cmd := none
    trespass := false
    unseen := (windowOf cmd s.dataPtr s.len).toList ++ s.unseen
    draws := t.draws }

/-- What ENCRYPT runs on (R213): an idle engine, a keyed context, a length whose padded length fits `LENW` bits. -/
structure EncryptReady (s : State) : Prop where
  busy : s.status.busy = false
  keyed : s.status.keyed = true
  fits : paddedLength s.len < 2 ^ s.cfg.lenw
  pace : s.pace = .atomic
  wf : s.mem.wf = true

/-- What DECRYPT runs on (R214): an idle engine, a keyed context, a length that is a positive multiple of 16. -/
structure DecryptReady (s : State) : Prop where
  busy : s.status.busy = false
  keyed : s.status.keyed = true
  positive : s.len ≠ 0
  multiple : s.len % 16 = 0
  pace : s.pace = .atomic
  wf : s.mem.wf = true

/-! ## The invariant -/

/-- Which command can be in progress while the engine is in a phase (R40). -/
def phaseFits : Phase → Option Command → Bool
  | .idle, none => true
  | .ksSeed, some .ksched => true
  | .ksSbox, some .ksched => true
  | .ksShift, some .ksched => true
  | .ksMixc, some .ksched => true
  | .ksRkeys, some .ksched => true
  | .pad, some .encrypt => true
  | .cbcEnc, some .encrypt => true
  | .encblk, some .encrypt => true
  | .sub, some .encrypt => true
  | .shiftr, some .encrypt => true
  | .mix, some .encrypt => true
  | .ark, some .encrypt => true
  | .ark, some .decrypt => true
  | .imix, some .decrypt => true
  | .ishiftr, some .decrypt => true
  | .isub, some .decrypt => true
  | .decblk, some .decrypt => true
  | .cbcDec, some .decrypt => true
  | .unpad, some .decrypt => true
  | _, _ => false

/-- The widths of the working registers (R37, R39). -/
structure Working.WidthsOk (c : Cfg) (w : Working) : Prop where
  ptr : w.ptr < 2 ^ c.aw
  n : w.n < 2 ^ c.lenw
  padded : w.padded < 2 ^ c.lenw
  off : w.off < 2 ^ c.lenw

/-- The invariant of the machine: memory is in its canonical form, every number fits its register at the widths of the
machine, the flags of STATUS and the sequencing state agree (R30, R40), only the buffer of a command in progress can have
been trespassed on (R71), a key context marked KEYED holds the properties of R20, and one that is being
built holds those its finished phases establish (R120). -/
structure State.Inv (s : State) : Prop where
  /-- The canonical form of memory. -/
  mem : s.mem.wf = true
  /-- The widths of the host registers (R28). -/
  dataPtr : s.dataPtr < 2 ^ s.cfg.aw
  len : s.len < 2 ^ s.cfg.lenw
  result : s.result < 2 ^ s.cfg.lenw
  /-- The widths of the working registers (R37, R39). -/
  work : s.work.WidthsOk s.cfg
  /-- `BUSY` is 1 exactly while a command is in progress (R30, R40). -/
  busy : s.status.busy = true ↔ s.phase ≠ .idle
  /-- PHASE is a phase of the command in progress (R40). -/
  fits : phaseFits s.phase s.cmd = true
  /-- `DONE` reads 0 while `BUSY = 1` (R30). -/
  done : s.status.busy = true → s.status.done = false
  /-- A non-zero completion code has set FAULT (R30, R250). -/
  fault : s.status.cc ≠ .ok → s.status.fault = true
  /-- KSCHED runs on an empty context (R211), ENCRYPT and DECRYPT on a keyed one (R213, R214). -/
  ksched : s.cmd = some .ksched → s.status.keyed = false
  encrypt : s.cmd = some .encrypt → s.status.keyed = true ∧ s.work.padded = paddedLength s.work.n
  decrypt : s.cmd = some .decrypt → s.status.keyed = true ∧ s.work.n ≠ 0 ∧ s.work.n % 16 = 0
  /-- KSCHED and an idle engine have no buffer to trespass on (R71, R280). -/
  trespass : s.trespass = true → s.cmd = some .encrypt ∨ s.cmd = some .decrypt
  /-- A keyed context has the properties of R20 (R20, R27). -/
  keyed : s.status.keyed = true → s.ds.Valid
  /-- What KS_SBOX, KS_SHIFT and KS_MIXC have established when the phases after them begin (R125, R127, R129). -/
  sboxBuilt : s.phase = .ksShift ∨ s.phase = .ksMixc ∨ s.phase = .ksRkeys → Inverts s.ds.invSbox s.ds.sbox
  shiftBuilt : s.phase = .ksMixc ∨ s.phase = .ksRkeys → Inverts s.ds.invShift s.ds.shift
  mixcBuilt : s.phase = .ksRkeys → s.ds.mixc.getLsbD 0 = true

/-! ## Runs of the engine -/

/-- `k` moves of the engine, with the host silent (R219, R291). -/
def engineRun : Nat → State → Host.Outcome State Fault Refusal
  | 0, s => .next s
  | k + 1, s =>
    match engineStep s with
    | .next t => engineRun k t
    | .fault r => .fault r
    | .refused r => .refused r

/-- What comes of `k` moves of the engine after an outcome. -/
def thenEngine (k : Nat) (o : Host.Outcome State Fault Refusal) : Host.Outcome State Fault Refusal :=
  match o with
  | .next s => engineRun k s
  | .fault r => .fault r
  | .refused r => .refused r

/-- An outcome with its next state changed by `f`. -/
def mapNext (f : State → State) (o : Host.Outcome State Fault Refusal) : Host.Outcome State Fault Refusal :=
  match o with
  | .next s => .next (f s)
  | .fault r => .fault r
  | .refused r => .refused r

/-- The state with another pace. -/
def State.setPace (s : State) (p : Pace) : State :=
  { s with pace := p }

end Sys2Proof.Machine
end

