-- ==== Sys2Proof/Certificates/Slice0/Obligations.lean ====
section
/-! DEFINITION. Certificates/Slice0/Obligations.lean: the statements about the machine. Each names the rule of spec/ it
formalises; one that rests on a choice of the model names the log entry. -/

open Sys2Proof Sys2Proof.Machine

/-! ## Encoding -/

/-- R91, R93, R95: every well-formed operation is what its code word decodes to; and whatever a code word decodes to is a
well-formed operation whose code is that word. -/
def Obligations.DecodeAndEncodeAgree : Prop :=
  (∀ i : Instr, WellFormed i → decodeWord (encode i) = .ok i) ∧
  (∀ (w : CodeWord) (i : Instr), decodeWord w = .ok i → WellFormed i ∧ encode i = w)

/-- R91, R93, R95: the words 0x01 to 0x04 written out from the table, matched on all 8 bits, and every other word reserved;
some phase ids written out from the table, and the thirteen unused ones, which decode to nothing, by name. -/
def Obligations.CodeWordsOfTheTables : Prop :=
  (∀ w : Byte,
    (decodeCmd w = .ksched ↔ w = 0b00000001) ∧ (decodeCmd w = .encrypt ↔ w = 0b00000010) ∧
    (decodeCmd w = .decrypt ↔ w = 0b00000011) ∧ (decodeCmd w = .release ↔ w = 0b00000100) ∧
    (decodeCmd w = .reserved w ↔ w ≠ 1 ∧ w ≠ 2 ∧ w ≠ 3 ∧ w ≠ 4)) ∧
  decodePhase 0b00000 = .ok .idle ∧ decodePhase 0b00101 = .ok .ksRkeys ∧ decodePhase 0b01011 = .ok .ark ∧
  decodePhase 0b01110 = .ok .imix ∧ decodePhase 0b10001 = .ok .decblk ∧ decodePhase 0b10111 = .ok .unpad ∧
  (∀ id : BitVec 5, decodePhase id = .error (.unusedPhase id) ↔
    id = 6 ∨ id = 7 ∨ id = 15 ∨ id = 18 ∨ id = 19 ∨ 24 ≤ id)

/-! ## The step -/

/-- R29, R210: a host write to CMD runs the meaning of the operation the word decodes to; the step only takes the move
off the list of moves to come (log entry 11). -/
def Obligations.StepRunsTheCommandWritten : Prop :=
  ∀ (s : State) (word : Byte) (i : Instr) (rest : List Turn),
    s.turns = .host (.wrCmd word) :: rest → decodeWord (.cmd8 word) = .ok i →
    step s = exec i { s with turns := rest }

/-- R40: a move of the engine runs the meaning of the operation whose id is in PHASE, and then moves PHASE on; only where
the pace is `micro` and the phase is made of other phases, it is entered instead. The step takes an engine's move off the
list of moves to come; an empty list lets the engine move too (log entries 11 and 12). -/
def Obligations.StepRunsThePhase : Prop :=
  ∀ (s : State) (i : Instr) (rest : List Turn),
    s.turns = .engine :: rest ∨ (s.turns = [] ∧ rest = []) → decodeWord (.phase5 s.phase.id) = .ok i →
    (s.pace ≠ .micro ∨ isComposite s.phase = false →
      step s = proceed s.cfg s.phase (exec i { s with turns := rest })) ∧
    (s.pace = .micro → isComposite s.phase = true →
      step s = enter s.cfg { s with turns := rest })

/-- R95, R257: the idle phase completes and changes nothing. -/
def Obligations.IdleChangesNothing : Prop :=
  ∀ s : State, exec .idle s = .next s

/-! ## The key schedule -/

/-- R122, the derived formula and the two switches: with the upper half folded on, the seed is the XOR of the four
quarters of key bytes 0..15, little-endian ones under LE and big-endian ones under BE; with the lower half kept, it is the
XOR of two quarters, the first and third under LE, the second and fourth under BE. Key bytes 16..31 do not enter. -/
def Obligations.SeedIsXorOfKeyQuarters : Prop :=
  ∀ (c : Cfg) (k : Key),
    (c.seedFold = .foldHiLo → c.seedEndian = .le →
      seedOf c k = le32 k 0 ^^^ le32 k 4 ^^^ le32 k 8 ^^^ le32 k 12) ∧
    (c.seedFold = .foldHiLo → c.seedEndian = .be →
      seedOf c k = be32 k 0 ^^^ be32 k 4 ^^^ be32 k 8 ^^^ be32 k 12) ∧
    (c.seedFold = .truncLow → c.seedEndian = .le → seedOf c k = le32 k 0 ^^^ le32 k 8) ∧
    (c.seedFold = .truncLow → c.seedEndian = .be → seedOf c k = be32 k 4 ^^^ be32 k 12)

/-- R123: KS_SEED completes in every state and writes the seeded generator state alone. -/
def Obligations.KsSeedSeedsTheGenerator : Prop :=
  ∀ s : State, ∃ t, exec .ksSeed s = .next t ∧
    t.work.g = s.cfg.prng.seed
      (foldSeed s.cfg.seedFold (seedWords s.cfg.seedEndian s.work.keyc).1
        (seedWords s.cfg.seedEndian s.work.keyc).2) ∧
    t = { s with work := { s.work with g := t.work.g } }

/-- R124, R125: KS_SBOX completes in every state; SBOX is the permutation the shuffle returned, INV_SBOX undoes it
whatever it held before, G is the state the shuffle left, and nothing else is written. -/
def Obligations.KsSboxBuildsInverseTables : Prop :=
  ∀ s : State, ∃ t, exec .ksSbox s = .next t ∧
    (∀ x : Fin (2 ^ 8),
      t.ds.sbox[x] = BitVec.ofFin ((s.cfg.prng.shuffle (2 ^ 8) s.work.g).1 x)) ∧
    Inverts t.ds.invSbox t.ds.sbox ∧
    t = { s with
      ds := { s.ds with sbox := t.ds.sbox, invSbox := t.ds.invSbox }
      work := { s.work with g := (s.cfg.prng.shuffle (2 ^ 8) s.work.g).2 } }

/-- R126, R127: KS_SHIFT completes in every state; SHIFT is the permutation the shuffle returned, INV_SHIFT undoes it
whatever it held before, G is the state the shuffle left, and nothing else is written. -/
def Obligations.KsShiftBuildsInverseTables : Prop :=
  ∀ s : State, ∃ t, exec .ksShift s = .next t ∧
    (∀ x : Fin (2 ^ 4),
      t.ds.shift[x] = BitVec.ofFin ((s.cfg.prng.shuffle (2 ^ 4) s.work.g).1 x)) ∧
    Inverts t.ds.invShift t.ds.shift ∧
    t = { s with
      ds := { s.ds with shift := t.ds.shift, invShift := t.ds.invShift }
      work := { s.work with g := (s.cfg.prng.shuffle (2 ^ 4) s.work.g).2 } }

/-- R128: KS_MIXC completes in every state; MIXC is one raw output reduced modulo 255 with the low bit set, G is the
state that draw left, and nothing else is written. -/
def Obligations.KsMixcReducesOneDraw : Prop :=
  ∀ s : State, ∃ t, exec .ksMixc s = .next t ∧
    t.ds.mixc.toNat = 2 * ((s.cfg.prng.next s.work.g).1.toNat % 255 / 2) + 1 ∧
    t = { s with
      ds := { s.ds with mixc := t.ds.mixc }
      work := { s.work with g := (s.cfg.prng.next s.work.g).2 } }

/-- R129, which the spec marks as derived from R128: the MixConstant takes exactly the odd values, and 255 from residue 254 alone. -/
def Obligations.MixConstantRange : Prop :=
  (∀ w, (mixConstant w).toNat % 2 = 1) ∧
  (∀ v : Byte, v.toNat % 2 = 1 → ∃ w, mixConstant w = v) ∧
  (∀ w, mixConstant w = 255 ↔ w % 255 = 254) ∧
  (∀ w k, k ≤ 126 → ((mixConstant w).toNat = 2 * k + 1 ↔ w % 255 = 2 * k ∨ w % 255 = 2 * k + 1))

/-- R130, R131: KS_RKEYS completes in every state; byte `i` of round key `r` is key byte `kidx(r, i)` XOR draw number
`16 r + i` of the stream, 128 bytes are drawn, and RK, G and the byte index IDX alone are written. -/
def Obligations.KsRkeysMasksTheStream : Prop :=
  (∀ r i : Nat, (kidx .localIndex r i).val = i % 32 ∧ (kidx .runningIndex r i).val = (16 * r + i) % 32) ∧
  ∀ s : State, ∃ t, exec .ksRkeys s = .next t ∧
    (∀ (r i : Nat) (hr : r < 8) (hi : i < 16),
      t.ds.rk[r][i] =
        s.work.keyc[kidx s.cfg.rkIndexMode r i] ^^^ streamByte s.cfg s.work.g (16 * r + i)) ∧
    t = { s with
      ds := { s.ds with rk := t.ds.rk }
      work := { s.work with g := streamState s.cfg s.work.g 128, idx := t.work.idx } }

/-- R132: key bytes 16..31 do not matter under LOCAL; under RUNNING they enter the odd round keys alone, and in both modes
a round key depends on them as a plain XOR mask. -/
def Obligations.UpperKeyBytesMaskOddRoundsAtMost : Prop :=
  ∀ (c : Cfg) (s : State) (k₁ k₂ : Key), (∀ (i : Nat) (h : i < 16), k₁[i] = k₂[i]) →
    let d₁ := (keySchedule c { s with work := { s.work with keyc := k₁ } }).ds
    let d₂ := (keySchedule c { s with work := { s.work with keyc := k₂ } }).ds
    d₁.sbox = d₂.sbox ∧ d₁.invSbox = d₂.invSbox ∧ d₁.shift = d₂.shift ∧ d₁.invShift = d₂.invShift ∧
    d₁.mixc = d₂.mixc ∧
    (∀ (r : Nat) (h : r < 8), c.rkIndexMode = .localIndex ∨ r % 2 = 0 → d₁.rk[r] = d₂.rk[r]) ∧
    (∀ (r i : Nat) (hr : r < 8) (hi : i < 16),
      d₁.rk[r][i] ^^^ d₂.rk[r][i] = k₁[kidx c.rkIndexMode r i] ^^^ k₂[kidx c.rkIndexMode r i])

/-- R211: on an idle engine with an empty context KSCHED completes: the context holds the key schedule of KEY and has the
properties of R20, `KEYED`, `DONE` and `CC = 0` are shown, RESULT is 0, and memory and the operand registers are as they
were. -/
def Obligations.KschedBuildsTheContext : Prop :=
  ∀ s : State, s.status.busy = false → s.status.keyed = false → s.pace = .atomic →
    ∃ t, exec .ksched s = .next t ∧
      t.ds = (keySchedule s.cfg { s with work := { s.work with keyc := s.key } }).ds ∧
      t.ds.Valid ∧
      t = { s with
        status := { s.status with busy := false, keyed := true, done := true, cc := .ok }
        result := 0
        ds := t.ds
        work := t.work
        phase := .idle
        cmd := none
        trespass := false
        draws := t.draws }

/-- R133: DerivedState is a function of KEY: two states with the same KEY build the same context, whatever else they
hold. -/
def Obligations.KschedIsAFunctionOfTheKey : Prop :=
  ∀ s₁ s₂ : State, s₁.status.busy = false → s₁.status.keyed = false → s₁.pace = .atomic →
    s₂.status.busy = false → s₂.status.keyed = false → s₂.pace = .atomic → s₁.key = s₂.key →
    ∃ t₁ t₂, exec .ksched s₁ = .next t₁ ∧ exec .ksched s₂ = .next t₂ ∧ t₁.ds = t₂.ds

/-! ## The round transform -/

/-- R151: SUB completes in every state, replaces every byte by its SBOX entry, and writes BLK alone. -/
def Obligations.SubSubstitutesEveryByte : Prop :=
  ∀ s : State, ∃ t, exec .sub s = .next t ∧
    (∀ (i : Nat) (h : i < 16), t.work.blk[i] = lookup s.ds.sbox s.work.blk[i]) ∧
    t = s.setBlk t.work.blk

/-- R152: SHIFTR completes in every state; output position `i` takes the byte at input position `SHIFT[i]`, and BLK
alone is written. -/
def Obligations.ShiftrGathersByShift : Prop :=
  ∀ s : State, ∃ t, exec .shiftr s = .next t ∧
    (∀ (i : Nat) (h : i < 16), t.work.blk[i] = s.work.blk[s.ds.shift[i].toNat]'(s.ds.shift[i].isLt)) ∧
    t = s.setBlk t.work.blk

/-- R153: MIX completes in every state; positions 0..14 take the XOR with their right neighbour as it was before the pass
and with MIXC, position 15 is not written, and BLK and the loop index IDX alone are written. -/
def Obligations.MixChainsOldNeighbours : Prop :=
  ∀ s : State, ∃ t, exec .mix s = .next t ∧
    (∀ (i : Nat) (h : i < 15),
      t.work.blk[i] = s.work.blk[i] ^^^ s.work.blk[i + 1] ^^^ s.ds.mixc) ∧
    t.work.blk[15] = s.work.blk[15] ∧
    t = (s.setBlk t.work.blk).setIdx t.work.idx

/-- R154: ARK completes in every state, XORs every byte with that of round key RND, writes BLK alone, and undoes itself. -/
def Obligations.ArkAddsTheRoundKeyAndUndoesItself : Prop :=
  ∀ s : State, ∃ t, exec .ark s = .next t ∧
    (∀ (i : Nat) (h : i < 16), t.work.blk[i] = s.work.blk[i] ^^^ s.ds.rk[s.work.rnd][i]) ∧
    t = s.setBlk t.work.blk ∧
    exec .ark t = .next s

/-- R155: IMIX completes in every state; position `i` takes the XOR with its right neighbour as this pass has restored it
and with MIXC, position 15 is not written, and BLK and the loop index IDX alone are written. -/
def Obligations.ImixChainsRestoredNeighbours : Prop :=
  ∀ s : State, ∃ t, exec .imix s = .next t ∧
    (∀ (i : Nat) (h : i < 15),
      t.work.blk[i] = s.work.blk[i] ^^^ t.work.blk[i + 1] ^^^ s.ds.mixc) ∧
    t.work.blk[15] = s.work.blk[15] ∧
    t = (s.setBlk t.work.blk).setIdx t.work.idx

/-- R155, the derived remark: IMIX undoes MIX and MIX undoes IMIX, for every block and every constant. -/
def Obligations.MixAndImixAreInverses : Prop :=
  ∀ (m : Byte) (b : Block), invMixColumns m (mixColumns m b) = b ∧ mixColumns m (invMixColumns m b) = b

/-- R156: ISHIFTR completes in every state; output position `i` takes the byte at input position `INV_SHIFT[i]`, and BLK
alone is written. -/
def Obligations.IshiftrGathersByInvShift : Prop :=
  ∀ s : State, ∃ t, exec .ishiftr s = .next t ∧
    (∀ (i : Nat) (h : i < 16), t.work.blk[i] = s.work.blk[s.ds.invShift[i].toNat]'(s.ds.invShift[i].isLt)) ∧
    t = s.setBlk t.work.blk

/-- R157: ISUB completes in every state, replaces every byte by its INV_SBOX entry, and writes BLK alone. -/
def Obligations.IsubSubstitutesEveryByte : Prop :=
  ∀ s : State, ∃ t, exec .isub s = .next t ∧
    (∀ (i : Nat) (h : i < 16), t.work.blk[i] = lookup s.ds.invSbox s.work.blk[i]) ∧
    t = s.setBlk t.work.blk

/-- R158, R159: ENCBLK completes in every state; it is forward rounds 0 to 7, each SUB, SHIFTR, MIX, ARK, in increasing
order, and BLK, RND and the loop index IDX alone are written. -/
def Obligations.EncblkRunsEightForwardRounds : Prop :=
  ∀ s : State, ∃ (t : State) (chain : Nat → Block), exec .encblk s = .next t ∧
    chain 0 = s.work.blk ∧
    (∀ (r : Nat) (h : r < 8), chain (r + 1) =
      xorBlock (mixColumns s.ds.mixc (gatherBytes s.ds.shift (subBytes s.ds.sbox (chain r)))) s.ds.rk[r]) ∧
    t = ((s.setBlk (chain 8)).setRnd t.work.rnd).setIdx t.work.idx

/-- R160, R161: DECBLK completes in every state; it is inverse rounds 7 down to 0, each ARK, IMIX, ISHIFTR, ISUB, and BLK,
RND and the loop index IDX alone are written. -/
def Obligations.DecblkRunsEightInverseRounds : Prop :=
  ∀ s : State, ∃ (t : State) (chain : Nat → Block), exec .decblk s = .next t ∧
    chain 8 = s.work.blk ∧
    (∀ (r : Nat) (h : r < 8), chain r =
      subBytes s.ds.invSbox (gatherBytes s.ds.invShift (invMixColumns s.ds.mixc (xorBlock (chain (r + 1)) s.ds.rk[r])))) ∧
    t = ((s.setBlk (chain 0)).setRnd t.work.rnd).setIdx t.work.idx

/-- R162, whose second half the spec marks as derived from the first: for every DerivedState whose tables are permutations with their true inverses, decrypting an encrypted block
gives it back, and encrypting a decrypted one; MIXC need not be odd. -/
def Obligations.DecblkUndoesEncblk : Prop :=
  ∀ d : DerivedState, d.TablesOk → ∀ b : Block,
    decryptBlock d (encryptBlock d b) = b ∧ encryptBlock d (decryptBlock d b) = b

/-! ## The chained mode -/

/-- R182: on ordinary memory PAD completes; it writes 0x80 at offset `N`, 0x00 from there to `PADDED - 1`, no other byte,
and the loop index IDX. -/
def Obligations.PadWritesMarkerAndZeros : Prop :=
  ∀ s : State, s.mem.wf = true → s.work.n < s.work.padded →
    Ram s.cfg s.map (s.work.ptr + s.work.n) (s.work.padded - s.work.n) →
    ∃ t, exec .pad s = .next t ∧
      t.mem.read (s.work.ptr + s.work.n) = 0x80 ∧
      (∀ k, s.work.n < k → k < s.work.padded → t.mem.read (s.work.ptr + k) = 0x00) ∧
      (∀ x, Outside (s.work.ptr + s.work.n) (s.work.padded - s.work.n) x → t.mem.read x = s.mem.read x) ∧
      t = { s with mem := t.mem, work := { s.work with idx := t.work.idx } }

/-- R183: on ordinary memory CBC_ENC completes; every block becomes the encryption of its XOR with the block before it as
encrypted, the first with PREV; no byte outside the first `PADDED` changes, and BLK, PREV, OFF, RND and IDX alone are
written besides. -/
def Obligations.CbcEncChainsEveryBlock : Prop :=
  ∀ s : State, s.mem.wf = true → s.work.padded % 16 = 0 → Ram s.cfg s.map s.work.ptr s.work.padded →
    ∃ t, exec .cbcEnc s = .next t ∧
      (∀ b, 16 * b < s.work.padded →
        blockAt t.mem s.work.ptr b =
          encryptBlock s.ds (xorBlock (blockAt s.mem s.work.ptr b)
            (if b = 0 then s.work.prev else blockAt t.mem s.work.ptr (b - 1)))) ∧
      (∀ x, Outside s.work.ptr s.work.padded x → t.mem.read x = s.mem.read x) ∧
      t = { s with
        mem := t.mem
        work := { s.work with
          blk := t.work.blk, prev := t.work.prev, off := t.work.off, rnd := t.work.rnd, idx := t.work.idx } }

/-- R185: on ordinary memory CBC_DEC completes; every block becomes its decryption XOR the block before it as it was
encrypted, the first XOR PREV; no byte outside the first `N` changes, and BLK, PREV, SAVE, OFF, RND and IDX alone are
written besides. -/
def Obligations.CbcDecUnchainsEveryBlock : Prop :=
  ∀ s : State, s.mem.wf = true → s.work.n % 16 = 0 → Ram s.cfg s.map s.work.ptr s.work.n →
    ∃ t, exec .cbcDec s = .next t ∧
      (∀ b, 16 * b < s.work.n →
        blockAt t.mem s.work.ptr b =
          xorBlock (decryptBlock s.ds (blockAt s.mem s.work.ptr b))
            (if b = 0 then s.work.prev else blockAt s.mem s.work.ptr (b - 1))) ∧
      (∀ x, Outside s.work.ptr s.work.n x → t.mem.read x = s.mem.read x) ∧
      t = { s with
        mem := t.mem
        work := { s.work with
          blk := t.work.blk, prev := t.work.prev, save := t.work.save, off := t.work.off, rnd := t.work.rnd,
          idx := t.work.idx } }

/-- R186: where the platform admits the reads, UNPAD completes; RESULT is the highest offset that holds 0x80, or `N` where
none does; no byte of memory changes, and RESULT and IDX alone are written. -/
def Obligations.UnpadFindsTheLastMarker : Prop :=
  ∀ s : State, (∀ k, k < s.work.n → accessByte s.cfg s.map .read (s.work.ptr + k) = .admitted) →
    ∃ t, exec .unpad s = .next t ∧
      IsUnpadded s.mem s.work.ptr s.work.n t.result ∧
      t = { s with result := t.result, work := { s.work with idx := t.work.idx } }

/-- R213, R180, R184, at the pace of one step a command (log entry 12), which `EncryptReady` asks for: ENCRYPT, ready
and on ordinary memory, completes with `CC = 0` and RESULT the padded length; block by block the buffer is the
chained encryption of the padded plaintext under IV; no byte outside it changes; DerivedState, `KEYED` and the
operand registers are as they were. What the model records of the duties of the host then (`EndedWith`) is its own
(log entries 15 and 25). -/
def Obligations.EncryptCompletes : Prop :=
  ∀ s : State, EncryptReady s → Ram s.cfg s.map s.dataPtr (paddedLength s.len) →
    ∃ t, exec .encrypt s = .next t ∧
      t.result = paddedLength s.len ∧
      (∀ b, 16 * b < paddedLength s.len →
        blockAt t.mem s.dataPtr b =
          encryptBlock s.ds (xorBlock (paddedBlock s.mem s.dataPtr s.len b)
            (if b = 0 then s.iv else blockAt t.mem s.dataPtr (b - 1)))) ∧
      (∀ x, Outside s.dataPtr (paddedLength s.len) x → t.mem.read x = s.mem.read x) ∧
      EndedWith { s.status with cc := .ok, done := true } .encrypt s t

/-- R214, R185, R186, at the pace of one step a command (log entry 12), which `DecryptReady` asks for: DECRYPT, ready
and on ordinary memory, completes with `CC = 0` whatever it finds; block by block the buffer is the unchained
decryption under IV; RESULT is where the backward scan stops; no byte outside the buffer changes; DerivedState,
`KEYED` and the operand registers are as they were. What the model records of the duties of the host then
(`EndedWith`) is its own (log entries 15 and 25). -/
def Obligations.DecryptCompletes : Prop :=
  ∀ s : State, DecryptReady s → Ram s.cfg s.map s.dataPtr s.len →
    ∃ t, exec .decrypt s = .next t ∧
      IsUnpadded t.mem s.dataPtr s.len t.result ∧
      (∀ b, 16 * b < s.len →
        blockAt t.mem s.dataPtr b =
          xorBlock (decryptBlock s.ds (blockAt s.mem s.dataPtr b))
            (if b = 0 then s.iv else blockAt s.mem s.dataPtr (b - 1))) ∧
      (∀ x, Outside s.dataPtr s.len x → t.mem.read x = s.mem.read x) ∧
      EndedWith { s.status with cc := .ok, done := true } .decrypt s t

/-- R188, which the spec marks as derived from R182 to R186 and R162: DECRYPT of what ENCRYPT made, with LEN the padded length and the same IV and key context, completes, gives the
plaintext back followed by the marker and zeros, and returns the plaintext's length. -/
def Obligations.DecryptUndoesEncrypt : Prop :=
  ∀ s : State, EncryptReady s → Ram s.cfg s.map s.dataPtr (paddedLength s.len) → s.ds.TablesOk →
    ∃ t u, exec .encrypt s = .next t ∧ exec .decrypt (t.writeLen s.cfg (paddedLength s.len)) = .next u ∧
      u.result = s.len ∧ u.status.cc = .ok ∧
      (∀ k, k < s.len → u.mem.read (s.dataPtr + k) = s.mem.read (s.dataPtr + k)) ∧
      u.mem.read (s.dataPtr + s.len) = 0x80 ∧
      (∀ k, s.len < k → k < paddedLength s.len → u.mem.read (s.dataPtr + k) = 0x00)

/-- R189, first half: a DECRYPT with another IV gives the first block XORed with both IVs, and every other byte of memory
the same. Nothing is said of RESULT, which may change. -/
def Obligations.WrongIvChangesTheFirstBlockOnly : Prop :=
  ∀ (s : State) (v : Block), DecryptReady s → Ram s.cfg s.map s.dataPtr s.len →
    ∃ t u, exec .decrypt s = .next t ∧ exec .decrypt (s.writeIv v) = .next u ∧
      (∀ (i : Nat) (h : i < 16),
        u.mem.read (s.dataPtr + i) = t.mem.read (s.dataPtr + i) ^^^ s.iv[i] ^^^ v[i]) ∧
      (∀ x, Outside s.dataPtr 16 x → u.mem.read x = t.mem.read x)

/-- R189, second half: changing ciphertext block `k` changes the decryption of that block, exactly the corresponding byte
positions of block `k + 1` where there is one, and no other byte of memory. Nothing is said of RESULT, which may change. -/
def Obligations.CorruptedBlockSpreadsToTheNextOnly : Prop :=
  ∀ (s : State) (m : Memory) (k : Nat), DecryptReady s → Ram s.cfg s.map s.dataPtr s.len →
    m.wf = true → 16 * k < s.len → (∀ x, Outside (s.dataPtr + 16 * k) 16 x → m.read x = s.mem.read x) →
    ∃ t u, exec .decrypt s = .next t ∧ exec .decrypt { s with mem := m } = .next u ∧
      blockAt u.mem s.dataPtr k =
        xorBlock (decryptBlock s.ds (blockAt m s.dataPtr k))
          (if k = 0 then s.iv else blockAt s.mem s.dataPtr (k - 1)) ∧
      (∀ i, i < 16 → 16 * (k + 1) < s.len →
        u.mem.read (s.dataPtr + 16 * (k + 1) + i) =
          t.mem.read (s.dataPtr + 16 * (k + 1) + i) ^^^ s.mem.read (s.dataPtr + 16 * k + i) ^^^
            m.read (s.dataPtr + 16 * k + i)) ∧
      (∀ x, Outside (s.dataPtr + 16 * k) (if 16 * (k + 1) < s.len then 32 else 16) x → u.mem.read x = t.mem.read x)

/-- R190: ENCRYPT is a function of the plaintext, its length, IV and DerivedState: two states that agree on these give the
same RESULT and the same ciphertext, wherever their buffers lie and whatever else they hold. -/
def Obligations.CiphertextIsAFunctionOfItsInputs : Prop :=
  ∀ s₁ s₂ : State, EncryptReady s₁ → EncryptReady s₂ →
    Ram s₁.cfg s₁.map s₁.dataPtr (paddedLength s₁.len) → Ram s₂.cfg s₂.map s₂.dataPtr (paddedLength s₂.len) →
    s₁.len = s₂.len → s₁.iv = s₂.iv → s₁.ds = s₂.ds →
    (∀ k, k < s₁.len → s₁.mem.read (s₁.dataPtr + k) = s₂.mem.read (s₂.dataPtr + k)) →
    ∃ t₁ t₂, exec .encrypt s₁ = .next t₁ ∧ exec .encrypt s₂ = .next t₂ ∧ t₁.result = t₂.result ∧
      (∀ k, k < paddedLength s₁.len → t₁.mem.read (s₁.dataPtr + k) = t₂.mem.read (s₂.dataPtr + k))

/-! ## Refusals and the shell -/

/-- R30, R241: the bits of the byte STATUS reads as, and the numbers of the six completion codes in bits 7:4. -/
def Obligations.StatusByteLayout : Prop :=
  ∀ s : Status, s.toByte.getLsbD 0 = s.busy ∧ s.toByte.getLsbD 1 = s.keyed ∧ s.toByte.getLsbD 2 = s.done ∧
    s.toByte.getLsbD 3 = s.fault ∧
    (s.toByte.toNat / 16 = 0 ↔ s.cc = .ok) ∧ (s.toByte.toNat / 16 = 1 ↔ s.cc = .eCmd) ∧
    (s.toByte.toNat / 16 = 2 ↔ s.cc = .eNokey) ∧ (s.toByte.toNat / 16 = 3 ↔ s.cc = .eKeyed) ∧
    (s.toByte.toNat / 16 = 4 ↔ s.cc = .eLen) ∧ (s.toByte.toNat / 16 = 5 ↔ s.cc = .eBus) ∧
    s.toByte.toNat / 16 < 6

/-- R244: a reserved word on an idle engine is refused with `E_CMD`; STATUS and RESULT alone change, and the engine is idle
again, with no record of a broken duty (log entry 15). -/
def Obligations.ReservedWordRefused : Prop :=
  ∀ (s : State) (word : Byte), isReservedWord word → s.status.busy = false →
    exec (.reserved word) s = .next { s with
      status := { s.status with cc := .eCmd, fault := true, done := true, busy := false }
      result := 0
      phase := .idle
      cmd := none
      trespass := false }

/-- R245, R246, R251: ENCRYPT and DECRYPT on an empty context are refused with `E_NOKEY`, whatever the length, and
KSCHED on a keyed one with `E_KEYED`; memory and the context are untouched. What the model records of the duties of
the host then (`RefusedWith`) is its own (log entries 15 and 25). -/
def Obligations.KeyContextIsChecked : Prop :=
  (∀ s : State, s.status.busy = false → s.status.keyed = false →
    ∃ t u, exec .encrypt s = .next t ∧ RefusedWith .eNokey .encrypt s t ∧
      exec .decrypt s = .next u ∧ RefusedWith .eNokey .decrypt s u) ∧
  (∀ s : State, s.status.busy = false → s.status.keyed = true →
    ∃ t, exec .ksched s = .next t ∧ RefusedWith .eKeyed .ksched s t)

/-- R247: DECRYPT of a length that is 0 or no multiple of 16 is refused with `E_LEN`, before any memory access. What
the model records of the duties of the host then (`RefusedWith`) is its own (log entries 15 and 25). -/
def Obligations.DecryptRefusesBadLengths : Prop :=
  ∀ s : State, s.status.busy = false → s.status.keyed = true → s.len = 0 ∨ s.len % 16 ≠ 0 →
    ∃ t, exec .decrypt s = .next t ∧ RefusedWith .eLen .decrypt s t

/-- R248, at every width: ENCRYPT of a length whose padded length is `2^LENW` or more is refused with `E_LEN`, before
any memory access; these are the lengths of `2^LENW - 16` or more, and with `LENW = 32` the largest other length is
`2^32 - 17`, whose padded length is `2^32 - 16`. What the model records of the duties of the host then
(`RefusedWith`) is its own (log entries 15 and 25). -/
def Obligations.EncryptRefusesOverflowingLengths : Prop :=
  (∀ s : State, s.status.busy = false → s.status.keyed = true → 2 ^ s.cfg.lenw - 16 ≤ s.len →
    2 ^ s.cfg.lenw ≤ paddedLength s.len ∧ ∃ t, exec .encrypt s = .next t ∧ RefusedWith .eLen .encrypt s t) ∧
  (∀ w n, n < 2 ^ w - 16 → paddedLength n < 2 ^ w) ∧
  paddedLength (2 ^ 32 - 17) = 2 ^ 32 - 16

/-- R249, R68: ENCRYPT and DECRYPT whose buffer has an address the platform does not admit, and no device, end with
`E_BUS`; no byte outside the buffer changes, and DerivedState, `KEYED` and the operand registers are as they were.
Nothing is said of RESULT or of the bytes inside. What the model records of the duties of the host then (`EndedWith`)
is its own (log entries 15 and 25). -/
def Obligations.BusErrorEndsTheCommand : Prop :=
  (∀ s : State, EncryptReady s → NoDevice s.cfg s.map s.dataPtr (paddedLength s.len) →
    (∃ k, k < paddedLength s.len ∧ accessByte s.cfg s.map .write (s.dataPtr + k) = .bus) →
    ∃ t, exec .encrypt s = .next t ∧
      EndedWith { s.status with cc := .eBus, fault := true, done := true } .encrypt s t ∧
      (∀ x, Outside s.dataPtr (paddedLength s.len) x → t.mem.read x = s.mem.read x)) ∧
  (∀ s : State, DecryptReady s → NoDevice s.cfg s.map s.dataPtr s.len →
    (∃ k, k < s.len ∧ accessByte s.cfg s.map .write (s.dataPtr + k) = .bus) →
    ∃ t, exec .decrypt s = .next t ∧
      EndedWith { s.status with cc := .eBus, fault := true, done := true } .decrypt s t ∧
      (∀ x, Outside s.dataPtr s.len x → t.mem.read x = s.mem.read x))

/-- R67, with log entry 7: ENCRYPT and DECRYPT of a buffer with a device in it, and ordinary memory elsewhere, are refused
by name, at an address of the buffer. -/
def Obligations.DeviceBufferRefused : Prop :=
  ∀ (s : State) (n : Nat),
    (∃ k, k < n ∧ regionAt s.map (s.dataPtr + k) = some .device) →
    (∀ k, k < n → s.dataPtr + k < 2 ^ s.cfg.aw ∧
      (regionAt s.map (s.dataPtr + k) = some .device ∨ regionAt s.map (s.dataPtr + k) = some .ram)) →
    (EncryptReady s → n = paddedLength s.len →
      ∃ a, exec .encrypt s = .refused (.deviceBuffer a) ∧ s.dataPtr ≤ a ∧ a < s.dataPtr + n) ∧
    (DecryptReady s → n = s.len →
      ∃ a, exec .decrypt s = .refused (.deviceBuffer a) ∧ s.dataPtr ≤ a ∧ a < s.dataPtr + n)

/-- R258, R210: every CMD write on a busy engine is dropped: FAULT is set and nothing else changes. -/
def Obligations.CommandDroppedWhileBusy : Prop :=
  ∀ (s : State) (i : Instr), s.status.busy = true →
    (i = .ksched ∨ i = .encrypt ∨ i = .decrypt ∨ i = .release ∨ ∃ w, i = .reserved w) →
    exec i s = .next { s with status := { s.status with fault := true } }

/-- R215, R27, with log entry 10: RELEASE on an idle engine completes: the context is empty, RESULT is 0, `CC = 0`; on an
empty context nothing but STATUS and RESULT changes, on a keyed one its contents are unspecified. -/
def Obligations.ReleaseEmptiesTheContext : Prop :=
  ∀ s : State, s.status.busy = false →
    ∃ t, exec .release s = .next t ∧
      t = { s with
        status := { s.status with cc := .ok, done := true, keyed := false }
        result := 0
        ds := t.ds
        phase := .idle
        cmd := none
        trespass := false
        draws := t.draws } ∧
      (s.status.keyed = false → t.ds = s.ds ∧ t.draws = s.draws)

/-- R210, R218, R37: where phases are steps of their own (log entry 12), acceptance of a command with phases shows
`BUSY = 1` and `DONE = 0`, keeps the old `CC`, and copies the operands: KEY for KSCHED, IV, DATA_PTR and LEN for ENCRYPT and
DECRYPT. PADDED is then computed (R181), and at the pace `micro` the first offset of a DECRYPT is set (R185). -/
def Obligations.AcceptanceSamplesTheOperands : Prop :=
  ∀ s : State, s.status.busy = false → s.pace ≠ .atomic →
    (s.status.keyed = false →
      exec .ksched s = .next { s with
        status := { s.status with busy := true, done := false }
        work := { s.work with keyc := s.key }
        phase := .ksSeed
        cmd := some .ksched
        trespass := false }) ∧
    (s.status.keyed = true → paddedLength s.len < 2 ^ s.cfg.lenw →
      exec .encrypt s = .next { s with
        status := { s.status with busy := true, done := false }
        work := { s.work with prev := s.iv, ptr := s.dataPtr, n := s.len, padded := paddedLength s.len }
        phase := .pad
        cmd := some .encrypt
        trespass := false }) ∧
    (s.status.keyed = true → s.len ≠ 0 → s.len % 16 = 0 →
      exec .decrypt s = .next { s with
        status := { s.status with busy := true, done := false }
        work := { s.work with
          prev := s.iv, ptr := s.dataPtr, n := s.len, off := if s.pace = .micro then 0 else s.work.off }
        phase := .cbcDec
        cmd := some .decrypt
        trespass := false })

/-- R250: FAULT, once set, stays set in every step in which the reset input is not asserted. -/
def Obligations.FaultIsSticky : Prop :=
  ∀ s t : State, step s = .next t → s.status.fault = true → (∀ rest, s.turns ≠ .host .rst :: rest) →
    t.status.fault = true

/-! ## Whole-machine rules -/

/-- R32, R33, R34, R31: no operation of the core writes KEY, IV, DATA_PTR or LEN; nor, R41, the widths, the platform's map,
the moves to come, the host's last read or the pace. -/
def Obligations.EngineNeverWritesTheOperandRegisters : Prop :=
  ∀ (i : Instr) (s t : State), exec i s = .next t → SameOperands s t ∧ SameOutside s t

/-- R61, R249: no operation but ENCRYPT, DECRYPT and the phases of the chained mode changes memory; and however ENCRYPT or
DECRYPT ends, no byte outside its buffer changes. -/
def Obligations.OnlyTheBufferIsWritten : Prop :=
  (∀ (i : Instr) (s t : State), exec i s = .next t →
    i ≠ .encrypt → i ≠ .decrypt → i ≠ .pad → i ≠ .cbcEnc → i ≠ .cbcDec → i ≠ .unpad → t.mem = s.mem) ∧
  (∀ (s t : State) (x : Nat), s.status.busy = false → exec .encrypt s = .next t →
    Outside s.dataPtr (paddedLength s.len) x → t.mem.read x = s.mem.read x) ∧
  (∀ (s t : State) (x : Nat), s.status.busy = false → exec .decrypt s = .next t →
    Outside s.dataPtr s.len x → t.mem.read x = s.mem.read x)

/-- R27, R163: a context that is KEYED before and after a step is unchanged by it. -/
def Obligations.KeyedContextIsImmutable : Prop :=
  ∀ s t : State, s.Inv → step s = .next t → s.status.keyed = true → t.status.keyed = true → t.ds = s.ds

/-- R27, R211: a step that sets KEYED is the end of a KSCHED, and the context it shows has the properties of R20. -/
def Obligations.KeyedIsSetByKschedAlone : Prop :=
  ∀ s t : State, s.Inv → step s = .next t → s.status.keyed = false → t.status.keyed = true →
    ((∃ rest, s.turns = .host (.wrCmd 0x01) :: rest) ∨ s.phase = .ksRkeys) ∧
    t.ds.Valid ∧ t.status.cc = .ok ∧ t.status.busy = false ∧ t.result = 0

/-- R20, R27, R28, R30, R40, with the canonical form of memory (log entry 5): every step keeps the invariant. -/
def Obligations.EveryStepKeepsTheInvariant : Prop :=
  ∀ s t : State, s.Inv → step s = .next t → t.Inv

/-- R42, R6: at every width the invariant holds after reset; STATUS reads 0x00, RESULT is 0, the engine is idle. The other
registers hold the draws of log entry 4, of which nothing is said. -/
def Obligations.ResetLeavesTheEngineIdle : Prop :=
  (∀ w : Widths, (State.resetAt w).Inv ∧ (State.resetAt w).cfg.lenw = w.lenw ∧ (State.resetAt w).cfg.aw = w.aw ∧
    (State.resetAt w).status.toByte = 0x00 ∧ (State.resetAt w).result = 0 ∧ (State.resetAt w).phase = .idle) ∧
  State.reset.Inv ∧ State.reset.status.toByte = 0x00 ∧ State.reset.result = 0 ∧ State.reset.phase = .idle

/-- R270, R271, R272: asserting the reset input, whatever the engine is doing, shows STATUS 0x00 and RESULT 0 and leaves
the engine idle; no byte outside the buffer of the command in progress changes. -/
def Obligations.ResetInputAbandonsTheCommand : Prop :=
  ∀ (s : State) (rest : List Turn), s.turns = .host .rst :: rest →
    ∃ t, step s = .next t ∧ t.status.toByte = 0x00 ∧ t.result = 0 ∧ t.phase = .idle ∧ t.cmd = none ∧
      t.turns = rest ∧ t.unseen = [] ∧ t.map = s.map ∧ t.widths = s.widths ∧ t.pace = s.pace ∧
      (∀ x, Outside s.work.ptr s.extent x → t.mem.read x = s.mem.read x)

/-- R37: the engine reads no operand register: a move of the engine does the same whatever KEY, IV, DATA_PTR and LEN hold,
so host writes to them do not disturb the command in progress. -/
def Obligations.HostWritesDoNotDisturbTheEngine : Prop :=
  ∀ (s : State) (k : Key) (v : Block) (p l : Nat),
    engineStep { s with key := k, iv := v, dataPtr := p, len := l } =
      mapNext (fun t => { t with key := k, iv := v, dataPtr := p, len := l }) (engineStep s)

/-- R219, with the paces of log entry 12: a command run in one step ends where the same command ends when each of its phases
is a step of its own. -/
def Obligations.AtomicCommandEqualsItsPhases : Prop :=
  ∀ s : State, s.status.busy = false →
    thenEngine 5 (exec .ksched (s.setPace .phases)) =
      mapNext (fun t => t.setPace .phases) (exec .ksched (s.setPace .atomic)) ∧
    thenEngine 2 (exec .encrypt (s.setPace .phases)) =
      mapNext (fun t => t.setPace .phases) (exec .encrypt (s.setPace .atomic)) ∧
    thenEngine 2 (exec .decrypt (s.setPace .phases)) =
      mapNext (fun t => t.setPace .phases) (exec .decrypt (s.setPace .atomic))

/-- R219, R40, R291, with the paces of log entry 12: the same at the pace `micro`, where the engine goes through every round phase of every block: after
finitely many moves it ends where the command run in one step ends. -/
def Obligations.MicroStepsReachTheAtomicEnd : Prop :=
  ∀ (s : State) (i : Instr), i = .ksched ∨ i = .encrypt ∨ i = .decrypt → s.status.busy = false →
    ∃ k, thenEngine k (exec i (s.setPace .micro)) =
      mapNext (fun t => t.setPace .micro) (exec i (s.setPace .atomic))

/-! ## The host port -/

/-- R28, R29, R31, R94: what a host read of each register gives; KEY reads as 32 zero bytes whatever it holds, CMD and a
register that does not exist read 0. The core is unchanged: the model records the value read, and takes the move off
its list (log entries 11 and 21). R71, R280, with log entry 25: a read of STATUS that shows `BUSY = 0` ends what the host
was barred from, and no other read does. -/
def Obligations.HostReadsGiveRegisterValues : Prop :=
  ∀ (s : State) (r : Reg) (rest : List Turn), s.turns = .host (.rd r) :: rest →
    ∃ v, step s = .next { s with
        turns := rest
        rdata := some v
        unseen := if r = .status ∧ s.status.busy = false then [] else s.unseen } ∧
      (r = .cmd → v = .byte 0) ∧ (r = .status → v = .byte s.status.toByte) ∧
      (r = .key → v = .bytes (List.replicate 32 0)) ∧ (r = .iv → v = .bytes s.iv.toList) ∧
      (r = .dataPtr → v = .number s.dataPtr) ∧ (r = .len → v = .number s.len) ∧
      (r = .result → v = .number s.result) ∧ (∀ k, r = .absent k → v = .number 0)

/-- R28, R31 to R34, R94: what a host write of each register does; writes to STATUS, RESULT and a register that does not
exist are ignored. A number wider than its register is cut to it (log entry 20). -/
def Obligations.HostWritesReachTheirRegister : Prop :=
  ∀ (s : State) (m : HostMove) (rest : List Turn), s.turns = .host m :: rest →
    (∀ v, m = .wrKey v → step s = .next { s with turns := rest, key := v }) ∧
    (∀ v, m = .wrIv v → step s = .next { s with turns := rest, iv := v }) ∧
    (∀ v, m = .wrDataPtr v → step s = .next { s with turns := rest, dataPtr := v % 2 ^ s.cfg.aw }) ∧
    (∀ v, m = .wrLen v → step s = .next { s with turns := rest, len := v % 2 ^ s.cfg.lenw }) ∧
    (∀ v, m = .wrStatus v → step s = .next { s with turns := rest }) ∧
    (∀ v, m = .wrResult v → step s = .next { s with turns := rest }) ∧
    (∀ k v, m = .wrAbsent k v → step s = .next { s with turns := rest })

/-- R67, R71, R280, R96: a host write to ordinary memory completes, and a read of each of its addresses then gives the byte
written, but where the address is in the buffer of an ended command that still bars the host from an address written: such
a buffer and RESULT are lost, and nothing is said of them (log entry 25). Where no such command bars the write, RESULT is as
it was. That a write completes while BUSY = 1 is the model's choice (log entry 24). One that meets the window of the
command in progress breaks duty H8, which the model records, and which costs RESULT and the buffer when the command ends
(log entry 15). -/
def Obligations.HostWritesOrdinaryMemory : Prop :=
  ∀ (s : State) (a : Nat) (bytes : List Byte) (rest : List Turn), s.turns = .host (.memWrite a bytes) :: rest →
    s.mem.wf = true → Ram s.cfg s.map a bytes.length →
    ∃ t, step s = .next t ∧
      (∀ (k : Nat) (h : k < bytes.length),
        (∀ w ∈ s.unseen, w.meets a bytes.length → Outside w.base w.buffer (a + k)) → t.mem.read (a + k) = bytes[k]) ∧
      (∀ x, Outside a bytes.length x →
        (∀ w ∈ s.unseen, w.meets a bytes.length → Outside w.base w.buffer x) → t.mem.read x = s.mem.read x) ∧
      (meetsBuffer s a bytes.length → t.trespass = true) ∧
      (¬ meetsBuffer s a bytes.length → t.trespass = s.trespass) ∧
      (¬ meetsUnseen s a bytes.length → t.result = s.result ∧ t.draws = s.draws) ∧
      t = { s with turns := rest, mem := t.mem, trespass := t.trespass, result := t.result, draws := t.draws }
end

