-- ==== Sys2Proof/Laws/State.lean ====
section
/-! SUPPORT. Laws/State.lean: what each update of the state leaves in each field, so that no proof unfolds an update. -/

namespace Sys2Proof.Machine

/-! ## setBlk -/

@[simp] theorem State.setBlk_status (s : State) (b : Block) : (s.setBlk b).status = s.status := rfl
@[simp] theorem State.setBlk_key (s : State) (b : Block) : (s.setBlk b).key = s.key := rfl
@[simp] theorem State.setBlk_iv (s : State) (b : Block) : (s.setBlk b).iv = s.iv := rfl
@[simp] theorem State.setBlk_dataPtr (s : State) (b : Block) : (s.setBlk b).dataPtr = s.dataPtr := rfl
@[simp] theorem State.setBlk_len (s : State) (b : Block) : (s.setBlk b).len = s.len := rfl
@[simp] theorem State.setBlk_result (s : State) (b : Block) : (s.setBlk b).result = s.result := rfl
@[simp] theorem State.setBlk_ds (s : State) (b : Block) : (s.setBlk b).ds = s.ds := rfl
@[simp] theorem State.setBlk_work (s : State) (b : Block) : (s.setBlk b).work = { s.work with blk := b } := rfl
@[simp] theorem State.setBlk_phase (s : State) (b : Block) : (s.setBlk b).phase = s.phase := rfl
@[simp] theorem State.setBlk_cmd (s : State) (b : Block) : (s.setBlk b).cmd = s.cmd := rfl
@[simp] theorem State.setBlk_mem (s : State) (b : Block) : (s.setBlk b).mem = s.mem := rfl
@[simp] theorem State.setBlk_map (s : State) (b : Block) : (s.setBlk b).map = s.map := rfl
@[simp] theorem State.setBlk_widths (s : State) (b : Block) : (s.setBlk b).widths = s.widths := rfl
@[simp] theorem State.setBlk_trespass (s : State) (b : Block) : (s.setBlk b).trespass = s.trespass := rfl
@[simp] theorem State.setBlk_unseen (s : State) (b : Block) : (s.setBlk b).unseen = s.unseen := rfl
@[simp] theorem State.setBlk_turns (s : State) (b : Block) : (s.setBlk b).turns = s.turns := rfl
@[simp] theorem State.setBlk_rdata (s : State) (b : Block) : (s.setBlk b).rdata = s.rdata := rfl
@[simp] theorem State.setBlk_pace (s : State) (b : Block) : (s.setBlk b).pace = s.pace := rfl
@[simp] theorem State.setBlk_draws (s : State) (b : Block) : (s.setBlk b).draws = s.draws := rfl

/-! ## setIdx -/

@[simp] theorem State.setIdx_status (s : State) (i : Nat) : (s.setIdx i).status = s.status := rfl
@[simp] theorem State.setIdx_key (s : State) (i : Nat) : (s.setIdx i).key = s.key := rfl
@[simp] theorem State.setIdx_iv (s : State) (i : Nat) : (s.setIdx i).iv = s.iv := rfl
@[simp] theorem State.setIdx_dataPtr (s : State) (i : Nat) : (s.setIdx i).dataPtr = s.dataPtr := rfl
@[simp] theorem State.setIdx_len (s : State) (i : Nat) : (s.setIdx i).len = s.len := rfl
@[simp] theorem State.setIdx_result (s : State) (i : Nat) : (s.setIdx i).result = s.result := rfl
@[simp] theorem State.setIdx_ds (s : State) (i : Nat) : (s.setIdx i).ds = s.ds := rfl
@[simp] theorem State.setIdx_work (s : State) (i : Nat) : (s.setIdx i).work = { s.work with idx := i } := rfl
@[simp] theorem State.setIdx_phase (s : State) (i : Nat) : (s.setIdx i).phase = s.phase := rfl
@[simp] theorem State.setIdx_cmd (s : State) (i : Nat) : (s.setIdx i).cmd = s.cmd := rfl
@[simp] theorem State.setIdx_mem (s : State) (i : Nat) : (s.setIdx i).mem = s.mem := rfl
@[simp] theorem State.setIdx_map (s : State) (i : Nat) : (s.setIdx i).map = s.map := rfl
@[simp] theorem State.setIdx_widths (s : State) (i : Nat) : (s.setIdx i).widths = s.widths := rfl
@[simp] theorem State.setIdx_trespass (s : State) (i : Nat) : (s.setIdx i).trespass = s.trespass := rfl
@[simp] theorem State.setIdx_unseen (s : State) (i : Nat) : (s.setIdx i).unseen = s.unseen := rfl
@[simp] theorem State.setIdx_turns (s : State) (i : Nat) : (s.setIdx i).turns = s.turns := rfl
@[simp] theorem State.setIdx_rdata (s : State) (i : Nat) : (s.setIdx i).rdata = s.rdata := rfl
@[simp] theorem State.setIdx_pace (s : State) (i : Nat) : (s.setIdx i).pace = s.pace := rfl
@[simp] theorem State.setIdx_draws (s : State) (i : Nat) : (s.setIdx i).draws = s.draws := rfl

/-! ## setRnd -/

@[simp] theorem State.setRnd_status (s : State) (r : Fin 8) : (s.setRnd r).status = s.status := rfl
@[simp] theorem State.setRnd_key (s : State) (r : Fin 8) : (s.setRnd r).key = s.key := rfl
@[simp] theorem State.setRnd_iv (s : State) (r : Fin 8) : (s.setRnd r).iv = s.iv := rfl
@[simp] theorem State.setRnd_dataPtr (s : State) (r : Fin 8) : (s.setRnd r).dataPtr = s.dataPtr := rfl
@[simp] theorem State.setRnd_len (s : State) (r : Fin 8) : (s.setRnd r).len = s.len := rfl
@[simp] theorem State.setRnd_result (s : State) (r : Fin 8) : (s.setRnd r).result = s.result := rfl
@[simp] theorem State.setRnd_ds (s : State) (r : Fin 8) : (s.setRnd r).ds = s.ds := rfl
@[simp] theorem State.setRnd_work (s : State) (r : Fin 8) : (s.setRnd r).work = { s.work with rnd := r } := rfl
@[simp] theorem State.setRnd_phase (s : State) (r : Fin 8) : (s.setRnd r).phase = s.phase := rfl
@[simp] theorem State.setRnd_cmd (s : State) (r : Fin 8) : (s.setRnd r).cmd = s.cmd := rfl
@[simp] theorem State.setRnd_mem (s : State) (r : Fin 8) : (s.setRnd r).mem = s.mem := rfl
@[simp] theorem State.setRnd_map (s : State) (r : Fin 8) : (s.setRnd r).map = s.map := rfl
@[simp] theorem State.setRnd_widths (s : State) (r : Fin 8) : (s.setRnd r).widths = s.widths := rfl
@[simp] theorem State.setRnd_trespass (s : State) (r : Fin 8) : (s.setRnd r).trespass = s.trespass := rfl
@[simp] theorem State.setRnd_unseen (s : State) (r : Fin 8) : (s.setRnd r).unseen = s.unseen := rfl
@[simp] theorem State.setRnd_turns (s : State) (r : Fin 8) : (s.setRnd r).turns = s.turns := rfl
@[simp] theorem State.setRnd_rdata (s : State) (r : Fin 8) : (s.setRnd r).rdata = s.rdata := rfl
@[simp] theorem State.setRnd_pace (s : State) (r : Fin 8) : (s.setRnd r).pace = s.pace := rfl
@[simp] theorem State.setRnd_draws (s : State) (r : Fin 8) : (s.setRnd r).draws = s.draws := rfl

/-! ## setOff -/

@[simp] theorem State.setOff_status (s : State) (off : Nat) : (s.setOff off).status = s.status := rfl
@[simp] theorem State.setOff_key (s : State) (off : Nat) : (s.setOff off).key = s.key := rfl
@[simp] theorem State.setOff_iv (s : State) (off : Nat) : (s.setOff off).iv = s.iv := rfl
@[simp] theorem State.setOff_dataPtr (s : State) (off : Nat) : (s.setOff off).dataPtr = s.dataPtr := rfl
@[simp] theorem State.setOff_len (s : State) (off : Nat) : (s.setOff off).len = s.len := rfl
@[simp] theorem State.setOff_result (s : State) (off : Nat) : (s.setOff off).result = s.result := rfl
@[simp] theorem State.setOff_ds (s : State) (off : Nat) : (s.setOff off).ds = s.ds := rfl
@[simp] theorem State.setOff_work (s : State) (off : Nat) : (s.setOff off).work = { s.work with off := off } := rfl
@[simp] theorem State.setOff_phase (s : State) (off : Nat) : (s.setOff off).phase = s.phase := rfl
@[simp] theorem State.setOff_cmd (s : State) (off : Nat) : (s.setOff off).cmd = s.cmd := rfl
@[simp] theorem State.setOff_mem (s : State) (off : Nat) : (s.setOff off).mem = s.mem := rfl
@[simp] theorem State.setOff_map (s : State) (off : Nat) : (s.setOff off).map = s.map := rfl
@[simp] theorem State.setOff_widths (s : State) (off : Nat) : (s.setOff off).widths = s.widths := rfl
@[simp] theorem State.setOff_trespass (s : State) (off : Nat) : (s.setOff off).trespass = s.trespass := rfl
@[simp] theorem State.setOff_unseen (s : State) (off : Nat) : (s.setOff off).unseen = s.unseen := rfl
@[simp] theorem State.setOff_turns (s : State) (off : Nat) : (s.setOff off).turns = s.turns := rfl
@[simp] theorem State.setOff_rdata (s : State) (off : Nat) : (s.setOff off).rdata = s.rdata := rfl
@[simp] theorem State.setOff_pace (s : State) (off : Nat) : (s.setOff off).pace = s.pace := rfl
@[simp] theorem State.setOff_draws (s : State) (off : Nat) : (s.setOff off).draws = s.draws := rfl

/-! ## setPrev -/

@[simp] theorem State.setPrev_status (s : State) (b : Block) : (s.setPrev b).status = s.status := rfl
@[simp] theorem State.setPrev_key (s : State) (b : Block) : (s.setPrev b).key = s.key := rfl
@[simp] theorem State.setPrev_iv (s : State) (b : Block) : (s.setPrev b).iv = s.iv := rfl
@[simp] theorem State.setPrev_dataPtr (s : State) (b : Block) : (s.setPrev b).dataPtr = s.dataPtr := rfl
@[simp] theorem State.setPrev_len (s : State) (b : Block) : (s.setPrev b).len = s.len := rfl
@[simp] theorem State.setPrev_result (s : State) (b : Block) : (s.setPrev b).result = s.result := rfl
@[simp] theorem State.setPrev_ds (s : State) (b : Block) : (s.setPrev b).ds = s.ds := rfl
@[simp] theorem State.setPrev_work (s : State) (b : Block) : (s.setPrev b).work = { s.work with prev := b } := rfl
@[simp] theorem State.setPrev_phase (s : State) (b : Block) : (s.setPrev b).phase = s.phase := rfl
@[simp] theorem State.setPrev_cmd (s : State) (b : Block) : (s.setPrev b).cmd = s.cmd := rfl
@[simp] theorem State.setPrev_mem (s : State) (b : Block) : (s.setPrev b).mem = s.mem := rfl
@[simp] theorem State.setPrev_map (s : State) (b : Block) : (s.setPrev b).map = s.map := rfl
@[simp] theorem State.setPrev_widths (s : State) (b : Block) : (s.setPrev b).widths = s.widths := rfl
@[simp] theorem State.setPrev_trespass (s : State) (b : Block) : (s.setPrev b).trespass = s.trespass := rfl
@[simp] theorem State.setPrev_unseen (s : State) (b : Block) : (s.setPrev b).unseen = s.unseen := rfl
@[simp] theorem State.setPrev_turns (s : State) (b : Block) : (s.setPrev b).turns = s.turns := rfl
@[simp] theorem State.setPrev_rdata (s : State) (b : Block) : (s.setPrev b).rdata = s.rdata := rfl
@[simp] theorem State.setPrev_pace (s : State) (b : Block) : (s.setPrev b).pace = s.pace := rfl
@[simp] theorem State.setPrev_draws (s : State) (b : Block) : (s.setPrev b).draws = s.draws := rfl

/-! ## setSave -/

@[simp] theorem State.setSave_status (s : State) (b : Block) : (s.setSave b).status = s.status := rfl
@[simp] theorem State.setSave_key (s : State) (b : Block) : (s.setSave b).key = s.key := rfl
@[simp] theorem State.setSave_iv (s : State) (b : Block) : (s.setSave b).iv = s.iv := rfl
@[simp] theorem State.setSave_dataPtr (s : State) (b : Block) : (s.setSave b).dataPtr = s.dataPtr := rfl
@[simp] theorem State.setSave_len (s : State) (b : Block) : (s.setSave b).len = s.len := rfl
@[simp] theorem State.setSave_result (s : State) (b : Block) : (s.setSave b).result = s.result := rfl
@[simp] theorem State.setSave_ds (s : State) (b : Block) : (s.setSave b).ds = s.ds := rfl
@[simp] theorem State.setSave_work (s : State) (b : Block) : (s.setSave b).work = { s.work with save := b } := rfl
@[simp] theorem State.setSave_phase (s : State) (b : Block) : (s.setSave b).phase = s.phase := rfl
@[simp] theorem State.setSave_cmd (s : State) (b : Block) : (s.setSave b).cmd = s.cmd := rfl
@[simp] theorem State.setSave_mem (s : State) (b : Block) : (s.setSave b).mem = s.mem := rfl
@[simp] theorem State.setSave_map (s : State) (b : Block) : (s.setSave b).map = s.map := rfl
@[simp] theorem State.setSave_widths (s : State) (b : Block) : (s.setSave b).widths = s.widths := rfl
@[simp] theorem State.setSave_trespass (s : State) (b : Block) : (s.setSave b).trespass = s.trespass := rfl
@[simp] theorem State.setSave_unseen (s : State) (b : Block) : (s.setSave b).unseen = s.unseen := rfl
@[simp] theorem State.setSave_turns (s : State) (b : Block) : (s.setSave b).turns = s.turns := rfl
@[simp] theorem State.setSave_rdata (s : State) (b : Block) : (s.setSave b).rdata = s.rdata := rfl
@[simp] theorem State.setSave_pace (s : State) (b : Block) : (s.setSave b).pace = s.pace := rfl
@[simp] theorem State.setSave_draws (s : State) (b : Block) : (s.setSave b).draws = s.draws := rfl

/-! ## setResult -/

@[simp] theorem State.setResult_status (s : State) (r : Nat) : (s.setResult r).status = s.status := rfl
@[simp] theorem State.setResult_key (s : State) (r : Nat) : (s.setResult r).key = s.key := rfl
@[simp] theorem State.setResult_iv (s : State) (r : Nat) : (s.setResult r).iv = s.iv := rfl
@[simp] theorem State.setResult_dataPtr (s : State) (r : Nat) : (s.setResult r).dataPtr = s.dataPtr := rfl
@[simp] theorem State.setResult_len (s : State) (r : Nat) : (s.setResult r).len = s.len := rfl
@[simp] theorem State.setResult_result (s : State) (r : Nat) : (s.setResult r).result = r := rfl
@[simp] theorem State.setResult_ds (s : State) (r : Nat) : (s.setResult r).ds = s.ds := rfl
@[simp] theorem State.setResult_work (s : State) (r : Nat) : (s.setResult r).work = s.work := rfl
@[simp] theorem State.setResult_phase (s : State) (r : Nat) : (s.setResult r).phase = s.phase := rfl
@[simp] theorem State.setResult_cmd (s : State) (r : Nat) : (s.setResult r).cmd = s.cmd := rfl
@[simp] theorem State.setResult_mem (s : State) (r : Nat) : (s.setResult r).mem = s.mem := rfl
@[simp] theorem State.setResult_map (s : State) (r : Nat) : (s.setResult r).map = s.map := rfl
@[simp] theorem State.setResult_widths (s : State) (r : Nat) : (s.setResult r).widths = s.widths := rfl
@[simp] theorem State.setResult_trespass (s : State) (r : Nat) : (s.setResult r).trespass = s.trespass := rfl
@[simp] theorem State.setResult_unseen (s : State) (r : Nat) : (s.setResult r).unseen = s.unseen := rfl
@[simp] theorem State.setResult_turns (s : State) (r : Nat) : (s.setResult r).turns = s.turns := rfl
@[simp] theorem State.setResult_rdata (s : State) (r : Nat) : (s.setResult r).rdata = s.rdata := rfl
@[simp] theorem State.setResult_pace (s : State) (r : Nat) : (s.setResult r).pace = s.pace := rfl
@[simp] theorem State.setResult_draws (s : State) (r : Nat) : (s.setResult r).draws = s.draws := rfl

/-! ## setPhase -/

@[simp] theorem State.setPhase_status (s : State) (p : Phase) : (s.setPhase p).status = s.status := rfl
@[simp] theorem State.setPhase_key (s : State) (p : Phase) : (s.setPhase p).key = s.key := rfl
@[simp] theorem State.setPhase_iv (s : State) (p : Phase) : (s.setPhase p).iv = s.iv := rfl
@[simp] theorem State.setPhase_dataPtr (s : State) (p : Phase) : (s.setPhase p).dataPtr = s.dataPtr := rfl
@[simp] theorem State.setPhase_len (s : State) (p : Phase) : (s.setPhase p).len = s.len := rfl
@[simp] theorem State.setPhase_result (s : State) (p : Phase) : (s.setPhase p).result = s.result := rfl
@[simp] theorem State.setPhase_ds (s : State) (p : Phase) : (s.setPhase p).ds = s.ds := rfl
@[simp] theorem State.setPhase_work (s : State) (p : Phase) : (s.setPhase p).work = s.work := rfl
@[simp] theorem State.setPhase_phase (s : State) (p : Phase) : (s.setPhase p).phase = p := rfl
@[simp] theorem State.setPhase_cmd (s : State) (p : Phase) : (s.setPhase p).cmd = s.cmd := rfl
@[simp] theorem State.setPhase_mem (s : State) (p : Phase) : (s.setPhase p).mem = s.mem := rfl
@[simp] theorem State.setPhase_map (s : State) (p : Phase) : (s.setPhase p).map = s.map := rfl
@[simp] theorem State.setPhase_widths (s : State) (p : Phase) : (s.setPhase p).widths = s.widths := rfl
@[simp] theorem State.setPhase_trespass (s : State) (p : Phase) : (s.setPhase p).trespass = s.trespass := rfl
@[simp] theorem State.setPhase_unseen (s : State) (p : Phase) : (s.setPhase p).unseen = s.unseen := rfl
@[simp] theorem State.setPhase_turns (s : State) (p : Phase) : (s.setPhase p).turns = s.turns := rfl
@[simp] theorem State.setPhase_rdata (s : State) (p : Phase) : (s.setPhase p).rdata = s.rdata := rfl
@[simp] theorem State.setPhase_pace (s : State) (p : Phase) : (s.setPhase p).pace = s.pace := rfl
@[simp] theorem State.setPhase_draws (s : State) (p : Phase) : (s.setPhase p).draws = s.draws := rfl

/-! ## setPace -/

@[simp] theorem State.setPace_status (s : State) (p : Pace) : (s.setPace p).status = s.status := rfl
@[simp] theorem State.setPace_key (s : State) (p : Pace) : (s.setPace p).key = s.key := rfl
@[simp] theorem State.setPace_iv (s : State) (p : Pace) : (s.setPace p).iv = s.iv := rfl
@[simp] theorem State.setPace_dataPtr (s : State) (p : Pace) : (s.setPace p).dataPtr = s.dataPtr := rfl
@[simp] theorem State.setPace_len (s : State) (p : Pace) : (s.setPace p).len = s.len := rfl
@[simp] theorem State.setPace_result (s : State) (p : Pace) : (s.setPace p).result = s.result := rfl
@[simp] theorem State.setPace_ds (s : State) (p : Pace) : (s.setPace p).ds = s.ds := rfl
@[simp] theorem State.setPace_work (s : State) (p : Pace) : (s.setPace p).work = s.work := rfl
@[simp] theorem State.setPace_phase (s : State) (p : Pace) : (s.setPace p).phase = s.phase := rfl
@[simp] theorem State.setPace_cmd (s : State) (p : Pace) : (s.setPace p).cmd = s.cmd := rfl
@[simp] theorem State.setPace_mem (s : State) (p : Pace) : (s.setPace p).mem = s.mem := rfl
@[simp] theorem State.setPace_map (s : State) (p : Pace) : (s.setPace p).map = s.map := rfl
@[simp] theorem State.setPace_widths (s : State) (p : Pace) : (s.setPace p).widths = s.widths := rfl
@[simp] theorem State.setPace_trespass (s : State) (p : Pace) : (s.setPace p).trespass = s.trespass := rfl
@[simp] theorem State.setPace_unseen (s : State) (p : Pace) : (s.setPace p).unseen = s.unseen := rfl
@[simp] theorem State.setPace_turns (s : State) (p : Pace) : (s.setPace p).turns = s.turns := rfl
@[simp] theorem State.setPace_rdata (s : State) (p : Pace) : (s.setPace p).rdata = s.rdata := rfl
@[simp] theorem State.setPace_pace (s : State) (p : Pace) : (s.setPace p).pace = p := rfl
@[simp] theorem State.setPace_draws (s : State) (p : Pace) : (s.setPace p).draws = s.draws := rfl

/-! ## storeByte -/

@[simp] theorem State.storeByte_status (s : State) (a : Nat) (v : Byte) : (s.storeByte a v).status = s.status := rfl
@[simp] theorem State.storeByte_key (s : State) (a : Nat) (v : Byte) : (s.storeByte a v).key = s.key := rfl
@[simp] theorem State.storeByte_iv (s : State) (a : Nat) (v : Byte) : (s.storeByte a v).iv = s.iv := rfl
@[simp] theorem State.storeByte_dataPtr (s : State) (a : Nat) (v : Byte) : (s.storeByte a v).dataPtr = s.dataPtr := rfl
@[simp] theorem State.storeByte_len (s : State) (a : Nat) (v : Byte) : (s.storeByte a v).len = s.len := rfl
@[simp] theorem State.storeByte_result (s : State) (a : Nat) (v : Byte) : (s.storeByte a v).result = s.result := rfl
@[simp] theorem State.storeByte_ds (s : State) (a : Nat) (v : Byte) : (s.storeByte a v).ds = s.ds := rfl
@[simp] theorem State.storeByte_work (s : State) (a : Nat) (v : Byte) : (s.storeByte a v).work = s.work := rfl
@[simp] theorem State.storeByte_phase (s : State) (a : Nat) (v : Byte) : (s.storeByte a v).phase = s.phase := rfl
@[simp] theorem State.storeByte_cmd (s : State) (a : Nat) (v : Byte) : (s.storeByte a v).cmd = s.cmd := rfl
@[simp] theorem State.storeByte_mem (s : State) (a : Nat) (v : Byte) : (s.storeByte a v).mem = s.mem.write a v := rfl
@[simp] theorem State.storeByte_map (s : State) (a : Nat) (v : Byte) : (s.storeByte a v).map = s.map := rfl
@[simp] theorem State.storeByte_widths (s : State) (a : Nat) (v : Byte) : (s.storeByte a v).widths = s.widths := rfl
@[simp] theorem State.storeByte_trespass (s : State) (a : Nat) (v : Byte) : (s.storeByte a v).trespass = s.trespass := rfl
@[simp] theorem State.storeByte_unseen (s : State) (a : Nat) (v : Byte) : (s.storeByte a v).unseen = s.unseen := rfl
@[simp] theorem State.storeByte_turns (s : State) (a : Nat) (v : Byte) : (s.storeByte a v).turns = s.turns := rfl
@[simp] theorem State.storeByte_rdata (s : State) (a : Nat) (v : Byte) : (s.storeByte a v).rdata = s.rdata := rfl
@[simp] theorem State.storeByte_pace (s : State) (a : Nat) (v : Byte) : (s.storeByte a v).pace = s.pace := rfl
@[simp] theorem State.storeByte_draws (s : State) (a : Nat) (v : Byte) : (s.storeByte a v).draws = s.draws := rfl

/-! ## storeBlock -/

@[simp] theorem State.storeBlock_status (s : State) (a : Nat) (b : Block) : (s.storeBlock a b).status = s.status := by simp only [State.storeBlock]
@[simp] theorem State.storeBlock_key (s : State) (a : Nat) (b : Block) : (s.storeBlock a b).key = s.key := by simp only [State.storeBlock]
@[simp] theorem State.storeBlock_iv (s : State) (a : Nat) (b : Block) : (s.storeBlock a b).iv = s.iv := by simp only [State.storeBlock]
@[simp] theorem State.storeBlock_dataPtr (s : State) (a : Nat) (b : Block) : (s.storeBlock a b).dataPtr = s.dataPtr := by simp only [State.storeBlock]
@[simp] theorem State.storeBlock_len (s : State) (a : Nat) (b : Block) : (s.storeBlock a b).len = s.len := by simp only [State.storeBlock]
@[simp] theorem State.storeBlock_result (s : State) (a : Nat) (b : Block) : (s.storeBlock a b).result = s.result := by simp only [State.storeBlock]
@[simp] theorem State.storeBlock_ds (s : State) (a : Nat) (b : Block) : (s.storeBlock a b).ds = s.ds := by simp only [State.storeBlock]
@[simp] theorem State.storeBlock_work (s : State) (a : Nat) (b : Block) : (s.storeBlock a b).work = s.work := by simp only [State.storeBlock]
@[simp] theorem State.storeBlock_phase (s : State) (a : Nat) (b : Block) : (s.storeBlock a b).phase = s.phase := by simp only [State.storeBlock]
@[simp] theorem State.storeBlock_cmd (s : State) (a : Nat) (b : Block) : (s.storeBlock a b).cmd = s.cmd := by simp only [State.storeBlock]
@[simp] theorem State.storeBlock_mem (s : State) (a : Nat) (b : Block) : (s.storeBlock a b).mem = s.mem.writeBlock a b := by simp only [State.storeBlock]
@[simp] theorem State.storeBlock_map (s : State) (a : Nat) (b : Block) : (s.storeBlock a b).map = s.map := by simp only [State.storeBlock]
@[simp] theorem State.storeBlock_widths (s : State) (a : Nat) (b : Block) : (s.storeBlock a b).widths = s.widths := by simp only [State.storeBlock]
@[simp] theorem State.storeBlock_trespass (s : State) (a : Nat) (b : Block) : (s.storeBlock a b).trespass = s.trespass := by simp only [State.storeBlock]
@[simp] theorem State.storeBlock_unseen (s : State) (a : Nat) (b : Block) : (s.storeBlock a b).unseen = s.unseen := by simp only [State.storeBlock]
@[simp] theorem State.storeBlock_turns (s : State) (a : Nat) (b : Block) : (s.storeBlock a b).turns = s.turns := by simp only [State.storeBlock]
@[simp] theorem State.storeBlock_rdata (s : State) (a : Nat) (b : Block) : (s.storeBlock a b).rdata = s.rdata := by simp only [State.storeBlock]
@[simp] theorem State.storeBlock_pace (s : State) (a : Nat) (b : Block) : (s.storeBlock a b).pace = s.pace := by simp only [State.storeBlock]
@[simp] theorem State.storeBlock_draws (s : State) (a : Nat) (b : Block) : (s.storeBlock a b).draws = s.draws := by simp only [State.storeBlock]

/-! ## writeKey -/

@[simp] theorem State.writeKey_status (s : State) (v : Key) : (s.writeKey v).status = s.status := rfl
@[simp] theorem State.writeKey_key (s : State) (v : Key) : (s.writeKey v).key = v := rfl
@[simp] theorem State.writeKey_iv (s : State) (v : Key) : (s.writeKey v).iv = s.iv := rfl
@[simp] theorem State.writeKey_dataPtr (s : State) (v : Key) : (s.writeKey v).dataPtr = s.dataPtr := rfl
@[simp] theorem State.writeKey_len (s : State) (v : Key) : (s.writeKey v).len = s.len := rfl
@[simp] theorem State.writeKey_result (s : State) (v : Key) : (s.writeKey v).result = s.result := rfl
@[simp] theorem State.writeKey_ds (s : State) (v : Key) : (s.writeKey v).ds = s.ds := rfl
@[simp] theorem State.writeKey_work (s : State) (v : Key) : (s.writeKey v).work = s.work := rfl
@[simp] theorem State.writeKey_phase (s : State) (v : Key) : (s.writeKey v).phase = s.phase := rfl
@[simp] theorem State.writeKey_cmd (s : State) (v : Key) : (s.writeKey v).cmd = s.cmd := rfl
@[simp] theorem State.writeKey_mem (s : State) (v : Key) : (s.writeKey v).mem = s.mem := rfl
@[simp] theorem State.writeKey_map (s : State) (v : Key) : (s.writeKey v).map = s.map := rfl
@[simp] theorem State.writeKey_widths (s : State) (v : Key) : (s.writeKey v).widths = s.widths := rfl
@[simp] theorem State.writeKey_trespass (s : State) (v : Key) : (s.writeKey v).trespass = s.trespass := rfl
@[simp] theorem State.writeKey_unseen (s : State) (v : Key) : (s.writeKey v).unseen = s.unseen := rfl
@[simp] theorem State.writeKey_turns (s : State) (v : Key) : (s.writeKey v).turns = s.turns := rfl
@[simp] theorem State.writeKey_rdata (s : State) (v : Key) : (s.writeKey v).rdata = s.rdata := rfl
@[simp] theorem State.writeKey_pace (s : State) (v : Key) : (s.writeKey v).pace = s.pace := rfl
@[simp] theorem State.writeKey_draws (s : State) (v : Key) : (s.writeKey v).draws = s.draws := rfl

/-! ## writeIv -/

@[simp] theorem State.writeIv_status (s : State) (v : Block) : (s.writeIv v).status = s.status := rfl
@[simp] theorem State.writeIv_key (s : State) (v : Block) : (s.writeIv v).key = s.key := rfl
@[simp] theorem State.writeIv_iv (s : State) (v : Block) : (s.writeIv v).iv = v := rfl
@[simp] theorem State.writeIv_dataPtr (s : State) (v : Block) : (s.writeIv v).dataPtr = s.dataPtr := rfl
@[simp] theorem State.writeIv_len (s : State) (v : Block) : (s.writeIv v).len = s.len := rfl
@[simp] theorem State.writeIv_result (s : State) (v : Block) : (s.writeIv v).result = s.result := rfl
@[simp] theorem State.writeIv_ds (s : State) (v : Block) : (s.writeIv v).ds = s.ds := rfl
@[simp] theorem State.writeIv_work (s : State) (v : Block) : (s.writeIv v).work = s.work := rfl
@[simp] theorem State.writeIv_phase (s : State) (v : Block) : (s.writeIv v).phase = s.phase := rfl
@[simp] theorem State.writeIv_cmd (s : State) (v : Block) : (s.writeIv v).cmd = s.cmd := rfl
@[simp] theorem State.writeIv_mem (s : State) (v : Block) : (s.writeIv v).mem = s.mem := rfl
@[simp] theorem State.writeIv_map (s : State) (v : Block) : (s.writeIv v).map = s.map := rfl
@[simp] theorem State.writeIv_widths (s : State) (v : Block) : (s.writeIv v).widths = s.widths := rfl
@[simp] theorem State.writeIv_trespass (s : State) (v : Block) : (s.writeIv v).trespass = s.trespass := rfl
@[simp] theorem State.writeIv_unseen (s : State) (v : Block) : (s.writeIv v).unseen = s.unseen := rfl
@[simp] theorem State.writeIv_turns (s : State) (v : Block) : (s.writeIv v).turns = s.turns := rfl
@[simp] theorem State.writeIv_rdata (s : State) (v : Block) : (s.writeIv v).rdata = s.rdata := rfl
@[simp] theorem State.writeIv_pace (s : State) (v : Block) : (s.writeIv v).pace = s.pace := rfl
@[simp] theorem State.writeIv_draws (s : State) (v : Block) : (s.writeIv v).draws = s.draws := rfl

/-! ## writeDataPtr -/

@[simp] theorem State.writeDataPtr_status (s : State) (c : Cfg) (v : Nat) : (s.writeDataPtr c v).status = s.status := rfl
@[simp] theorem State.writeDataPtr_key (s : State) (c : Cfg) (v : Nat) : (s.writeDataPtr c v).key = s.key := rfl
@[simp] theorem State.writeDataPtr_iv (s : State) (c : Cfg) (v : Nat) : (s.writeDataPtr c v).iv = s.iv := rfl
@[simp] theorem State.writeDataPtr_dataPtr (s : State) (c : Cfg) (v : Nat) : (s.writeDataPtr c v).dataPtr = v % 2 ^ c.aw := rfl
@[simp] theorem State.writeDataPtr_len (s : State) (c : Cfg) (v : Nat) : (s.writeDataPtr c v).len = s.len := rfl
@[simp] theorem State.writeDataPtr_result (s : State) (c : Cfg) (v : Nat) : (s.writeDataPtr c v).result = s.result := rfl
@[simp] theorem State.writeDataPtr_ds (s : State) (c : Cfg) (v : Nat) : (s.writeDataPtr c v).ds = s.ds := rfl
@[simp] theorem State.writeDataPtr_work (s : State) (c : Cfg) (v : Nat) : (s.writeDataPtr c v).work = s.work := rfl
@[simp] theorem State.writeDataPtr_phase (s : State) (c : Cfg) (v : Nat) : (s.writeDataPtr c v).phase = s.phase := rfl
@[simp] theorem State.writeDataPtr_cmd (s : State) (c : Cfg) (v : Nat) : (s.writeDataPtr c v).cmd = s.cmd := rfl
@[simp] theorem State.writeDataPtr_mem (s : State) (c : Cfg) (v : Nat) : (s.writeDataPtr c v).mem = s.mem := rfl
@[simp] theorem State.writeDataPtr_map (s : State) (c : Cfg) (v : Nat) : (s.writeDataPtr c v).map = s.map := rfl
@[simp] theorem State.writeDataPtr_widths (s : State) (c : Cfg) (v : Nat) : (s.writeDataPtr c v).widths = s.widths := rfl
@[simp] theorem State.writeDataPtr_trespass (s : State) (c : Cfg) (v : Nat) : (s.writeDataPtr c v).trespass = s.trespass := rfl
@[simp] theorem State.writeDataPtr_unseen (s : State) (c : Cfg) (v : Nat) : (s.writeDataPtr c v).unseen = s.unseen := rfl
@[simp] theorem State.writeDataPtr_turns (s : State) (c : Cfg) (v : Nat) : (s.writeDataPtr c v).turns = s.turns := rfl
@[simp] theorem State.writeDataPtr_rdata (s : State) (c : Cfg) (v : Nat) : (s.writeDataPtr c v).rdata = s.rdata := rfl
@[simp] theorem State.writeDataPtr_pace (s : State) (c : Cfg) (v : Nat) : (s.writeDataPtr c v).pace = s.pace := rfl
@[simp] theorem State.writeDataPtr_draws (s : State) (c : Cfg) (v : Nat) : (s.writeDataPtr c v).draws = s.draws := rfl

/-! ## writeLen -/

@[simp] theorem State.writeLen_status (s : State) (c : Cfg) (v : Nat) : (s.writeLen c v).status = s.status := rfl
@[simp] theorem State.writeLen_key (s : State) (c : Cfg) (v : Nat) : (s.writeLen c v).key = s.key := rfl
@[simp] theorem State.writeLen_iv (s : State) (c : Cfg) (v : Nat) : (s.writeLen c v).iv = s.iv := rfl
@[simp] theorem State.writeLen_dataPtr (s : State) (c : Cfg) (v : Nat) : (s.writeLen c v).dataPtr = s.dataPtr := rfl
@[simp] theorem State.writeLen_len (s : State) (c : Cfg) (v : Nat) : (s.writeLen c v).len = v % 2 ^ c.lenw := rfl
@[simp] theorem State.writeLen_result (s : State) (c : Cfg) (v : Nat) : (s.writeLen c v).result = s.result := rfl
@[simp] theorem State.writeLen_ds (s : State) (c : Cfg) (v : Nat) : (s.writeLen c v).ds = s.ds := rfl
@[simp] theorem State.writeLen_work (s : State) (c : Cfg) (v : Nat) : (s.writeLen c v).work = s.work := rfl
@[simp] theorem State.writeLen_phase (s : State) (c : Cfg) (v : Nat) : (s.writeLen c v).phase = s.phase := rfl
@[simp] theorem State.writeLen_cmd (s : State) (c : Cfg) (v : Nat) : (s.writeLen c v).cmd = s.cmd := rfl
@[simp] theorem State.writeLen_mem (s : State) (c : Cfg) (v : Nat) : (s.writeLen c v).mem = s.mem := rfl
@[simp] theorem State.writeLen_map (s : State) (c : Cfg) (v : Nat) : (s.writeLen c v).map = s.map := rfl
@[simp] theorem State.writeLen_widths (s : State) (c : Cfg) (v : Nat) : (s.writeLen c v).widths = s.widths := rfl
@[simp] theorem State.writeLen_trespass (s : State) (c : Cfg) (v : Nat) : (s.writeLen c v).trespass = s.trespass := rfl
@[simp] theorem State.writeLen_unseen (s : State) (c : Cfg) (v : Nat) : (s.writeLen c v).unseen = s.unseen := rfl
@[simp] theorem State.writeLen_turns (s : State) (c : Cfg) (v : Nat) : (s.writeLen c v).turns = s.turns := rfl
@[simp] theorem State.writeLen_rdata (s : State) (c : Cfg) (v : Nat) : (s.writeLen c v).rdata = s.rdata := rfl
@[simp] theorem State.writeLen_pace (s : State) (c : Cfg) (v : Nat) : (s.writeLen c v).pace = s.pace := rfl
@[simp] theorem State.writeLen_draws (s : State) (c : Cfg) (v : Nat) : (s.writeLen c v).draws = s.draws := rfl

/-! ## toIdle -/

@[simp] theorem State.toIdle_status (s : State) : (s.toIdle).status = s.status := rfl
@[simp] theorem State.toIdle_key (s : State) : (s.toIdle).key = s.key := rfl
@[simp] theorem State.toIdle_iv (s : State) : (s.toIdle).iv = s.iv := rfl
@[simp] theorem State.toIdle_dataPtr (s : State) : (s.toIdle).dataPtr = s.dataPtr := rfl
@[simp] theorem State.toIdle_len (s : State) : (s.toIdle).len = s.len := rfl
@[simp] theorem State.toIdle_result (s : State) : (s.toIdle).result = s.result := rfl
@[simp] theorem State.toIdle_ds (s : State) : (s.toIdle).ds = s.ds := rfl
@[simp] theorem State.toIdle_work (s : State) : (s.toIdle).work = s.work := rfl
@[simp] theorem State.toIdle_phase (s : State) : (s.toIdle).phase = .idle := rfl
@[simp] theorem State.toIdle_cmd (s : State) : (s.toIdle).cmd = none := rfl
@[simp] theorem State.toIdle_mem (s : State) : (s.toIdle).mem = s.mem := rfl
@[simp] theorem State.toIdle_map (s : State) : (s.toIdle).map = s.map := rfl
@[simp] theorem State.toIdle_widths (s : State) : (s.toIdle).widths = s.widths := rfl
@[simp] theorem State.toIdle_trespass (s : State) : (s.toIdle).trespass = false := rfl
@[simp] theorem State.toIdle_unseen (s : State) : (s.toIdle).unseen = s.window.toList ++ s.unseen := rfl
@[simp] theorem State.toIdle_turns (s : State) : (s.toIdle).turns = s.turns := rfl
@[simp] theorem State.toIdle_rdata (s : State) : (s.toIdle).rdata = s.rdata := rfl
@[simp] theorem State.toIdle_pace (s : State) : (s.toIdle).pace = s.pace := rfl
@[simp] theorem State.toIdle_draws (s : State) : (s.toIdle).draws = s.draws := rfl

/-! ## complete -/

@[simp] theorem State.complete_status (s : State) : (s.complete).status = s.status.complete := rfl
@[simp] theorem State.complete_key (s : State) : (s.complete).key = s.key := rfl
@[simp] theorem State.complete_iv (s : State) : (s.complete).iv = s.iv := rfl
@[simp] theorem State.complete_dataPtr (s : State) : (s.complete).dataPtr = s.dataPtr := rfl
@[simp] theorem State.complete_len (s : State) : (s.complete).len = s.len := rfl
@[simp] theorem State.complete_result (s : State) : (s.complete).result = s.result := rfl
@[simp] theorem State.complete_ds (s : State) : (s.complete).ds = s.ds := rfl
@[simp] theorem State.complete_work (s : State) : (s.complete).work = s.work := rfl
@[simp] theorem State.complete_phase (s : State) : (s.complete).phase = .idle := rfl
@[simp] theorem State.complete_cmd (s : State) : (s.complete).cmd = none := rfl
@[simp] theorem State.complete_mem (s : State) : (s.complete).mem = s.mem := rfl
@[simp] theorem State.complete_map (s : State) : (s.complete).map = s.map := rfl
@[simp] theorem State.complete_widths (s : State) : (s.complete).widths = s.widths := rfl
@[simp] theorem State.complete_trespass (s : State) : (s.complete).trespass = false := rfl
@[simp] theorem State.complete_unseen (s : State) : (s.complete).unseen = s.window.toList ++ s.unseen := rfl
@[simp] theorem State.complete_turns (s : State) : (s.complete).turns = s.turns := rfl
@[simp] theorem State.complete_rdata (s : State) : (s.complete).rdata = s.rdata := rfl
@[simp] theorem State.complete_pace (s : State) : (s.complete).pace = s.pace := rfl
@[simp] theorem State.complete_draws (s : State) : (s.complete).draws = s.draws := rfl

/-! ## acceptPlain -/

@[simp] theorem State.acceptPlain_status (s : State) : (s.acceptPlain).status = s.status.accept := rfl
@[simp] theorem State.acceptPlain_key (s : State) : (s.acceptPlain).key = s.key := rfl
@[simp] theorem State.acceptPlain_iv (s : State) : (s.acceptPlain).iv = s.iv := rfl
@[simp] theorem State.acceptPlain_dataPtr (s : State) : (s.acceptPlain).dataPtr = s.dataPtr := rfl
@[simp] theorem State.acceptPlain_len (s : State) : (s.acceptPlain).len = s.len := rfl
@[simp] theorem State.acceptPlain_result (s : State) : (s.acceptPlain).result = s.result := rfl
@[simp] theorem State.acceptPlain_ds (s : State) : (s.acceptPlain).ds = s.ds := rfl
@[simp] theorem State.acceptPlain_work (s : State) : (s.acceptPlain).work = s.work := rfl
@[simp] theorem State.acceptPlain_phase (s : State) : (s.acceptPlain).phase = s.phase := rfl
@[simp] theorem State.acceptPlain_cmd (s : State) : (s.acceptPlain).cmd = none := rfl
@[simp] theorem State.acceptPlain_mem (s : State) : (s.acceptPlain).mem = s.mem := rfl
@[simp] theorem State.acceptPlain_map (s : State) : (s.acceptPlain).map = s.map := rfl
@[simp] theorem State.acceptPlain_widths (s : State) : (s.acceptPlain).widths = s.widths := rfl
@[simp] theorem State.acceptPlain_trespass (s : State) : (s.acceptPlain).trespass = s.trespass := rfl
@[simp] theorem State.acceptPlain_unseen (s : State) : (s.acceptPlain).unseen = s.unseen := rfl
@[simp] theorem State.acceptPlain_turns (s : State) : (s.acceptPlain).turns = s.turns := rfl
@[simp] theorem State.acceptPlain_rdata (s : State) : (s.acceptPlain).rdata = s.rdata := rfl
@[simp] theorem State.acceptPlain_pace (s : State) : (s.acceptPlain).pace = s.pace := rfl
@[simp] theorem State.acceptPlain_draws (s : State) : (s.acceptPlain).draws = s.draws := rfl

/-! ## dropCommand -/

@[simp] theorem State.dropCommand_status (s : State) : (s.dropCommand).status = s.status.drop := rfl
@[simp] theorem State.dropCommand_key (s : State) : (s.dropCommand).key = s.key := rfl
@[simp] theorem State.dropCommand_iv (s : State) : (s.dropCommand).iv = s.iv := rfl
@[simp] theorem State.dropCommand_dataPtr (s : State) : (s.dropCommand).dataPtr = s.dataPtr := rfl
@[simp] theorem State.dropCommand_len (s : State) : (s.dropCommand).len = s.len := rfl
@[simp] theorem State.dropCommand_result (s : State) : (s.dropCommand).result = s.result := rfl
@[simp] theorem State.dropCommand_ds (s : State) : (s.dropCommand).ds = s.ds := rfl
@[simp] theorem State.dropCommand_work (s : State) : (s.dropCommand).work = s.work := rfl
@[simp] theorem State.dropCommand_phase (s : State) : (s.dropCommand).phase = s.phase := rfl
@[simp] theorem State.dropCommand_cmd (s : State) : (s.dropCommand).cmd = s.cmd := rfl
@[simp] theorem State.dropCommand_mem (s : State) : (s.dropCommand).mem = s.mem := rfl
@[simp] theorem State.dropCommand_map (s : State) : (s.dropCommand).map = s.map := rfl
@[simp] theorem State.dropCommand_widths (s : State) : (s.dropCommand).widths = s.widths := rfl
@[simp] theorem State.dropCommand_trespass (s : State) : (s.dropCommand).trespass = s.trespass := rfl
@[simp] theorem State.dropCommand_unseen (s : State) : (s.dropCommand).unseen = s.unseen := rfl
@[simp] theorem State.dropCommand_turns (s : State) : (s.dropCommand).turns = s.turns := rfl
@[simp] theorem State.dropCommand_rdata (s : State) : (s.dropCommand).rdata = s.rdata := rfl
@[simp] theorem State.dropCommand_pace (s : State) : (s.dropCommand).pace = s.pace := rfl
@[simp] theorem State.dropCommand_draws (s : State) : (s.dropCommand).draws = s.draws := rfl

/-! ## loseRange -/

@[simp] theorem State.loseRange_status (s : State) (c : Cfg) (a n : Nat) : (s.loseRange c a n).status = s.status := by simp only [State.loseRange]
@[simp] theorem State.loseRange_key (s : State) (c : Cfg) (a n : Nat) : (s.loseRange c a n).key = s.key := by simp only [State.loseRange]
@[simp] theorem State.loseRange_iv (s : State) (c : Cfg) (a n : Nat) : (s.loseRange c a n).iv = s.iv := by simp only [State.loseRange]
@[simp] theorem State.loseRange_dataPtr (s : State) (c : Cfg) (a n : Nat) : (s.loseRange c a n).dataPtr = s.dataPtr := by simp only [State.loseRange]
@[simp] theorem State.loseRange_len (s : State) (c : Cfg) (a n : Nat) : (s.loseRange c a n).len = s.len := by simp only [State.loseRange]
@[simp] theorem State.loseRange_result (s : State) (c : Cfg) (a n : Nat) : (s.loseRange c a n).result = drawNumber c.lenw .result s.draws := by simp only [State.loseRange]
@[simp] theorem State.loseRange_ds (s : State) (c : Cfg) (a n : Nat) : (s.loseRange c a n).ds = s.ds := by simp only [State.loseRange]
@[simp] theorem State.loseRange_work (s : State) (c : Cfg) (a n : Nat) : (s.loseRange c a n).work = s.work := by simp only [State.loseRange]
@[simp] theorem State.loseRange_phase (s : State) (c : Cfg) (a n : Nat) : (s.loseRange c a n).phase = s.phase := by simp only [State.loseRange]
@[simp] theorem State.loseRange_cmd (s : State) (c : Cfg) (a n : Nat) : (s.loseRange c a n).cmd = s.cmd := by simp only [State.loseRange]
@[simp] theorem State.loseRange_mem (s : State) (c : Cfg) (a n : Nat) : (s.loseRange c a n).mem = s.mem.unspecify c a n s.draws := by simp only [State.loseRange]
@[simp] theorem State.loseRange_map (s : State) (c : Cfg) (a n : Nat) : (s.loseRange c a n).map = s.map := by simp only [State.loseRange]
@[simp] theorem State.loseRange_widths (s : State) (c : Cfg) (a n : Nat) : (s.loseRange c a n).widths = s.widths := by simp only [State.loseRange]
@[simp] theorem State.loseRange_trespass (s : State) (c : Cfg) (a n : Nat) : (s.loseRange c a n).trespass = s.trespass := by simp only [State.loseRange]
@[simp] theorem State.loseRange_unseen (s : State) (c : Cfg) (a n : Nat) : (s.loseRange c a n).unseen = s.unseen := by simp only [State.loseRange]
@[simp] theorem State.loseRange_turns (s : State) (c : Cfg) (a n : Nat) : (s.loseRange c a n).turns = s.turns := by simp only [State.loseRange]
@[simp] theorem State.loseRange_rdata (s : State) (c : Cfg) (a n : Nat) : (s.loseRange c a n).rdata = s.rdata := by simp only [State.loseRange]
@[simp] theorem State.loseRange_pace (s : State) (c : Cfg) (a n : Nat) : (s.loseRange c a n).pace = s.pace := by simp only [State.loseRange]
@[simp] theorem State.loseRange_draws (s : State) (c : Cfg) (a n : Nat) : (s.loseRange c a n).draws = s.draws + 1 := by simp only [State.loseRange]

/-! ## retire -/

@[simp] theorem State.retire_status (s : State) (c : Cfg) : (s.retire c).status = s.status := rfl
@[simp] theorem State.retire_key (s : State) (c : Cfg) : (s.retire c).key = s.key := rfl
@[simp] theorem State.retire_iv (s : State) (c : Cfg) : (s.retire c).iv = s.iv := rfl
@[simp] theorem State.retire_dataPtr (s : State) (c : Cfg) : (s.retire c).dataPtr = s.dataPtr := rfl
@[simp] theorem State.retire_len (s : State) (c : Cfg) : (s.retire c).len = s.len := rfl
@[simp] theorem State.retire_result (s : State) (c : Cfg) : (s.retire c).result = s.result := rfl
@[simp] theorem State.retire_ds (s : State) (c : Cfg) : (s.retire c).ds = s.ds := rfl
@[simp] theorem State.retire_work (s : State) (c : Cfg) : (s.retire c).work = Working.unspecified c s.draws := rfl
@[simp] theorem State.retire_phase (s : State) (c : Cfg) : (s.retire c).phase = s.phase := rfl
@[simp] theorem State.retire_cmd (s : State) (c : Cfg) : (s.retire c).cmd = s.cmd := rfl
@[simp] theorem State.retire_mem (s : State) (c : Cfg) : (s.retire c).mem = s.mem := rfl
@[simp] theorem State.retire_map (s : State) (c : Cfg) : (s.retire c).map = s.map := rfl
@[simp] theorem State.retire_widths (s : State) (c : Cfg) : (s.retire c).widths = s.widths := rfl
@[simp] theorem State.retire_trespass (s : State) (c : Cfg) : (s.retire c).trespass = s.trespass := rfl
@[simp] theorem State.retire_unseen (s : State) (c : Cfg) : (s.retire c).unseen = s.unseen := rfl
@[simp] theorem State.retire_turns (s : State) (c : Cfg) : (s.retire c).turns = s.turns := rfl
@[simp] theorem State.retire_rdata (s : State) (c : Cfg) : (s.retire c).rdata = s.rdata := rfl
@[simp] theorem State.retire_pace (s : State) (c : Cfg) : (s.retire c).pace = s.pace := rfl
@[simp] theorem State.retire_draws (s : State) (c : Cfg) : (s.retire c).draws = s.draws + 1 := rfl

/-! ## loseIfTrespassed -/

@[simp] theorem State.loseIfTrespassed_status (s : State) (c : Cfg) : (s.loseIfTrespassed c).status = s.status := by
  unfold State.loseIfTrespassed; split <;> simp only [State.loseRange_status]
@[simp] theorem State.loseIfTrespassed_key (s : State) (c : Cfg) : (s.loseIfTrespassed c).key = s.key := by
  unfold State.loseIfTrespassed; split <;> simp only [State.loseRange_key]
@[simp] theorem State.loseIfTrespassed_iv (s : State) (c : Cfg) : (s.loseIfTrespassed c).iv = s.iv := by
  unfold State.loseIfTrespassed; split <;> simp only [State.loseRange_iv]
@[simp] theorem State.loseIfTrespassed_dataPtr (s : State) (c : Cfg) : (s.loseIfTrespassed c).dataPtr = s.dataPtr := by
  unfold State.loseIfTrespassed; split <;> simp only [State.loseRange_dataPtr]
@[simp] theorem State.loseIfTrespassed_len (s : State) (c : Cfg) : (s.loseIfTrespassed c).len = s.len := by
  unfold State.loseIfTrespassed; split <;> simp only [State.loseRange_len]
@[simp] theorem State.loseIfTrespassed_ds (s : State) (c : Cfg) : (s.loseIfTrespassed c).ds = s.ds := by
  unfold State.loseIfTrespassed; split <;> simp only [State.loseRange_ds]
@[simp] theorem State.loseIfTrespassed_work (s : State) (c : Cfg) : (s.loseIfTrespassed c).work = s.work := by
  unfold State.loseIfTrespassed; split <;> simp only [State.loseRange_work]
@[simp] theorem State.loseIfTrespassed_phase (s : State) (c : Cfg) : (s.loseIfTrespassed c).phase = s.phase := by
  unfold State.loseIfTrespassed; split <;> simp only [State.loseRange_phase]
@[simp] theorem State.loseIfTrespassed_cmd (s : State) (c : Cfg) : (s.loseIfTrespassed c).cmd = s.cmd := by
  unfold State.loseIfTrespassed; split <;> simp only [State.loseRange_cmd]
@[simp] theorem State.loseIfTrespassed_map (s : State) (c : Cfg) : (s.loseIfTrespassed c).map = s.map := by
  unfold State.loseIfTrespassed; split <;> simp only [State.loseRange_map]
@[simp] theorem State.loseIfTrespassed_widths (s : State) (c : Cfg) : (s.loseIfTrespassed c).widths = s.widths := by
  unfold State.loseIfTrespassed; split <;> simp only [State.loseRange_widths]
@[simp] theorem State.loseIfTrespassed_trespass (s : State) (c : Cfg) : (s.loseIfTrespassed c).trespass = s.trespass := by
  unfold State.loseIfTrespassed; split <;> simp only [State.loseRange_trespass]
@[simp] theorem State.loseIfTrespassed_unseen (s : State) (c : Cfg) : (s.loseIfTrespassed c).unseen = s.unseen := by
  unfold State.loseIfTrespassed; split <;> simp only [State.loseRange_unseen]
@[simp] theorem State.loseIfTrespassed_turns (s : State) (c : Cfg) : (s.loseIfTrespassed c).turns = s.turns := by
  unfold State.loseIfTrespassed; split <;> simp only [State.loseRange_turns]
@[simp] theorem State.loseIfTrespassed_rdata (s : State) (c : Cfg) : (s.loseIfTrespassed c).rdata = s.rdata := by
  unfold State.loseIfTrespassed; split <;> simp only [State.loseRange_rdata]
@[simp] theorem State.loseIfTrespassed_pace (s : State) (c : Cfg) : (s.loseIfTrespassed c).pace = s.pace := by
  unfold State.loseIfTrespassed; split <;> simp only [State.loseRange_pace]

/-! ## loseUnseen, hostWrite, hostRead, hostReadReg -/

/-- A property that losing a range keeps, losing the buffers of unobserved commands keeps. -/
theorem State.loseUnseen_keeps {P : State → Prop} (c : Cfg) (a n : Nat) {s : State} (hs : P s)
    (h : ∀ (t : State) (w : Window), w ∈ s.unseen → w.meets a n → P t → P (t.loseRange c w.base w.buffer)) :
    P (s.loseUnseen c a n) := by
  unfold State.loseUnseen
  generalize s.unseen = ws at h
  induction ws generalizing s with
  | nil => exact hs
  | cons w rest ih =>
    rw [List.foldl_cons]
    refine ih ?_ fun t v hv => h t v (List.mem_cons_of_mem _ hv)
    split
    · next hm => exact h s w List.mem_cons_self hm hs
    · exact hs

@[simp] theorem State.loseUnseen_status (s : State) (c : Cfg) (a n : Nat) : (s.loseUnseen c a n).status = s.status :=
  State.loseUnseen_keeps (P := fun t => t.status = s.status) c a n rfl fun t _ _ _ ht => (State.loseRange_status t ..).trans ht
@[simp] theorem State.loseUnseen_key (s : State) (c : Cfg) (a n : Nat) : (s.loseUnseen c a n).key = s.key :=
  State.loseUnseen_keeps (P := fun t => t.key = s.key) c a n rfl fun t _ _ _ ht => (State.loseRange_key t ..).trans ht
@[simp] theorem State.loseUnseen_iv (s : State) (c : Cfg) (a n : Nat) : (s.loseUnseen c a n).iv = s.iv :=
  State.loseUnseen_keeps (P := fun t => t.iv = s.iv) c a n rfl fun t _ _ _ ht => (State.loseRange_iv t ..).trans ht
@[simp] theorem State.loseUnseen_dataPtr (s : State) (c : Cfg) (a n : Nat) : (s.loseUnseen c a n).dataPtr = s.dataPtr :=
  State.loseUnseen_keeps (P := fun t => t.dataPtr = s.dataPtr) c a n rfl fun t _ _ _ ht => (State.loseRange_dataPtr t ..).trans ht
@[simp] theorem State.loseUnseen_len (s : State) (c : Cfg) (a n : Nat) : (s.loseUnseen c a n).len = s.len :=
  State.loseUnseen_keeps (P := fun t => t.len = s.len) c a n rfl fun t _ _ _ ht => (State.loseRange_len t ..).trans ht
@[simp] theorem State.loseUnseen_ds (s : State) (c : Cfg) (a n : Nat) : (s.loseUnseen c a n).ds = s.ds :=
  State.loseUnseen_keeps (P := fun t => t.ds = s.ds) c a n rfl fun t _ _ _ ht => (State.loseRange_ds t ..).trans ht
@[simp] theorem State.loseUnseen_work (s : State) (c : Cfg) (a n : Nat) : (s.loseUnseen c a n).work = s.work :=
  State.loseUnseen_keeps (P := fun t => t.work = s.work) c a n rfl fun t _ _ _ ht => (State.loseRange_work t ..).trans ht
@[simp] theorem State.loseUnseen_phase (s : State) (c : Cfg) (a n : Nat) : (s.loseUnseen c a n).phase = s.phase :=
  State.loseUnseen_keeps (P := fun t => t.phase = s.phase) c a n rfl fun t _ _ _ ht => (State.loseRange_phase t ..).trans ht
@[simp] theorem State.loseUnseen_cmd (s : State) (c : Cfg) (a n : Nat) : (s.loseUnseen c a n).cmd = s.cmd :=
  State.loseUnseen_keeps (P := fun t => t.cmd = s.cmd) c a n rfl fun t _ _ _ ht => (State.loseRange_cmd t ..).trans ht
@[simp] theorem State.loseUnseen_map (s : State) (c : Cfg) (a n : Nat) : (s.loseUnseen c a n).map = s.map :=
  State.loseUnseen_keeps (P := fun t => t.map = s.map) c a n rfl fun t _ _ _ ht => (State.loseRange_map t ..).trans ht
@[simp] theorem State.loseUnseen_widths (s : State) (c : Cfg) (a n : Nat) : (s.loseUnseen c a n).widths = s.widths :=
  State.loseUnseen_keeps (P := fun t => t.widths = s.widths) c a n rfl fun t _ _ _ ht => (State.loseRange_widths t ..).trans ht
@[simp] theorem State.loseUnseen_trespass (s : State) (c : Cfg) (a n : Nat) : (s.loseUnseen c a n).trespass = s.trespass :=
  State.loseUnseen_keeps (P := fun t => t.trespass = s.trespass) c a n rfl fun t _ _ _ ht => (State.loseRange_trespass t ..).trans ht
@[simp] theorem State.loseUnseen_unseen (s : State) (c : Cfg) (a n : Nat) : (s.loseUnseen c a n).unseen = s.unseen :=
  State.loseUnseen_keeps (P := fun t => t.unseen = s.unseen) c a n rfl fun t _ _ _ ht => (State.loseRange_unseen t ..).trans ht
@[simp] theorem State.loseUnseen_turns (s : State) (c : Cfg) (a n : Nat) : (s.loseUnseen c a n).turns = s.turns :=
  State.loseUnseen_keeps (P := fun t => t.turns = s.turns) c a n rfl fun t _ _ _ ht => (State.loseRange_turns t ..).trans ht
@[simp] theorem State.loseUnseen_rdata (s : State) (c : Cfg) (a n : Nat) : (s.loseUnseen c a n).rdata = s.rdata :=
  State.loseUnseen_keeps (P := fun t => t.rdata = s.rdata) c a n rfl fun t _ _ _ ht => (State.loseRange_rdata t ..).trans ht
@[simp] theorem State.loseUnseen_pace (s : State) (c : Cfg) (a n : Nat) : (s.loseUnseen c a n).pace = s.pace :=
  State.loseUnseen_keeps (P := fun t => t.pace = s.pace) c a n rfl fun t _ _ _ ht => (State.loseRange_pace t ..).trans ht
@[simp] theorem State.hostWrite_status (s : State) (c : Cfg) (a : Nat) (bytes : List Byte) :
    (s.hostWrite c a bytes).status = s.status := by
  simp only [State.hostWrite, State.loseUnseen_status]
@[simp] theorem State.hostWrite_key (s : State) (c : Cfg) (a : Nat) (bytes : List Byte) :
    (s.hostWrite c a bytes).key = s.key := by
  simp only [State.hostWrite, State.loseUnseen_key]
@[simp] theorem State.hostWrite_iv (s : State) (c : Cfg) (a : Nat) (bytes : List Byte) :
    (s.hostWrite c a bytes).iv = s.iv := by
  simp only [State.hostWrite, State.loseUnseen_iv]
@[simp] theorem State.hostWrite_dataPtr (s : State) (c : Cfg) (a : Nat) (bytes : List Byte) :
    (s.hostWrite c a bytes).dataPtr = s.dataPtr := by
  simp only [State.hostWrite, State.loseUnseen_dataPtr]
@[simp] theorem State.hostWrite_len (s : State) (c : Cfg) (a : Nat) (bytes : List Byte) :
    (s.hostWrite c a bytes).len = s.len := by
  simp only [State.hostWrite, State.loseUnseen_len]
@[simp] theorem State.hostWrite_ds (s : State) (c : Cfg) (a : Nat) (bytes : List Byte) :
    (s.hostWrite c a bytes).ds = s.ds := by
  simp only [State.hostWrite, State.loseUnseen_ds]
@[simp] theorem State.hostWrite_work (s : State) (c : Cfg) (a : Nat) (bytes : List Byte) :
    (s.hostWrite c a bytes).work = s.work := by
  simp only [State.hostWrite, State.loseUnseen_work]
@[simp] theorem State.hostWrite_phase (s : State) (c : Cfg) (a : Nat) (bytes : List Byte) :
    (s.hostWrite c a bytes).phase = s.phase := by
  simp only [State.hostWrite, State.loseUnseen_phase]
@[simp] theorem State.hostWrite_cmd (s : State) (c : Cfg) (a : Nat) (bytes : List Byte) :
    (s.hostWrite c a bytes).cmd = s.cmd := by
  simp only [State.hostWrite, State.loseUnseen_cmd]
@[simp] theorem State.hostWrite_map (s : State) (c : Cfg) (a : Nat) (bytes : List Byte) :
    (s.hostWrite c a bytes).map = s.map := by
  simp only [State.hostWrite, State.loseUnseen_map]
@[simp] theorem State.hostWrite_widths (s : State) (c : Cfg) (a : Nat) (bytes : List Byte) :
    (s.hostWrite c a bytes).widths = s.widths := by
  simp only [State.hostWrite, State.loseUnseen_widths]
@[simp] theorem State.hostWrite_trespass (s : State) (c : Cfg) (a : Nat) (bytes : List Byte) :
    (s.hostWrite c a bytes).trespass = (s.trespass || decide (meetsBuffer s a bytes.length)) := by
  simp only [State.hostWrite, State.loseUnseen_trespass]
@[simp] theorem State.hostWrite_unseen (s : State) (c : Cfg) (a : Nat) (bytes : List Byte) :
    (s.hostWrite c a bytes).unseen = s.unseen := by
  simp only [State.hostWrite, State.loseUnseen_unseen]
@[simp] theorem State.hostWrite_turns (s : State) (c : Cfg) (a : Nat) (bytes : List Byte) :
    (s.hostWrite c a bytes).turns = s.turns := by
  simp only [State.hostWrite, State.loseUnseen_turns]
@[simp] theorem State.hostWrite_rdata (s : State) (c : Cfg) (a : Nat) (bytes : List Byte) :
    (s.hostWrite c a bytes).rdata = s.rdata := by
  simp only [State.hostWrite, State.loseUnseen_rdata]
@[simp] theorem State.hostWrite_pace (s : State) (c : Cfg) (a : Nat) (bytes : List Byte) :
    (s.hostWrite c a bytes).pace = s.pace := by
  simp only [State.hostWrite, State.loseUnseen_pace]
@[simp] theorem State.hostRead_status (s : State) (c : Cfg) (a n : Nat) : (s.hostRead c a n).status = s.status := by
  simp only [State.hostRead, State.loseUnseen_status]
@[simp] theorem State.hostRead_key (s : State) (c : Cfg) (a n : Nat) : (s.hostRead c a n).key = s.key := by
  simp only [State.hostRead, State.loseUnseen_key]
@[simp] theorem State.hostRead_iv (s : State) (c : Cfg) (a n : Nat) : (s.hostRead c a n).iv = s.iv := by
  simp only [State.hostRead, State.loseUnseen_iv]
@[simp] theorem State.hostRead_dataPtr (s : State) (c : Cfg) (a n : Nat) : (s.hostRead c a n).dataPtr = s.dataPtr := by
  simp only [State.hostRead, State.loseUnseen_dataPtr]
@[simp] theorem State.hostRead_len (s : State) (c : Cfg) (a n : Nat) : (s.hostRead c a n).len = s.len := by
  simp only [State.hostRead, State.loseUnseen_len]
@[simp] theorem State.hostRead_ds (s : State) (c : Cfg) (a n : Nat) : (s.hostRead c a n).ds = s.ds := by
  simp only [State.hostRead, State.loseUnseen_ds]
@[simp] theorem State.hostRead_work (s : State) (c : Cfg) (a n : Nat) : (s.hostRead c a n).work = s.work := by
  simp only [State.hostRead, State.loseUnseen_work]
@[simp] theorem State.hostRead_phase (s : State) (c : Cfg) (a n : Nat) : (s.hostRead c a n).phase = s.phase := by
  simp only [State.hostRead, State.loseUnseen_phase]
@[simp] theorem State.hostRead_cmd (s : State) (c : Cfg) (a n : Nat) : (s.hostRead c a n).cmd = s.cmd := by
  simp only [State.hostRead, State.loseUnseen_cmd]
@[simp] theorem State.hostRead_map (s : State) (c : Cfg) (a n : Nat) : (s.hostRead c a n).map = s.map := by
  simp only [State.hostRead, State.loseUnseen_map]
@[simp] theorem State.hostRead_widths (s : State) (c : Cfg) (a n : Nat) : (s.hostRead c a n).widths = s.widths := by
  simp only [State.hostRead, State.loseUnseen_widths]
@[simp] theorem State.hostRead_trespass (s : State) (c : Cfg) (a n : Nat) : (s.hostRead c a n).trespass = (s.trespass || decide (meetsBuffer s a n)) := by
  simp only [State.hostRead, State.loseUnseen_trespass]
@[simp] theorem State.hostRead_unseen (s : State) (c : Cfg) (a n : Nat) : (s.hostRead c a n).unseen = s.unseen := by
  simp only [State.hostRead, State.loseUnseen_unseen]
@[simp] theorem State.hostRead_turns (s : State) (c : Cfg) (a n : Nat) : (s.hostRead c a n).turns = s.turns := by
  simp only [State.hostRead, State.loseUnseen_turns]
@[simp] theorem State.hostRead_rdata (s : State) (c : Cfg) (a n : Nat) : (s.hostRead c a n).rdata = some (.bytes (s.hostBytes a n)) := by
  simp only [State.hostRead, State.loseUnseen_rdata]
@[simp] theorem State.hostRead_pace (s : State) (c : Cfg) (a n : Nat) : (s.hostRead c a n).pace = s.pace := by
  simp only [State.hostRead, State.loseUnseen_pace]
@[simp] theorem State.hostReadReg_status (s : State) (r : Reg) : (s.hostReadReg r).status = s.status := by
  unfold State.hostReadReg State.observe; dsimp only; split <;> [split <;> rfl; rfl]
@[simp] theorem State.hostReadReg_key (s : State) (r : Reg) : (s.hostReadReg r).key = s.key := by
  unfold State.hostReadReg State.observe; dsimp only; split <;> [split <;> rfl; rfl]
@[simp] theorem State.hostReadReg_iv (s : State) (r : Reg) : (s.hostReadReg r).iv = s.iv := by
  unfold State.hostReadReg State.observe; dsimp only; split <;> [split <;> rfl; rfl]
@[simp] theorem State.hostReadReg_dataPtr (s : State) (r : Reg) : (s.hostReadReg r).dataPtr = s.dataPtr := by
  unfold State.hostReadReg State.observe; dsimp only; split <;> [split <;> rfl; rfl]
@[simp] theorem State.hostReadReg_len (s : State) (r : Reg) : (s.hostReadReg r).len = s.len := by
  unfold State.hostReadReg State.observe; dsimp only; split <;> [split <;> rfl; rfl]
@[simp] theorem State.hostReadReg_result (s : State) (r : Reg) : (s.hostReadReg r).result = s.result := by
  unfold State.hostReadReg State.observe; dsimp only; split <;> [split <;> rfl; rfl]
@[simp] theorem State.hostReadReg_ds (s : State) (r : Reg) : (s.hostReadReg r).ds = s.ds := by
  unfold State.hostReadReg State.observe; dsimp only; split <;> [split <;> rfl; rfl]
@[simp] theorem State.hostReadReg_work (s : State) (r : Reg) : (s.hostReadReg r).work = s.work := by
  unfold State.hostReadReg State.observe; dsimp only; split <;> [split <;> rfl; rfl]
@[simp] theorem State.hostReadReg_phase (s : State) (r : Reg) : (s.hostReadReg r).phase = s.phase := by
  unfold State.hostReadReg State.observe; dsimp only; split <;> [split <;> rfl; rfl]
@[simp] theorem State.hostReadReg_cmd (s : State) (r : Reg) : (s.hostReadReg r).cmd = s.cmd := by
  unfold State.hostReadReg State.observe; dsimp only; split <;> [split <;> rfl; rfl]
@[simp] theorem State.hostReadReg_mem (s : State) (r : Reg) : (s.hostReadReg r).mem = s.mem := by
  unfold State.hostReadReg State.observe; dsimp only; split <;> [split <;> rfl; rfl]
@[simp] theorem State.hostReadReg_map (s : State) (r : Reg) : (s.hostReadReg r).map = s.map := by
  unfold State.hostReadReg State.observe; dsimp only; split <;> [split <;> rfl; rfl]
@[simp] theorem State.hostReadReg_widths (s : State) (r : Reg) : (s.hostReadReg r).widths = s.widths := by
  unfold State.hostReadReg State.observe; dsimp only; split <;> [split <;> rfl; rfl]
@[simp] theorem State.hostReadReg_trespass (s : State) (r : Reg) : (s.hostReadReg r).trespass = s.trespass := by
  unfold State.hostReadReg State.observe; dsimp only; split <;> [split <;> rfl; rfl]
@[simp] theorem State.hostReadReg_turns (s : State) (r : Reg) : (s.hostReadReg r).turns = s.turns := by
  unfold State.hostReadReg State.observe; dsimp only; split <;> [split <;> rfl; rfl]
@[simp] theorem State.hostReadReg_rdata (s : State) (r : Reg) : (s.hostReadReg r).rdata = some (s.readReg r) := by
  unfold State.hostReadReg State.observe; dsimp only; split <;> [split <;> rfl; rfl]
@[simp] theorem State.hostReadReg_pace (s : State) (r : Reg) : (s.hostReadReg r).pace = s.pace := by
  unfold State.hostReadReg State.observe; dsimp only; split <;> [split <;> rfl; rfl]
@[simp] theorem State.hostReadReg_draws (s : State) (r : Reg) : (s.hostReadReg r).draws = s.draws := by
  unfold State.hostReadReg State.observe; dsimp only; split <;> [split <;> rfl; rfl]
@[simp] theorem State.hostReadReg_unseen (s : State) (r : Reg) :
    (s.hostReadReg r).unseen = if r = .status ∧ s.status.busy = false then [] else s.unseen := by
  unfold State.hostReadReg State.observe
  dsimp only
  by_cases hr : r = .status <;> cases hb : s.status.busy <;> simp [hr]


/-! ## refuse -/

@[simp] theorem State.refuse_status (s : State) (code : CC) : (s.refuse code).status = s.status.refuse code := rfl
@[simp] theorem State.refuse_key (s : State) (code : CC) : (s.refuse code).key = s.key := rfl
@[simp] theorem State.refuse_iv (s : State) (code : CC) : (s.refuse code).iv = s.iv := rfl
@[simp] theorem State.refuse_dataPtr (s : State) (code : CC) : (s.refuse code).dataPtr = s.dataPtr := rfl
@[simp] theorem State.refuse_len (s : State) (code : CC) : (s.refuse code).len = s.len := rfl
@[simp] theorem State.refuse_result (s : State) (code : CC) : (s.refuse code).result = 0 := rfl
@[simp] theorem State.refuse_ds (s : State) (code : CC) : (s.refuse code).ds = s.ds := rfl
@[simp] theorem State.refuse_work (s : State) (code : CC) : (s.refuse code).work = s.work := rfl
@[simp] theorem State.refuse_phase (s : State) (code : CC) : (s.refuse code).phase = .idle := rfl
@[simp] theorem State.refuse_cmd (s : State) (code : CC) : (s.refuse code).cmd = none := rfl
@[simp] theorem State.refuse_mem (s : State) (code : CC) : (s.refuse code).mem = s.mem := rfl
@[simp] theorem State.refuse_map (s : State) (code : CC) : (s.refuse code).map = s.map := rfl
@[simp] theorem State.refuse_widths (s : State) (code : CC) : (s.refuse code).widths = s.widths := rfl
@[simp] theorem State.refuse_trespass (s : State) (code : CC) : (s.refuse code).trespass = false := rfl
@[simp] theorem State.refuse_unseen (s : State) (code : CC) : (s.refuse code).unseen = s.window.toList ++ s.unseen := rfl
@[simp] theorem State.refuse_turns (s : State) (code : CC) : (s.refuse code).turns = s.turns := rfl
@[simp] theorem State.refuse_rdata (s : State) (code : CC) : (s.refuse code).rdata = s.rdata := rfl
@[simp] theorem State.refuse_pace (s : State) (code : CC) : (s.refuse code).pace = s.pace := rfl
@[simp] theorem State.refuse_draws (s : State) (code : CC) : (s.refuse code).draws = s.draws := rfl

/-! ## refuseBus -/

@[simp] theorem State.refuseBus_status (s : State) (c : Cfg) (n : Nat) : (s.refuseBus c n).status = s.status.refuse .eBus := by
  simp only [State.refuseBus, State.loseRange, State.toIdle, State.window]
@[simp] theorem State.refuseBus_key (s : State) (c : Cfg) (n : Nat) : (s.refuseBus c n).key = s.key := by
  simp only [State.refuseBus, State.loseRange, State.toIdle, State.window]
@[simp] theorem State.refuseBus_iv (s : State) (c : Cfg) (n : Nat) : (s.refuseBus c n).iv = s.iv := by
  simp only [State.refuseBus, State.loseRange, State.toIdle, State.window]
@[simp] theorem State.refuseBus_dataPtr (s : State) (c : Cfg) (n : Nat) : (s.refuseBus c n).dataPtr = s.dataPtr := by
  simp only [State.refuseBus, State.loseRange, State.toIdle, State.window]
@[simp] theorem State.refuseBus_len (s : State) (c : Cfg) (n : Nat) : (s.refuseBus c n).len = s.len := by
  simp only [State.refuseBus, State.loseRange, State.toIdle, State.window]
@[simp] theorem State.refuseBus_result (s : State) (c : Cfg) (n : Nat) : (s.refuseBus c n).result = drawNumber c.lenw .result s.draws := by
  simp only [State.refuseBus, State.loseRange, State.toIdle, State.window]
@[simp] theorem State.refuseBus_ds (s : State) (c : Cfg) (n : Nat) : (s.refuseBus c n).ds = s.ds := by
  simp only [State.refuseBus, State.loseRange, State.toIdle, State.window]
@[simp] theorem State.refuseBus_work (s : State) (c : Cfg) (n : Nat) : (s.refuseBus c n).work = s.work := by
  simp only [State.refuseBus, State.loseRange, State.toIdle, State.window]
@[simp] theorem State.refuseBus_phase (s : State) (c : Cfg) (n : Nat) : (s.refuseBus c n).phase = .idle := by
  simp only [State.refuseBus, State.loseRange, State.toIdle, State.window]
@[simp] theorem State.refuseBus_cmd (s : State) (c : Cfg) (n : Nat) : (s.refuseBus c n).cmd = none := by
  simp only [State.refuseBus, State.loseRange, State.toIdle, State.window]
@[simp] theorem State.refuseBus_mem (s : State) (c : Cfg) (n : Nat) : (s.refuseBus c n).mem = s.mem.unspecify c s.work.ptr n s.draws := by
  simp only [State.refuseBus, State.loseRange, State.toIdle, State.window]
@[simp] theorem State.refuseBus_map (s : State) (c : Cfg) (n : Nat) : (s.refuseBus c n).map = s.map := by
  simp only [State.refuseBus, State.loseRange, State.toIdle, State.window]
@[simp] theorem State.refuseBus_widths (s : State) (c : Cfg) (n : Nat) : (s.refuseBus c n).widths = s.widths := by
  simp only [State.refuseBus, State.loseRange, State.toIdle, State.window]
@[simp] theorem State.refuseBus_trespass (s : State) (c : Cfg) (n : Nat) : (s.refuseBus c n).trespass = false := by
  simp only [State.refuseBus, State.loseRange, State.toIdle, State.window]
@[simp] theorem State.refuseBus_unseen (s : State) (c : Cfg) (n : Nat) : (s.refuseBus c n).unseen = s.window.toList ++ s.unseen := by
  simp only [State.refuseBus, State.loseRange, State.toIdle, State.window]
@[simp] theorem State.refuseBus_turns (s : State) (c : Cfg) (n : Nat) : (s.refuseBus c n).turns = s.turns := by
  simp only [State.refuseBus, State.loseRange, State.toIdle, State.window]
@[simp] theorem State.refuseBus_rdata (s : State) (c : Cfg) (n : Nat) : (s.refuseBus c n).rdata = s.rdata := by
  simp only [State.refuseBus, State.loseRange, State.toIdle, State.window]
@[simp] theorem State.refuseBus_pace (s : State) (c : Cfg) (n : Nat) : (s.refuseBus c n).pace = s.pace := by
  simp only [State.refuseBus, State.loseRange, State.toIdle, State.window]
@[simp] theorem State.refuseBus_draws (s : State) (c : Cfg) (n : Nat) : (s.refuseBus c n).draws = s.draws + 1 := by
  simp only [State.refuseBus, State.loseRange, State.toIdle, State.window]

/-! ## accept -/

@[simp] theorem State.accept_status (s : State) (cmd : Command) : (s.accept cmd).status = s.status.accept := by cases cmd <;> rfl
@[simp] theorem State.accept_key (s : State) (cmd : Command) : (s.accept cmd).key = s.key := by cases cmd <;> rfl
@[simp] theorem State.accept_iv (s : State) (cmd : Command) : (s.accept cmd).iv = s.iv := by cases cmd <;> rfl
@[simp] theorem State.accept_dataPtr (s : State) (cmd : Command) : (s.accept cmd).dataPtr = s.dataPtr := by cases cmd <;> rfl
@[simp] theorem State.accept_len (s : State) (cmd : Command) : (s.accept cmd).len = s.len := by cases cmd <;> rfl
@[simp] theorem State.accept_result (s : State) (cmd : Command) : (s.accept cmd).result = s.result := by cases cmd <;> rfl
@[simp] theorem State.accept_ds (s : State) (cmd : Command) : (s.accept cmd).ds = s.ds := by cases cmd <;> rfl
@[simp] theorem State.accept_work (s : State) (cmd : Command) : (s.accept cmd).work = (s.sample cmd).work := by cases cmd <;> rfl
@[simp] theorem State.accept_phase (s : State) (cmd : Command) : (s.accept cmd).phase = firstPhase cmd := by cases cmd <;> rfl
@[simp] theorem State.accept_cmd (s : State) (cmd : Command) : (s.accept cmd).cmd = some cmd := by cases cmd <;> rfl
@[simp] theorem State.accept_mem (s : State) (cmd : Command) : (s.accept cmd).mem = s.mem := by cases cmd <;> rfl
@[simp] theorem State.accept_map (s : State) (cmd : Command) : (s.accept cmd).map = s.map := by cases cmd <;> rfl
@[simp] theorem State.accept_widths (s : State) (cmd : Command) : (s.accept cmd).widths = s.widths := by cases cmd <;> rfl
@[simp] theorem State.accept_trespass (s : State) (cmd : Command) : (s.accept cmd).trespass = false := by cases cmd <;> rfl
@[simp] theorem State.accept_unseen (s : State) (cmd : Command) : (s.accept cmd).unseen = s.unseen := by cases cmd <;> rfl
@[simp] theorem State.accept_turns (s : State) (cmd : Command) : (s.accept cmd).turns = s.turns := by cases cmd <;> rfl
@[simp] theorem State.accept_rdata (s : State) (cmd : Command) : (s.accept cmd).rdata = s.rdata := by cases cmd <;> rfl
@[simp] theorem State.accept_pace (s : State) (cmd : Command) : (s.accept cmd).pace = s.pace := by cases cmd <;> rfl
@[simp] theorem State.accept_draws (s : State) (cmd : Command) : (s.accept cmd).draws = s.draws := by cases cmd <;> rfl

@[simp] theorem State.sample_ksched (s : State) : (s.sample .ksched).work = { s.work with keyc := s.key } := rfl
@[simp] theorem State.sample_encrypt (s : State) :
    (s.sample .encrypt).work = { s.work with prev := s.iv, ptr := s.dataPtr, n := s.len } := rfl
@[simp] theorem State.sample_decrypt (s : State) :
    (s.sample .decrypt).work = { s.work with prev := s.iv, ptr := s.dataPtr, n := s.len } := rfl

/-! ## STATUS -/

@[simp] theorem Status.accept_busy (s : Status) : s.accept.busy = true := rfl
@[simp] theorem Status.accept_keyed (s : Status) : s.accept.keyed = s.keyed := rfl
@[simp] theorem Status.accept_done (s : Status) : s.accept.done = false := rfl
@[simp] theorem Status.accept_fault (s : Status) : s.accept.fault = s.fault := rfl
@[simp] theorem Status.accept_cc (s : Status) : s.accept.cc = s.cc := rfl
@[simp] theorem Status.drop_busy (s : Status) : s.drop.busy = s.busy := rfl
@[simp] theorem Status.drop_keyed (s : Status) : s.drop.keyed = s.keyed := rfl
@[simp] theorem Status.drop_done (s : Status) : s.drop.done = s.done := rfl
@[simp] theorem Status.drop_fault (s : Status) : s.drop.fault = true := rfl
@[simp] theorem Status.drop_cc (s : Status) : s.drop.cc = s.cc := rfl
@[simp] theorem Status.complete_busy (s : Status) : s.complete.busy = false := rfl
@[simp] theorem Status.complete_keyed (s : Status) : s.complete.keyed = s.keyed := rfl
@[simp] theorem Status.complete_done (s : Status) : s.complete.done = true := rfl
@[simp] theorem Status.complete_fault (s : Status) : s.complete.fault = s.fault := rfl
@[simp] theorem Status.complete_cc (s : Status) : s.complete.cc = .ok := rfl
@[simp] theorem Status.setKeyed_busy (s : Status) : s.setKeyed.busy = s.busy := rfl
@[simp] theorem Status.setKeyed_keyed (s : Status) : s.setKeyed.keyed = true := rfl
@[simp] theorem Status.setKeyed_done (s : Status) : s.setKeyed.done = s.done := rfl
@[simp] theorem Status.setKeyed_fault (s : Status) : s.setKeyed.fault = s.fault := rfl
@[simp] theorem Status.setKeyed_cc (s : Status) : s.setKeyed.cc = s.cc := rfl
@[simp] theorem Status.clearKeyed_busy (s : Status) : s.clearKeyed.busy = s.busy := rfl
@[simp] theorem Status.clearKeyed_keyed (s : Status) : s.clearKeyed.keyed = false := rfl
@[simp] theorem Status.clearKeyed_done (s : Status) : s.clearKeyed.done = s.done := rfl
@[simp] theorem Status.clearKeyed_fault (s : Status) : s.clearKeyed.fault = s.fault := rfl
@[simp] theorem Status.clearKeyed_cc (s : Status) : s.clearKeyed.cc = s.cc := rfl
@[simp] theorem Status.refuse_busy (s : Status) (code : CC) : (s.refuse code).busy = false := rfl
@[simp] theorem Status.refuse_keyed (s : Status) (code : CC) : (s.refuse code).keyed = s.keyed := rfl
@[simp] theorem Status.refuse_done (s : Status) (code : CC) : (s.refuse code).done = true := rfl
@[simp] theorem Status.refuse_fault (s : Status) (code : CC) : (s.refuse code).fault = true := rfl
@[simp] theorem Status.refuse_cc (s : Status) (code : CC) : (s.refuse code).cc = code := rfl

end Sys2Proof.Machine
end

