-- ==== Sys2Proof/Laws/Memory.lean ====
section
/-! SUPPORT. Laws/Memory.lean: read after write, the frame of every write, and the canonical form kept by every memory
operation. -/

namespace Sys2Proof.Machine

/-! ## The canonical form -/

theorem Memory.wfFrom_cons {lo a : Nat} {v : Byte} {rest : Memory} :
    Memory.wfFrom lo ((a, v) :: rest) = true ↔ lo ≤ a ∧ v ≠ Memory.blank ∧ Memory.wfFrom (a + 1) rest = true := by
  simp [Memory.wfFrom, and_assoc]

theorem Memory.wfFrom_mono {lo lo' : Nat} (h : lo' ≤ lo) :
    ∀ {m : Memory}, Memory.wfFrom lo m = true → Memory.wfFrom lo' m = true
  | [], _ => rfl
  | (_, _) :: _, hm =>
    have ⟨h₁, h₂, h₃⟩ := Memory.wfFrom_cons.mp hm
    Memory.wfFrom_cons.mpr ⟨le_trans h h₁, h₂, h₃⟩

theorem Memory.wfFrom_write {lo a : Nat} {v : Byte} (ha : lo ≤ a) {m : Memory} (hm : Memory.wfFrom lo m = true) :
    Memory.wfFrom lo (Memory.write m a v) = true := by
  induction m generalizing lo with
  | nil =>
    by_cases hv : v = Memory.blank <;> simp [Memory.write, hv, Memory.wfFrom, ha]
  | cons head rest ih =>
    obtain ⟨b, w⟩ := head
    have ⟨h₁, h₂, h₃⟩ := Memory.wfFrom_cons.mp hm
    unfold Memory.write
    split
    · next hab =>
      split
      · exact hm
      · next hv => exact Memory.wfFrom_cons.mpr ⟨ha, hv, Memory.wfFrom_cons.mpr ⟨hab, h₂, h₃⟩⟩
    · split
      · next hab =>
        subst hab
        split
        · exact Memory.wfFrom_mono (Nat.le_succ_of_le h₁) h₃
        · next hv => exact Memory.wfFrom_cons.mpr ⟨ha, hv, h₃⟩
      · next hlt hne => exact Memory.wfFrom_cons.mpr ⟨h₁, h₂, ih (by omega) h₃⟩

/-- Writing a byte keeps the canonical form. -/
theorem Memory.wf_write {m : Memory} (a : Nat) (v : Byte) (hm : m.wf = true) : (m.write a v).wf = true :=
  Memory.wfFrom_write (Nat.zero_le a) hm

/-- A property that every one-byte write keeps holds after a loop of writes. -/
theorem fold_keeps {α : Type} (P : α → Prop) (n : Nat) (f : (i : Nat) → i < n → α → α)
    (step : ∀ i h x, P x → P (f i h x)) (x : α) (hx : P x) : P (Nat.fold n f x) := by
  induction n with
  | zero => simpa using hx
  | succ n ih =>
    rw [Nat.fold_succ]
    exact step _ _ _ (ih (fun i h => f i (Nat.lt_succ_of_lt h)) (fun i h x => step i _ x))

/-- Writing a block keeps the canonical form. -/
theorem Memory.wf_writeBlock {m : Memory} (a : Nat) (b : Block) (hm : m.wf = true) : (m.writeBlock a b).wf = true :=
  fold_keeps (fun m : Memory => m.wf = true) 16 _ (fun i _ _ h => Memory.wf_write (a + i) _ h) m hm

/-- Writing a list of bytes keeps the canonical form. -/
theorem Memory.wf_writeBytes {m : Memory} (a : Nat) (bytes : List Byte) (hm : m.wf = true) :
    (m.writeBytes a bytes).wf = true := by
  induction bytes generalizing m a with
  | nil => exact hm
  | cons v rest ih => exact ih (a + 1) (Memory.wf_write a v hm)

/-- Leaving a range unspecified keeps the canonical form. -/
theorem Memory.wf_unspecify {m : Memory} (c : Cfg) (a n k : Nat) (hm : m.wf = true) :
    (m.unspecify c a n k).wf = true := by
  refine fold_keeps (fun m : Memory => m.wf = true) n _ (fun i _ x h => ?_) m hm
  split
  · exact Memory.wf_write _ _ h
  · exact h

/-- The memory of the state after reset is in its canonical form. -/
theorem reset_mem_wf : State.reset.mem.wf = true := rfl

/-! ## Read after write -/

@[simp] theorem Memory.read_nil (a : Nat) : Memory.read [] a = Memory.blank := rfl

theorem Memory.read_cons (b : Nat) (v : Byte) (rest : Memory) (a : Nat) :
    Memory.read ((b, v) :: rest) a = if a = b then v else Memory.read rest a := rfl

theorem Memory.read_below {lo a : Nat} (ha : a < lo) :
    ∀ {m : Memory}, Memory.wfFrom lo m = true → m.read a = Memory.blank
  | [], _ => rfl
  | (b, w) :: rest, hm => by
    have ⟨h₁, _, h₃⟩ := Memory.wfFrom_cons.mp hm
    rw [Memory.read_cons, if_neg (by omega)]
    exact Memory.read_below (by omega) h₃

theorem Memory.read_write_same_from {lo a : Nat} {v : Byte} {m : Memory} (hm : Memory.wfFrom lo m = true) :
    (m.write a v).read a = v := by
  induction m generalizing lo with
  | nil => by_cases hv : v = Memory.blank <;> simp [Memory.write, hv, Memory.read_cons]
  | cons head rest ih =>
    obtain ⟨b, w⟩ := head
    have ⟨h₁, h₂, h₃⟩ := Memory.wfFrom_cons.mp hm
    unfold Memory.write
    split
    · next hab =>
      split
      · next hv =>
        rw [Memory.read_cons, if_neg (by omega), hv]
        exact Memory.read_below (by omega) h₃
      · simp [Memory.read_cons]
    · split
      · next hab =>
        subst hab
        split
        · next hv => rw [hv]; exact Memory.read_below (Nat.lt_succ_self a) h₃
        · simp [Memory.read_cons]
      · next hlt hne => rw [Memory.read_cons, if_neg hne]; exact ih h₃

/-- A read after a write to the same address gives the byte written (R67). -/
theorem Memory.read_write_same {m : Memory} (hm : m.wf = true) (a : Nat) (v : Byte) : (m.write a v).read a = v :=
  Memory.read_write_same_from hm

/-- A write leaves every other address as it was (R67). -/
theorem Memory.read_write_other (m : Memory) {a x : Nat} (v : Byte) (h : x ≠ a) : (m.write a v).read x = m.read x := by
  induction m with
  | nil => by_cases hv : v = Memory.blank <;> simp [Memory.write, hv, Memory.read_cons, h]
  | cons head rest ih =>
    obtain ⟨b, w⟩ := head
    unfold Memory.write
    split
    · split
      · rfl
      · rw [Memory.read_cons, if_neg h]
    · split
      · next hab =>
        subst hab
        split <;> simp [Memory.read_cons, h]
      · rw [Memory.read_cons, Memory.read_cons, ih]

/-! ## Ranges -/

/-- A loop of writes below `n` leaves an address it does not write as it was. -/
theorem fold_write_other (n a x : Nat) (hx : x < a ∨ a + n ≤ x) (v : (i : Nat) → i < n → Memory → Byte)
    (p : Nat → Bool) (m : Memory) :
    (Nat.fold n (fun i h (m : Memory) => if p i then m.write (a + i) (v i h m) else m) m).read x = m.read x := by
  induction n with
  | zero => simp
  | succ n ih =>
    rw [Nat.fold_succ]
    by_cases hp : p n
    · rw [if_pos hp, Memory.read_write_other _ _ (by omega)]
      exact ih (by omega) (fun i h => v i (Nat.lt_succ_of_lt h))
    · rw [if_neg hp]
      exact ih (by omega) (fun i h => v i (Nat.lt_succ_of_lt h))

/-- Writing a block leaves every address outside it as it was (R11). -/
theorem Memory.read_writeBlock_outside (m : Memory) (a : Nat) (b : Block) {x : Nat} (hx : Outside a 16 x) :
    (m.writeBlock a b).read x = m.read x := by
  have h := fold_write_other 16 a x hx (fun i _ _ => b[i]) (fun _ => true) m
  simpa [Memory.writeBlock] using h

/-- Reading a position of a block just written gives the byte of that position (R11, R67). -/
theorem Memory.read_writeBlock_inside {m : Memory} (hm : m.wf = true) (a : Nat) (b : Block) (i : Fin 16) :
    (m.writeBlock a b).read (a + i) = b[i] := by
  suffices h : ∀ k (hk : k ≤ 16), i.val < k →
      (Nat.fold k (fun j hj (m : Memory) => m.write (a + j) b[j]) m).wf = true ∧
      (Nat.fold k (fun j hj (m : Memory) => m.write (a + j) b[j]) m).read (a + i) = b[i] from
    (h 16 le_rfl i.isLt).2
  intro k hk
  induction k with
  | zero => intro h; omega
  | succ k ih =>
    intro hi
    have hw : (Nat.fold k (fun j hj (m : Memory) => m.write (a + j) b[j]) m).wf = true :=
      fold_keeps (fun m : Memory => m.wf = true) k _ (fun j _ _ h => Memory.wf_write (a + j) _ h) m hm
    rw [Nat.fold_succ]
    refine ⟨Memory.wf_write _ _ hw, ?_⟩
    by_cases he : i.val = k
    · subst he; exact Memory.read_write_same hw _ _
    · rw [Memory.read_write_other _ _ (by omega)]; exact (ih (by omega) (by omega)).2

/-- Position `i` of a block read is the byte at `a + i` (R11). -/
@[simp] theorem Memory.readBlock_get (m : Memory) (a i : Nat) (hi : i < 16) : (m.readBlock a)[i] = m.read (a + i) := by
  simp only [Memory.readBlock, Vector.getElem_ofFn]

/-- Reading back a block just written gives that block (R67). -/
theorem Memory.readBlock_writeBlock {m : Memory} (hm : m.wf = true) (a : Nat) (b : Block) :
    (m.writeBlock a b).readBlock a = b :=
  Vector.ext fun i hi => by
    rw [Memory.readBlock_get]
    exact Memory.read_writeBlock_inside hm a b ⟨i, hi⟩

/-- Leaving a range unspecified changes no byte outside it (R249, R271). -/
theorem Memory.read_unspecify_outside (m : Memory) (c : Cfg) (a n k : Nat) {x : Nat}
    (hx : Outside a n x) : (m.unspecify c a n k).read x = m.read x := by
  have h := fold_write_other n a x hx (fun i _ _ => BitVec.ofNat 8 (Config.free .buffer k i))
    (fun i => decide (a + i < 2 ^ c.aw)) m
  simpa [Memory.unspecify] using h

/-- Writing a list of bytes leaves every address outside it as it was (R11). -/
theorem Memory.read_writeBytes_outside (m : Memory) (a : Nat) (bytes : List Byte) {x : Nat}
    (hx : Outside a bytes.length x) : (m.writeBytes a bytes).read x = m.read x := by
  induction bytes generalizing m a with
  | nil => rfl
  | cons v rest ih =>
    have hl : (v :: rest).length = rest.length + 1 := rfl
    rw [Memory.writeBytes, ih _ (a + 1) (by omega), Memory.read_write_other _ _ (by omega)]

end Sys2Proof.Machine
end

