-- ==== Sys2Proof/Laws/Access.lean ====
section
/-! SUPPORT. Laws/Access.lean: what an access can come to (R66 to R68), and what a phase that makes one can come to. -/

namespace Sys2Proof.Machine

/-! ## Admission -/

/-- Where a write is admitted a read is, too: only ordinary memory takes writes (R68). -/
theorem accessByte_read_of_write {c : Cfg} {map : List Region} {a : Nat}
    (h : accessByte c map .write a = .admitted) (dir : Dir) : accessByte c map dir a = .admitted := by
  unfold accessByte at h ⊢
  split at h
  · cases h
  · next hlt =>
    rw [if_neg hlt]
    rcases hr : regionAt map a with _ | kind
    · rw [hr] at h; cases h
    · rw [hr] at h
      cases kind
      · rfl
      · cases h
      · cases h

/-- A group all of whose bytes are admitted is admitted (R66). -/
theorem accessRange_admitted {c : Cfg} {map : List Region} {dir : Dir} {a n : Nat}
    (h : ∀ k, k < n → accessByte c map dir (a + k) = .admitted) : accessRange c map dir a n = .admitted := by
  unfold accessRange
  induction n with
  | zero => rfl
  | succ n ih =>
    rw [Nat.fold_succ, ih (fun k hk => h k (by omega)), h n (by omega)]
    rfl

/-- A group that is admitted has all its bytes admitted (R66). -/
theorem accessRange_bytes {c : Cfg} {map : List Region} {dir : Dir} {a n : Nat}
    (h : accessRange c map dir a n = .admitted) : ∀ k, k < n → accessByte c map dir (a + k) = .admitted := by
  unfold accessRange at h
  induction n with
  | zero => intro k hk; omega
  | succ n ih =>
    rw [Nat.fold_succ] at h
    generalize hx : Nat.fold n _ _ = x at h
    generalize hy : accessByte c map dir (a + n) = y at h
    have hxa : x = .admitted := by cases x <;> cases y <;> first | rfl | cases h
    have hya : y = .admitted := by cases x <;> cases y <;> first | rfl | cases h
    intro k hk
    by_cases he : k = n
    · rw [he, hy, hya]
    · exact ih (by rw [hx, hxa]) k (by omega)

/-- Ordinary memory takes every access, in both directions (R67, R68). -/
theorem Ram.accessRange {c : Cfg} {map : List Region} {a n : Nat} (h : Ram c map a n) (dir : Dir) {b k : Nat}
    (hb : a ≤ b) (hk : b + k ≤ a + n) : accessRange c map dir b k = .admitted :=
  accessRange_admitted fun i hi => by
    have := accessByte_read_of_write (h (b + i - a) (by omega)) dir
    rwa [show a + (b + i - a) = b + i by omega] at this

/-! ## Runs -/

@[simp] theorem Run.bind_go (s : State) (f : State → Run) : (Run.go s).bind f = f s := rfl
@[simp] theorem Run.bind_bus (s : State) (f : State → Run) : (Run.bus s).bind f = .bus s := rfl
@[simp] theorem Run.bind_device (a : Nat) (f : State → Run) : (Run.device a).bind f = .device a := rfl

theorem Run.bind_assoc (r : Run) (f g : State → Run) : (r.bind f).bind g = r.bind fun s => (f s).bind g := by
  cases r <;> rfl

@[simp] theorem Run.settle_go (c : Cfg) (n : Nat) (s : State) : (Run.go s).settle c n = .next s := rfl
@[simp] theorem Run.settle_bus (c : Cfg) (n : Nat) (s : State) :
    (Run.bus s).settle c n = .next ((s.refuseBus c n).retire c) := rfl
@[simp] theorem Run.settle_device (c : Cfg) (n a : Nat) : (Run.device a).settle c n = .refused (.deviceBuffer a) := rfl

/-- A run that settles in a next state went on to its end, or stopped at an access that was not admitted (R249). -/
theorem Run.settle_eq_next {c : Cfg} {n : Nat} {r : Run} {t : State} (h : r.settle c n = .next t) :
    r = .go t ∨ ∃ s, r = .bus s ∧ t = (s.refuseBus c n).retire c := by
  cases r with
  | go s => exact .inl (by cases h; rfl)
  | bus s => exact .inr ⟨s, rfl, by cases h; rfl⟩
  | device a => cases h

/-- What an access can come to: it is admitted and the state is as it was, it is not admitted, or it reaches a device. -/
theorem reach_cases (c : Cfg) (dir : Dir) (a n : Nat) (s : State) :
    (accessRange c s.map dir a n = .admitted ∧ reach c dir a n s = .go s) ∨
    (accessRange c s.map dir a n = .bus ∧ reach c dir a n s = .bus s) ∨
    ∃ addr, accessRange c s.map dir a n = .device addr ∧ reach c dir a n s = .device addr := by
  unfold reach
  cases h : accessRange c s.map dir a n with
  | admitted => exact .inl ⟨rfl, rfl⟩
  | bus => exact .inr (.inl ⟨rfl, rfl⟩)
  | device addr => exact .inr (.inr ⟨addr, rfl, rfl⟩)

/-- An access to ordinary memory is admitted. -/
theorem reach_ram {c : Cfg} {s : State} {a n : Nat} (h : Ram c s.map a n) (dir : Dir) {b k : Nat} (hb : a ≤ b)
    (hk : b + k ≤ a + n) : reach c dir b k s = .go s := by
  unfold reach
  rw [h.accessRange dir hb hk]

/-! ## The end of a command whose host broke its duty -/

/-- Where the host kept its duty H8 nothing is lost, and where it broke it RESULT and the buffer are (R71). -/
theorem State.loseIfTrespassed_cases (c : Cfg) (s : State) :
    (s.trespass = false ∧ s.loseIfTrespassed c = s) ∨
    (s.trespass = true ∧ s.loseIfTrespassed c = s.loseRange c s.work.ptr s.extent) := by
  unfold State.loseIfTrespassed
  cases h : s.trespass
  · exact .inl ⟨rfl, rfl⟩
  · exact .inr ⟨rfl, rfl⟩

/-- Where the host kept its duty H8 nothing is lost (R71). -/
theorem State.loseIfTrespassed_kept (c : Cfg) {s : State} (h : s.trespass = false) : s.loseIfTrespassed c = s := by
  unfold State.loseIfTrespassed
  rw [h]
  rfl

/-- The end of a command loses no byte outside its buffer (R71). -/
theorem State.read_loseIfTrespassed_outside (c : Cfg) (s : State) {x : Nat} (hx : Outside s.work.ptr s.extent x) :
    (s.loseIfTrespassed c).mem.read x = s.mem.read x := by
  rcases s.loseIfTrespassed_cases c with ⟨_, h⟩ | ⟨_, h⟩ <;> rw [h]
  rw [State.loseRange_mem]
  exact Memory.read_unspecify_outside _ _ _ _ _ hx

/-- The end of a command keeps the canonical form of memory. -/
theorem State.wf_loseIfTrespassed (c : Cfg) {s : State} (hm : s.mem.wf = true) : (s.loseIfTrespassed c).mem.wf = true := by
  rcases s.loseIfTrespassed_cases c with ⟨_, h⟩ | ⟨_, h⟩ <;> rw [h]
  · exact hm
  · rw [State.loseRange_mem]
    exact Memory.wf_unspecify _ _ _ _ hm

/-! ## The host and what it is barred from -/

/-- A host access that meets no window of an ended command costs nothing (R71). -/
theorem State.loseUnseen_kept (c : Cfg) {s : State} {a n : Nat} (h : ¬ meetsUnseen s a n) : s.loseUnseen c a n = s :=
  State.loseUnseen_keeps (P := fun t => t = s) c a n rfl fun _ w hw hm => absurd ⟨w, hw, hm⟩ h

/-- What a host access costs is RESULT and memory in the buffers it meets, and no other byte (R71, R280). -/
theorem State.read_loseUnseen_outside (c : Cfg) (s : State) (a n : Nat) {x : Nat}
    (hx : ∀ w ∈ s.unseen, w.meets a n → Outside w.base w.buffer x) : (s.loseUnseen c a n).mem.read x = s.mem.read x :=
  State.loseUnseen_keeps (P := fun t => t.mem.read x = s.mem.read x) c a n rfl fun t w hw hm ht => by
    rw [State.loseRange_mem, Memory.read_unspecify_outside _ _ _ _ _ (hx w hw hm), ht]

/-- What a host access costs keeps the canonical form of memory. -/
theorem State.wf_loseUnseen (c : Cfg) {s : State} (a n : Nat) (hm : s.mem.wf = true) :
    (s.loseUnseen c a n).mem.wf = true :=
  State.loseUnseen_keeps (P := fun t => t.mem.wf = true) c a n hm fun t w _ _ ht => by
    rw [State.loseRange_mem]
    exact Memory.wf_unspecify _ _ _ _ ht

/-- What a host access costs leaves RESULT within its width (R35). -/
theorem State.result_loseUnseen (c : Cfg) {s : State} (a n : Nat) (hr : s.result < 2 ^ c.lenw) :
    (s.loseUnseen c a n).result < 2 ^ c.lenw :=
  State.loseUnseen_keeps (P := fun t => t.result < 2 ^ c.lenw) c a n hr fun t w _ _ _ => by
    rw [State.loseRange_result]
    exact Nat.mod_lt _ (Nat.two_pow_pos _)

/-- A byte that no cost of a host write can reach reads as the write left it (R67, R71). -/
theorem State.read_hostWrite (c : Cfg) (s : State) (a : Nat) (bytes : List Byte) {x : Nat}
    (hx : ∀ w ∈ s.unseen, w.meets a bytes.length → Outside w.base w.buffer x) :
    (s.hostWrite c a bytes).mem.read x = (s.mem.writeBytes a bytes).read x :=
  State.read_loseUnseen_outside c _ a bytes.length hx

/-- A host write that meets no window of an ended command leaves RESULT as it was and makes no draw (R67, R71). -/
theorem State.hostWrite_kept (c : Cfg) {s : State} {a : Nat} {bytes : List Byte} (h : ¬ meetsUnseen s a bytes.length) :
    (s.hostWrite c a bytes).result = s.result ∧ (s.hostWrite c a bytes).draws = s.draws :=
  State.loseUnseen_keeps (P := fun t => t.result = s.result ∧ t.draws = s.draws) c a bytes.length ⟨rfl, rfl⟩
    fun _ w hw hm => absurd ⟨w, hw, hm⟩ h

/-- A host write keeps the canonical form of memory. -/
theorem State.wf_hostWrite (c : Cfg) {s : State} (a : Nat) (bytes : List Byte) (hm : s.mem.wf = true) :
    (s.hostWrite c a bytes).mem.wf = true :=
  State.wf_loseUnseen c a _ (Memory.wf_writeBytes a bytes hm)

/-! ## What a phase keeps, however it ends -/

/-- A property of the state a run has come to, whether it went on or stopped at an access. -/
def Run.All (P : State → Prop) : Run → Prop
  | .go s => P s
  | .bus s => P s
  | .device _ => True

theorem Run.All.bind {P Q : State → Prop} {r : Run} {f : State → Run} (hr : r.All P) (hf : ∀ s, P s → (f s).All Q)
    (hQ : ∀ s, P s → Q s) : (r.bind f).All Q := by
  cases r with
  | go s => exact hf s hr
  | bus s => exact hQ s hr
  | device a => trivial

theorem reach_all {P : State → Prop} (c : Cfg) (dir : Dir) (a n : Nat) {s : State} (h : P s) :
    (reach c dir a n s).All P := by
  rcases reach_cases c dir a n s with ⟨_, h'⟩ | ⟨_, h'⟩ | ⟨addr, _, h'⟩ <;> rw [h']
  · exact h
  · exact h
  · trivial

end Sys2Proof.Machine
end

