-- ==== Sys2Proof/Laws/Cbc.lean ====
section
/-! SUPPORT. Laws/Cbc.lean: the frame of every phase that accesses memory, said once: what it leaves unchanged whether it
runs to its end or stops at an access that is not admitted. -/

namespace Sys2Proof.Machine

/-- What the phases of ENCRYPT and DECRYPT share of the state they start from: everything but memory inside the first
`n` bytes of the buffer, RESULT, and the working registers BLK, PREV, SAVE, OFF, RND and IDX. -/
structure CbcFrame (n : Nat) (s t : State) : Prop where
  status : t.status = s.status
  key : t.key = s.key
  iv : t.iv = s.iv
  dataPtr : t.dataPtr = s.dataPtr
  len : t.len = s.len
  ds : t.ds = s.ds
  phase : t.phase = s.phase
  cmd : t.cmd = s.cmd
  map : t.map = s.map
  widths : t.widths = s.widths
  trespass : t.trespass = s.trespass
  unseen : t.unseen = s.unseen
  turns : t.turns = s.turns
  rdata : t.rdata = s.rdata
  pace : t.pace = s.pace
  draws : t.draws = s.draws
  keyc : t.work.keyc = s.work.keyc
  ptr : t.work.ptr = s.work.ptr
  count : t.work.n = s.work.n
  g : t.work.g = s.work.g
  padded : t.work.padded = s.work.padded
  mem : ∀ x, Outside s.work.ptr n x → t.mem.read x = s.mem.read x
  wf : s.mem.wf = true → t.mem.wf = true

theorem CbcFrame.rfl' (n : Nat) (s : State) : CbcFrame n s s := by
  constructor <;> intros <;> first | rfl | assumption

theorem CbcFrame.trans {n : Nat} {s t u : State} (h : CbcFrame n s t) (h' : CbcFrame n t u) : CbcFrame n s u where
  status := h'.status.trans h.status
  key := h'.key.trans h.key
  iv := h'.iv.trans h.iv
  dataPtr := h'.dataPtr.trans h.dataPtr
  len := h'.len.trans h.len
  ds := h'.ds.trans h.ds
  phase := h'.phase.trans h.phase
  cmd := h'.cmd.trans h.cmd
  map := h'.map.trans h.map
  widths := h'.widths.trans h.widths
  trespass := h'.trespass.trans h.trespass
  unseen := h'.unseen.trans h.unseen
  turns := h'.turns.trans h.turns
  rdata := h'.rdata.trans h.rdata
  pace := h'.pace.trans h.pace
  draws := h'.draws.trans h.draws
  keyc := h'.keyc.trans h.keyc
  ptr := h'.ptr.trans h.ptr
  count := h'.count.trans h.count
  g := h'.g.trans h.g
  padded := h'.padded.trans h.padded
  mem := fun x hx => (h'.mem x (by rw [h.ptr]; exact hx)).trans (h.mem x hx)
  wf := fun hw => h'.wf (h.wf hw)

/-- A phase that writes working registers alone, none of them an operand copy. -/
theorem CbcFrame.of_work {n : Nat} {s : State} {w : Working} (hk : w.keyc = s.work.keyc) (hp : w.ptr = s.work.ptr)
    (hn : w.n = s.work.n) (hg : w.g = s.work.g) (hd : w.padded = s.work.padded) :
    CbcFrame n s { s with work := w } := by
  constructor <;> intros <;> first | assumption | rfl

theorem frame_setBlk (n : Nat) (s : State) (b : Block) : CbcFrame n s (s.setBlk b) :=
  .of_work rfl rfl rfl rfl rfl
theorem frame_setIdx (n : Nat) (s : State) (i : Nat) : CbcFrame n s (s.setIdx i) :=
  .of_work rfl rfl rfl rfl rfl
theorem frame_setRnd (n : Nat) (s : State) (r : Fin 8) : CbcFrame n s (s.setRnd r) :=
  .of_work rfl rfl rfl rfl rfl
theorem frame_setOff (n : Nat) (s : State) (off : Nat) : CbcFrame n s (s.setOff off) :=
  .of_work rfl rfl rfl rfl rfl
theorem frame_setPrev (n : Nat) (s : State) (b : Block) : CbcFrame n s (s.setPrev b) :=
  .of_work rfl rfl rfl rfl rfl
theorem frame_setSave (n : Nat) (s : State) (b : Block) : CbcFrame n s (s.setSave b) :=
  .of_work rfl rfl rfl rfl rfl

theorem frame_encblk (n : Nat) (s : State) : CbcFrame n s (phaseEncblk s) :=
  ((frame_setBlk n s _).trans (frame_setRnd n _ 7)).trans (frame_setIdx n _ 14)
theorem frame_decblk (n : Nat) (s : State) : CbcFrame n s (phaseDecblk s) :=
  ((frame_setBlk n s _).trans (frame_setRnd n _ 0)).trans (frame_setIdx n _ 0)

theorem frame_setResult (n : Nat) (s : State) (r : Nat) : CbcFrame n s (s.setResult r) := by
  constructor <;> intros <;> first | assumption | rfl

theorem frame_storeByte {n : Nat} (s : State) {k : Nat} (v : Byte) (hk : k < n) :
    CbcFrame n s (s.storeByte (s.work.ptr + k) v) := by
  constructor <;> intros <;> try rfl
  · next x hx => exact Memory.read_write_other _ _ (by omega)
  · next hw => exact Memory.wf_write _ _ hw

theorem frame_storeBlock {n : Nat} (s : State) {k : Nat} (b : Block) (hk : k + 16 ≤ n) :
    CbcFrame n s (s.storeBlock (s.work.ptr + k) b) := by
  constructor <;> intros <;> try (simp only [State.storeBlock]; done)
  · next x hx =>
    simp only [State.storeBlock]
    exact Memory.read_writeBlock_outside _ _ _ (by omega)
  · next hw =>
    simp only [State.storeBlock]
    exact Memory.wf_writeBlock _ _ hw

/-- The run keeps the frame of `s`. -/
abbrev Run.Keeps (n : Nat) (s : State) (r : Run) : Prop := r.All (CbcFrame n s)

theorem Run.Keeps.then {n : Nat} {s : State} {r : Run} {f : State → Run} (hr : r.Keeps n s)
    (hf : ∀ t, CbcFrame n s t → (f t).Keeps n t) : (r.bind f).Keeps n s :=
  Run.All.bind hr
    (fun t ht => by
      have := hf t ht
      revert this
      cases f t with
      | go u => exact fun h => ht.trans h
      | bus u => exact fun h => ht.trans h
      | device a => exact id)
    fun _ ht => ht

theorem reach_keeps (c : Cfg) (dir : Dir) (a k n : Nat) (s : State) : (reach c dir a k s).Keeps n s :=
  reach_all c dir a k (CbcFrame.rfl' n s)

/-- What the rest of a run keeps, the whole run keeps. -/
theorem Run.Keeps.prepend {n : Nat} {s t : State} {r : Run} (h : CbcFrame n s t) (hr : r.Keeps n t) : r.Keeps n s := by
  cases r with
  | go u => exact h.trans hr
  | bus u => exact h.trans hr
  | device a => trivial

/-- The zero fill of PAD writes nothing outside the buffer (R182). -/
theorem zeroFill_keeps (c : Cfg) (n : Nat) : ∀ (count idx : Nat) (s : State), idx + count ≤ n →
    (zeroFill c count idx s).Keeps n s
  | 0, _, s, _ => CbcFrame.rfl' n s
  | count + 1, idx, s, h =>
    (reach_keeps c .write _ 1 n s).then fun t _ =>
      Run.Keeps.prepend ((frame_storeByte t _ (by omega)).trans (frame_setIdx n _ idx))
        (zeroFill_keeps c n count (idx + 1) _ (by omega))

/-- PAD writes nothing outside the padded buffer (R182). -/
theorem phasePad_keeps (c : Cfg) (s : State) (h : s.work.n < s.work.padded) :
    (phasePad c s).Keeps s.work.padded s := by
  refine (reach_keeps c .write _ 1 _ s).then fun t ht => ?_
  have hn := ht.count
  have hp := ht.padded
  have hf : CbcFrame s.work.padded t (t.storeByte (t.work.ptr + t.work.n) 0x80) := frame_storeByte t _ (by omega)
  exact Run.Keeps.prepend hf (zeroFill_keeps c _ _ _ _ (by omega))

theorem storeBlock_keeps (c : Cfg) (n : Nat) (s : State) (h : s.work.off + 16 ≤ n) : (storeBlock c s).Keeps n s := by
  unfold storeBlock
  rcases reach_cases c .write (s.work.ptr + s.work.off) 16 s with ⟨_, h'⟩ | ⟨_, h'⟩ | ⟨addr, _, h'⟩ <;> rw [h']
  · exact frame_storeBlock s _ h
  · exact CbcFrame.rfl' n s
  · trivial

/-- The frame, with OFF kept as well: what the statements of a pass keep between its load and its store. -/
abbrev PassFrame (n : Nat) (s t : State) : Prop := CbcFrame n s t ∧ t.work.off = s.work.off

theorem loadBlock_pass (c : Cfg) (n : Nat) (s : State) : (loadBlock c s).All (PassFrame n s) :=
  Run.All.bind (P := PassFrame n s) (reach_all c .read _ 16 ⟨CbcFrame.rfl' n s, rfl⟩)
    (fun t ht => ⟨ht.1.trans (frame_setBlk n t _), ht.2⟩) fun _ h => h

theorem encLoad_pass (c : Cfg) (n : Nat) (s : State) : (encLoad c s).All (PassFrame n s) :=
  Run.All.bind (loadBlock_pass c n s) (fun t ht => ⟨ht.1.trans (frame_setBlk n t _), ht.2⟩) fun _ h => h

theorem decLoad_pass (c : Cfg) (n : Nat) (s : State) : (decLoad c s).All (PassFrame n s) :=
  Run.All.bind (loadBlock_pass c n s) (fun t ht => ⟨ht.1.trans (frame_setSave n t _), ht.2⟩) fun _ h => h

theorem encStore_keeps (c : Cfg) (n : Nat) (s : State) (h : s.work.off + 16 ≤ n) : (encStore c s).Keeps n s :=
  (storeBlock_keeps c n s h).then fun t _ => frame_setPrev n t _

theorem decStore_keeps (c : Cfg) (n : Nat) (s : State) (h : s.work.off + 16 ≤ n) : (decStore c s).Keeps n s := by
  have hs : (storeBlock c (s.setBlk (xorBlock s.work.blk s.work.prev))).Keeps n
      (s.setBlk (xorBlock s.work.blk s.work.prev)) := storeBlock_keeps c n _ (by rw [State.setBlk_work]; exact h)
  unfold decStore
  exact Run.Keeps.prepend (frame_setBlk n s _) (hs.then fun t _ => frame_setPrev n t _)

/-- One pass of CBC_ENC writes nothing outside its block (R183). -/
theorem encStep_keeps (c : Cfg) (n : Nat) (s : State) (h : s.work.off + 16 ≤ n) : (encStep c s).Keeps n s :=
  Run.All.bind (P := PassFrame n s)
    (Run.All.bind (encLoad_pass c n s) (fun t ht => ⟨ht.1.trans (frame_encblk n t), ht.2⟩) fun _ h => h)
    (fun t ht => Run.Keeps.prepend ht.1 (encStore_keeps c n t (by rw [ht.2]; exact h))) fun _ ht => ht.1

/-- One pass of CBC_DEC writes nothing outside its block (R185). -/
theorem decStep_keeps (c : Cfg) (n : Nat) (s : State) (h : s.work.off + 16 ≤ n) : (decStep c s).Keeps n s :=
  Run.All.bind (P := PassFrame n s)
    (Run.All.bind (decLoad_pass c n s) (fun t ht => ⟨ht.1.trans (frame_decblk n t), ht.2⟩) fun _ h => h)
    (fun t ht => Run.Keeps.prepend ht.1 (decStore_keeps c n t (by rw [ht.2]; exact h))) fun _ ht => ht.1

/-- The passes of CBC_ENC write nothing outside their blocks (R183). -/
theorem encLoop_keeps (c : Cfg) (n : Nat) : ∀ (count : Nat) (s : State), 16 * count ≤ n → (encLoop c count s).Keeps n s
  | 0, s, _ => CbcFrame.rfl' n s
  | b + 1, s, h =>
    (encLoop_keeps c n b s (by omega)).then fun t _ =>
      Run.Keeps.prepend (frame_setOff n t _) (encStep_keeps c n _ (by simp only [State.setOff_work]; omega))

/-- The passes of CBC_DEC write nothing outside their blocks (R185). -/
theorem decLoop_keeps (c : Cfg) (n : Nat) : ∀ (count : Nat) (s : State), 16 * count ≤ n → (decLoop c count s).Keeps n s
  | 0, s, _ => CbcFrame.rfl' n s
  | b + 1, s, h =>
    (decLoop_keeps c n b s (by omega)).then fun t _ =>
      Run.Keeps.prepend (frame_setOff n t _) (decStep_keeps c n _ (by simp only [State.setOff_work]; omega))

/-- CBC_ENC writes nothing outside the first `PADDED` bytes of the buffer (R61, R183). -/
theorem phaseCbcEnc_keeps (c : Cfg) (s : State) : (phaseCbcEnc c s).Keeps s.work.padded s :=
  encLoop_keeps c _ _ s (by omega)

/-- CBC_DEC writes nothing outside the first `N` bytes of the buffer (R61, R185). -/
theorem phaseCbcDec_keeps (c : Cfg) (s : State) : (phaseCbcDec c s).Keeps s.work.n s :=
  decLoop_keeps c _ _ s (by omega)

/-- The scan of UNPAD writes no memory at all (R186). -/
theorem unpadScan_mem (c : Cfg) : ∀ (count : Nat) (s : State), (unpadScan c count s).All fun t => t.mem = s.mem
  | 0, _ => rfl
  | idx + 1, s => by
    unfold unpadScan
    refine Run.All.bind (reach_all (P := fun t => t.mem = s.mem) c .read _ 1 rfl) (fun t ht => ?_) fun _ h => h
    split
    · exact ht
    · rw [← ht]; exact unpadScan_mem c idx (t.setIdx idx)

/-- UNPAD keeps the frame of a phase (R186). -/
theorem unpadScan_keeps (c : Cfg) (n : Nat) : ∀ (count : Nat) (s : State), (unpadScan c count s).Keeps n s
  | 0, s => CbcFrame.rfl' n s
  | idx + 1, s => by
    unfold unpadScan
    refine (reach_keeps c .read _ 1 n s).then fun t _ => ?_
    split
    · exact (frame_setIdx n t _).trans (frame_setResult n _ _)
    · exact Run.Keeps.prepend (frame_setIdx n t _) (unpadScan_keeps c n idx _)

/-- UNPAD writes RESULT and IDX alone (R186). -/
theorem phaseUnpad_keeps (c : Cfg) (s : State) : (phaseUnpad c s).Keeps s.work.n s :=
  Run.Keeps.prepend (frame_setResult _ s _) (unpadScan_keeps c _ _ _)

end Sys2Proof.Machine
end

