-- ==== Sys2Proof/Laws/Round.lean ====
section
/-! SUPPORT. Laws/Round.lean: what each operation on a Block does, position by position (R151 to R157), and the tables
that undo each other (R20). -/

namespace Sys2Proof.Machine

/-- Two blocks that agree at every position are equal. -/
theorem Block.ext {x y : Block} (h : ∀ (i : Nat) (hi : i < 16), x[i] = y[i]) : x = y :=
  Vector.ext h

/-! ## SUB, ISUB, SHIFTR, ISHIFTR, ARK -/

@[simp] theorem subBytes_get (t : Table 8) (b : Block) (i : Nat) (hi : i < 16) :
    (subBytes t b)[i] = lookup t b[i] := by
  simp [subBytes]

@[simp] theorem gatherBytes_get (t : Table 4) (b : Block) (i : Nat) (hi : i < 16) :
    (gatherBytes t b)[i] = b[t[i].toNat]'(t[i].isLt) := by
  simp [gatherBytes]

@[simp] theorem xorBlock_get (x y : Block) (i : Nat) (hi : i < 16) : (xorBlock x y)[i] = x[i] ^^^ y[i] := by
  simp [xorBlock]

/-- XOR with the same block twice is no change (R154). -/
@[simp] theorem xorBlock_cancel (x y : Block) : xorBlock (xorBlock x y) y = x :=
  Block.ext fun i hi => by simp

/-- XOR with the same two blocks in the other order. -/
theorem xorBlock_right_comm (x y z : Block) : xorBlock (xorBlock x y) z = xorBlock (xorBlock x z) y :=
  Block.ext fun i hi => by simp only [xorBlock_get, BitVec.xor_assoc, BitVec.xor_comm y[i]]

/-- Substituting by a table and then by one that inverts it is no change. -/
theorem subBytes_inverse {inv t : Table 8} (h : Inverts inv t) (b : Block) : subBytes inv (subBytes t b) = b :=
  Block.ext fun i hi => by simp [h b[i]]

/-! ## MIX -/

theorem mix_fold_get (m : Byte) (b : Block) : ∀ (k : Nat) (hk : k ≤ 15) (j : Nat) (hj : j < 16),
    (Nat.fold k (fun i (h : i < k) (b : Block) => b.set i (b[i] ^^^ b[i + 1] ^^^ m)) b)[j] =
      if h : j < k then b[j] ^^^ b[j + 1] ^^^ m else b[j]
  | 0, _, j, _ => by simp
  | k + 1, hk, j, hj => by
    have ih := fun j hj => mix_fold_get m b k (by omega) j hj
    rw [Nat.fold_succ, Vector.getElem_set]
    split
    · next h => subst h; rw [ih, ih]; simp
    · next h =>
      rw [ih]
      by_cases hjk : j < k
      · simp [hjk, Nat.lt_succ_of_lt hjk]
      · have hjk' : ¬ j < k + 1 := by omega
        simp [hjk, hjk']

/-- Positions 0 to 14 of MIX: the XOR with the old right neighbour and the constant (R153). -/
theorem mixColumns_get (m : Byte) (b : Block) (i : Nat) (hi : i < 15) :
    (mixColumns m b)[i] = b[i] ^^^ b[i + 1] ^^^ m :=
  (mix_fold_get m b 15 (Nat.le_refl _) i (by omega)).trans (dif_pos hi)

/-- Position 15 of MIX is not written (R153). -/
theorem mixColumns_last (m : Byte) (b : Block) : (mixColumns m b)[15] = b[15] :=
  (mix_fold_get m b 15 (Nat.le_refl _) 15 (by omega)).trans (dif_neg (by omega))

/-! ## IMIX -/

theorem imix_fold_get (m : Byte) : ∀ (k : Nat) (_ : k ≤ 15) (b r : Block),
    r = Nat.foldRev k (fun i (h : i < k) (b : Block) => b.set i (b[i] ^^^ b[i + 1] ^^^ m)) b →
    (∀ (j : Nat) (hj : j < 16), k ≤ j → r[j] = b[j]) ∧
    (∀ (j : Nat) (hj : j < k), r[j] = b[j] ^^^ r[j + 1] ^^^ m)
  | 0, _, b, r, hr => by
    obtain rfl : r = b := by simpa using hr
    exact ⟨fun j hj _ => rfl, fun j hj => absurd hj (by omega)⟩
  | k + 1, hk, b, r, hr => by
    rw [Nat.foldRev_succ] at hr
    obtain ⟨hi, hs⟩ := imix_fold_get m k (by omega) (b.set k (b[k] ^^^ b[k + 1] ^^^ m)) r hr
    refine ⟨fun j hj hkj => ?_, fun j hj => ?_⟩
    · rw [hi j hj (by omega), Vector.getElem_set_ne _ _ (by omega)]
    · by_cases hjk : j < k
      · rw [hs j hjk, Vector.getElem_set_ne _ _ (by omega)]
      · obtain rfl : j = k := by omega
        rw [hi j (by omega) (by omega), hi (j + 1) (by omega) (by omega), Vector.getElem_set_self,
          Vector.getElem_set_ne _ _ (by omega)]

/-- Positions 0 to 14 of IMIX: the XOR with the restored right neighbour and the constant (R155). -/
theorem invMixColumns_get (m : Byte) (b : Block) (i : Nat) (hi : i < 15) :
    (invMixColumns m b)[i] = b[i] ^^^ (invMixColumns m b)[i + 1] ^^^ m :=
  (imix_fold_get m 15 (Nat.le_refl _) b _ rfl).2 i hi

/-- Position 15 of IMIX is not written (R155). -/
theorem invMixColumns_last (m : Byte) (b : Block) : (invMixColumns m b)[15] = b[15] :=
  (imix_fold_get m 15 (Nat.le_refl _) b _ rfl).1 15 (by omega) (Nat.le_refl _)

/-! ## Tables -/

/-- A table that inverts another is inverted by it: both are over the same finite set of values (R20). -/
theorem Inverts.symm {w : Nat} {inv t : Table w} (h : Inverts inv t) : Inverts t inv := by
  have hinj : Function.Injective (fun x : Fin (2 ^ w) => (lookup t (BitVec.ofFin x)).toFin) := fun x y hxy => by
    have hl : lookup t (BitVec.ofFin x) = lookup t (BitVec.ofFin y) := BitVec.toFin_inj.mp hxy
    have := (h (BitVec.ofFin x)).symm.trans ((congrArg (lookup inv) hl).trans (h (BitVec.ofFin y)))
    simpa using this
  intro y
  obtain ⟨x, hx⟩ := (Finite.injective_iff_surjective.mp hinj) y.toFin
  have hy : lookup t (BitVec.ofFin x) = y := BitVec.toFin_inj.mp hx
  rw [← hy, h]

/-- Entry `x` of the table of a permutation (R124, R126). -/
@[simp] theorem lookup_tableOfPerm (w : Nat) (p : Equiv.Perm (Fin (2 ^ w))) (x : BitVec w) :
    lookup (tableOfPerm w p) x = BitVec.ofFin (p x.toFin) := by
  simp [lookup, tableOfPerm]

end Sys2Proof.Machine
end

