-- ==== Sys2Proof/Laws/Keys.lean ====
section
/-! SUPPORT. Laws/Keys.lean: what the shared operations of the key schedule do: the inverse of a table (R125, R127), the
odd byte (R128), the stream of byte draws and the round keys (R130). -/

namespace Sys2Proof.Machine

/-! ## The inverse of a table -/

theorem invert_fold {w : Nat} (t old : Table w) (ht : ∀ x y : BitVec w, lookup t x = lookup t y → x = y) :
    ∀ (k : Nat) (hk : k ≤ 2 ^ w) (x : Fin (2 ^ w)), x.val < k →
      lookup (Nat.fold k (fun x (h : x < k) (inv : Table w) =>
        inv.set (t[x]'(by omega)).toNat (BitVec.ofNat w x) (t[x]'(by omega)).isLt) old)
        (lookup t (BitVec.ofFin x)) = BitVec.ofFin x
  | 0, _, x, hx => absurd hx (Nat.not_lt_zero _)
  | k + 1, hk, x, hx => by
    rw [Nat.fold_succ]
    unfold lookup
    rw [Vector.getElem_set]
    split
    · next h =>
      have hkx : BitVec.ofNat w k = BitVec.ofFin x := ht _ _ (BitVec.eq_of_toNat_eq (by
        simpa [lookup, Nat.mod_eq_of_lt (show k < 2 ^ w by omega)] using h))
      exact hkx
    · next h =>
      have hne : x.val ≠ k := fun hxk => h (by subst hxk; rfl)
      exact invert_fold t old ht k (by omega) x (by omega)

/-- Inverting a table whose entries differ gives a table that undoes it, whatever was there before (R125, R127). -/
theorem invertTable_inverts {w : Nat} (t old : Table w) (ht : ∀ x y : BitVec w, lookup t x = lookup t y → x = y) :
    Inverts (invertTable t old) t := fun x =>
  invert_fold t old ht (2 ^ w) (Nat.le_refl _) x.toFin x.toFin.isLt

/-- Inverting the table of a permutation (R125, R127). -/
theorem invertTable_perm {w : Nat} (p : Equiv.Perm (Fin (2 ^ w))) (old : Table w) :
    Inverts (invertTable (tableOfPerm w p) old) (tableOfPerm w p) :=
  invertTable_inverts _ _ fun x y h => by
    simp only [lookup_tableOfPerm, BitVec.ofFin.injEq, EmbeddingLike.apply_eq_iff_eq] at h
    exact BitVec.toFin_inj.mp h

/-! ## The odd byte -/

/-- The value of the MixConstant (R128). -/
theorem mixConstant_toNat (w : Nat) : (mixConstant w).toNat = 2 * (w % 255 / 2) + 1 := by
  have h : w % 255 < 256 := by omega
  have all : ∀ v, v < 256 → (BitVec.ofNat 8 v ||| 1).toNat = 2 * (v / 2) + 1 := by decide +kernel
  exact all _ h

/-! ## The stream and the round keys -/

/-- `a + b` draws are `a` draws and then `b` draws (R130). -/
theorem streamState_add (c : Cfg) (g a : Nat) : ∀ b, streamState c g (a + b) = streamState c (streamState c g a) b
  | 0 => rfl
  | b + 1 => by rw [Nat.add_succ, streamState, streamState_add c g a b, streamState]

theorem streamByte_add (c : Cfg) (g a b : Nat) : streamByte c g (a + b) = streamByte c (streamState c g a) b := by
  rw [streamByte, streamState_add, streamByte]

theorem roundKey_fold (c : Cfg) (k : Key) (r g : Nat) (old : Block) : ∀ (n : Nat) (_ : n ≤ 16) (x : Block × Nat),
    x = Nat.fold n (fun i (h : i < n) (acc : Block × Nat) =>
      (acc.1.set i (k[kidx c.rkIndexMode r i] ^^^ (c.prng.nextByte acc.2).1), (c.prng.nextByte acc.2).2)) (old, g) →
    x.2 = streamState c g n ∧
    ∀ (i : Nat) (hi : i < n), x.1[i] = k[kidx c.rkIndexMode r i] ^^^ streamByte c g i
  | 0, _, x, hx => by subst hx; exact ⟨rfl, fun i hi => absurd hi (Nat.not_lt_zero _)⟩
  | n + 1, hn, x, hx => by
    rw [Nat.fold_succ] at hx
    obtain ⟨h₂, h₁⟩ := roundKey_fold c k r g old n (by omega) _ rfl
    subst hx
    refine ⟨by simp only [h₂, streamState], fun i hi => ?_⟩
    simp only [Vector.getElem_set]
    split
    · next h => subst h; rw [h₂]; rfl
    · next h => exact h₁ i (by omega)

/-- One round key: 16 draws, each masked with its key byte (R130, R131). -/
theorem roundKey_spec (c : Cfg) (k : Key) (r g : Nat) (old : Block) :
    (roundKey c k r g old).2 = streamState c g 16 ∧
    ∀ (i : Nat) (hi : i < 16), (roundKey c k r g old).1[i] = k[kidx c.rkIndexMode r i] ^^^ streamByte c g i :=
  roundKey_fold c k r g old 16 (Nat.le_refl _) _ rfl

theorem roundKeys_fold (c : Cfg) (k : Key) (g : Nat) (old : RoundKeys) : ∀ (n : Nat) (_ : n ≤ 8) (x : RoundKeys × Nat),
    x = Nat.fold n (fun r (h : r < n) (acc : RoundKeys × Nat) =>
      (acc.1.set r (roundKey c k r acc.2 acc.1[r]).1, (roundKey c k r acc.2 acc.1[r]).2)) (old, g) →
    x.2 = streamState c g (16 * n) ∧
    ∀ (r : Nat) (hr : r < n) (i : Nat) (hi : i < 16),
      x.1[r][i] = k[kidx c.rkIndexMode r i] ^^^ streamByte c g (16 * r + i)
  | 0, _, x, hx => by subst hx; exact ⟨rfl, fun r hr => absurd hr (Nat.not_lt_zero _)⟩
  | n + 1, hn, x, hx => by
    rw [Nat.fold_succ] at hx
    obtain ⟨h₂, h₁⟩ := roundKeys_fold c k g old n (by omega) _ rfl
    subst hx
    refine ⟨?_, fun r hr i hi => ?_⟩
    · dsimp only
      rw [(roundKey_spec ..).1, h₂, Nat.mul_succ, streamState_add]
    · simp only [Vector.getElem_set]
      split
      · next h => subst h; rw [(roundKey_spec ..).2 i hi, h₂, streamByte_add]
      · next h => exact h₁ r (by omega) i hi

/-- The eight round keys: 128 draws, round-major (R130, R131). -/
theorem roundKeys_spec (c : Cfg) (k : Key) (g : Nat) (old : RoundKeys) :
    (roundKeys c k g old).2 = streamState c g 128 ∧
    ∀ (r : Nat) (hr : r < 8) (i : Nat) (hi : i < 16),
      (roundKeys c k g old).1[r][i] = k[kidx c.rkIndexMode r i] ^^^ streamByte c g (16 * r + i) :=
  roundKeys_fold c k g old 8 (Nat.le_refl _) _ rfl

end Sys2Proof.Machine
end

