-- ==== Sys2Proof/Laws/Step.lean ====
section
/-! SUPPORT. Laws/Step.lean: what one step can do, said once: a move of the host or a move of the engine, and where each
ends. -/

namespace Sys2Proof.Machine

/-- What a step that goes on can be: a move of the host, or one of the engine (R40, R96). -/
theorem step_cases {s t : State} (h : step s = .next t) :
    (∃ m rest, s.turns = .host m :: rest ∧ hostStep m { s with turns := rest } = .next t) ∨
    (∃ rest, (s.turns = .engine :: rest ∨ (s.turns = [] ∧ rest = [])) ∧
      engineStep { s with turns := rest } = .next t) := by
  unfold step at h
  split at h
  · next ht => exact .inr ⟨[], .inr ⟨ht, rfl⟩, by rwa [← ht]⟩
  · next rest ht => exact .inr ⟨rest, .inl ht, h⟩
  · next m rest ht => exact .inl ⟨m, rest, ht, h⟩

/-- What a move of the engine that goes on can be: a composite phase is entered; or the phase runs, and either its command
has ended or the engine moves on (R40, R243). -/
theorem engineStep_cases {s t : State} (h : engineStep s = .next t) :
    (s.pace = .micro ∧ isComposite s.phase = true ∧ enter s.cfg s = .next t) ∨
    (∃ u, exec s.phase.instr s = .next u ∧
      ((u.phase = .idle ∧ t = u) ∨ (u.phase ≠ .idle ∧ advance s.cfg s.phase u = .next t))) := by
  unfold engineStep at h
  split at h
  · next hm => exact .inl ⟨hm.1, hm.2, h⟩
  · cases hu : exec s.phase.instr s with
    | next u =>
      rw [hu] at h
      refine .inr ⟨u, rfl, ?_⟩
      simp only [proceed] at h
      split at h
      · next hi => exact .inl ⟨hi, by cases h; rfl⟩
      · next hi => exact .inr ⟨hi, h⟩
    | fault r => rw [hu] at h; cases h
    | refused r => rw [hu] at h; cases h

/-- What a move of the host that goes on can be: a command, a poll of STATUS, or another access (R29, R96). -/
theorem hostStep_cases {m : HostMove} {s t : State} (h : hostStep m s = .next t) :
    (∃ word, m = .wrCmd word ∧ exec (decodeCmd word) s = .next t) ∨
    (m = .wait ∧ s.status.busy = false ∧ t = s.hostReadReg .status) ∨
    (m = .wait ∧ s.status.busy = true ∧
      engineStep { s.hostReadReg .status with turns := .host .wait :: s.turns } = .next t) ∨
    hostMove s.cfg m s = .next t := by
  cases m with
  | wrCmd word => exact .inl ⟨word, rfl, h⟩
  | wait =>
    simp only [hostStep] at h
    split at h
    · next hb => exact .inr (.inr (.inl ⟨rfl, hb, h⟩))
    · next hb => exact .inr (.inl ⟨rfl, by simpa using hb, by cases h; rfl⟩)
  | _ => exact .inr (.inr (.inr h))

/-- A host access to memory that goes on: every byte of it is admitted (R68). -/
theorem hostAccess_eq_next {c : Cfg} {dir : Dir} {a n : Nat} {s t u : State} (h : hostAccess c dir a n s t = .next u) :
    accessRange c s.map dir a n = .admitted ∧ u = t := by
  unfold hostAccess at h
  split at h
  · next ha => exact ⟨ha, by cases h; rfl⟩
  · cases h
  · cases h

/-- Only ENCRYPT and DECRYPT have a buffer that a host access can meet (R71, R280). -/
theorem meetsBuffer_cmd {s : State} {a n : Nat} (h : meetsBuffer s a n) :
    s.cmd = some .encrypt ∨ s.cmd = some .decrypt := by
  obtain ⟨_, w, hw, _⟩ := h
  unfold State.window at hw
  cases hc : s.cmd with
  | none => simp [hc] at hw
  | some cmd =>
    cases cmd with
    | ksched => simp [hc, windowOf] at hw
    | encrypt => exact .inl rfl
    | decrypt => exact .inr rfl

/-! ## The commands, where they run -/

/-- KSCHED past its checks, in one step (R211). -/
theorem kschedCommand_run {c : Cfg} {s : State} (hb : s.status.busy = false) (hk : s.status.keyed = false)
    (hp : s.pace = .atomic) : kschedCommand c s = endKsched c (keySchedule c (s.accept .ksched)) := by
  simp [kschedCommand, hb, hk, hp]

/-- ENCRYPT past its checks, in one step (R213). -/
theorem encryptCommand_run {c : Cfg} {s : State} (hb : s.status.busy = false) (hk : s.status.keyed = true)
    (hl : paddedLength s.len < 2 ^ c.lenw) (hp : s.pace = .atomic) :
    encryptCommand c s =
      ((runEncrypt c (launchEncrypt (s.accept .encrypt))).bind fun s => .go (endEncrypt c s)).settle c
        (paddedLength s.len) := by
  have hl' : ¬ paddedOverflows c s.len := Nat.not_le.mpr hl
  simp [encryptCommand, hb, hk, hl', hp]

/-- DECRYPT past its checks, in one step (R214). -/
theorem decryptCommand_run {c : Cfg} {s : State} (hb : s.status.busy = false) (hk : s.status.keyed = true)
    (hl : ¬ badCipherLength s.len) (hp : s.pace = .atomic) :
    decryptCommand c s =
      ((runDecrypt c (s.accept .decrypt)).bind fun s => .go (endDecrypt c s)).settle c s.len := by
  simp only [decryptCommand, hb, hk, if_neg hl, hp, if_false, Bool.true_eq_false, Bool.false_eq_true]

/-- A command with phases on a busy engine is dropped (R258). -/
theorem commands_dropped {c : Cfg} {s : State} (hb : s.status.busy = true) :
    kschedCommand c s = s.dropCommand ∧ encryptCommand c s = .next s.dropCommand ∧
    decryptCommand c s = .next s.dropCommand ∧ releaseCommand s = s.dropCommand ∧
    reservedCommand s = s.dropCommand := by
  simp [kschedCommand, encryptCommand, decryptCommand, releaseCommand, reservedCommand, hb]

end Sys2Proof.Machine
end

