-- ==== Sys2Proof/Laws/PerInstr.lean ====
section
/-! SUPPORT. Laws/PerInstr.lean: what is said of every operation as syntax, one lemma a constructor: the code word of an
operation, in the format it has (CMD8 or PHASE5, R90, R95), is read back as that operation. -/

namespace Sys2Proof.Laws

/-- An operation coded as a command word is the command that word is decoded to, if it is well formed (R91, R93); one coded
as a phase id is the operation of the phase with that id (R95). -/
def ReadBack.Statement (i : Instr) : Prop :=
  match encode i with
  | .cmd8 word => WellFormed i → decodeCmd word = i
  | .phase5 id => ∃ p : Phase, decodePhase id = .ok p ∧ p.instr = i

theorem ReadBack.ksched : ReadBack.Statement .ksched := fun _ => rfl
theorem ReadBack.encrypt : ReadBack.Statement .encrypt := fun _ => rfl
theorem ReadBack.decrypt : ReadBack.Statement .decrypt := fun _ => rfl
theorem ReadBack.release : ReadBack.Statement .release := fun _ => rfl
theorem ReadBack.idle : ReadBack.Statement .idle := ⟨.idle, rfl, rfl⟩
theorem ReadBack.ksSeed : ReadBack.Statement .ksSeed := ⟨.ksSeed, rfl, rfl⟩
theorem ReadBack.ksSbox : ReadBack.Statement .ksSbox := ⟨.ksSbox, rfl, rfl⟩
theorem ReadBack.ksShift : ReadBack.Statement .ksShift := ⟨.ksShift, rfl, rfl⟩
theorem ReadBack.ksMixc : ReadBack.Statement .ksMixc := ⟨.ksMixc, rfl, rfl⟩
theorem ReadBack.ksRkeys : ReadBack.Statement .ksRkeys := ⟨.ksRkeys, rfl, rfl⟩
theorem ReadBack.sub : ReadBack.Statement .sub := ⟨.sub, rfl, rfl⟩
theorem ReadBack.shiftr : ReadBack.Statement .shiftr := ⟨.shiftr, rfl, rfl⟩
theorem ReadBack.mix : ReadBack.Statement .mix := ⟨.mix, rfl, rfl⟩
theorem ReadBack.ark : ReadBack.Statement .ark := ⟨.ark, rfl, rfl⟩
theorem ReadBack.isub : ReadBack.Statement .isub := ⟨.isub, rfl, rfl⟩
theorem ReadBack.ishiftr : ReadBack.Statement .ishiftr := ⟨.ishiftr, rfl, rfl⟩
theorem ReadBack.imix : ReadBack.Statement .imix := ⟨.imix, rfl, rfl⟩
theorem ReadBack.encblk : ReadBack.Statement .encblk := ⟨.encblk, rfl, rfl⟩
theorem ReadBack.decblk : ReadBack.Statement .decblk := ⟨.decblk, rfl, rfl⟩
theorem ReadBack.pad : ReadBack.Statement .pad := ⟨.pad, rfl, rfl⟩
theorem ReadBack.cbcEnc : ReadBack.Statement .cbcEnc := ⟨.cbcEnc, rfl, rfl⟩
theorem ReadBack.cbcDec : ReadBack.Statement .cbcDec := ⟨.cbcDec, rfl, rfl⟩
theorem ReadBack.unpad : ReadBack.Statement .unpad := ⟨.unpad, rfl, rfl⟩
theorem ReadBack.reserved (word : Byte) : ReadBack.Statement (.reserved word) := fun h => by
  simp only [WellFormed, isReservedWord] at h
  unfold decodeCmd
  rw [if_neg h.1, if_neg h.2.1, if_neg h.2.2.1, if_neg h.2.2.2]

end Sys2Proof.Laws
end

