-- ==== Sys2Proof/Tests/Slice0.lean ====
section
/-! SUPPORT. Tests/Slice0.lean: the model against the encodings and the test vectors of the spec (spec/30_encoding.md,
spec/95_test_vectors.md), and, for every statement that has hypotheses, states and operands that meet them. -/

namespace Sys2Proof.Tests

open Sys2Proof.Machine

-- One declaration after the other: the kernel evaluations below would otherwise wait for one another in parallel.
set_option Elab.async false

/-! ## WellFormed refuses an ill-formed term of each kind -/

theorem test_opcodes_are_not_reserved :
    ¬ WellFormed (.reserved 1) ∧ ¬ WellFormed (.reserved 2) ∧ ¬ WellFormed (.reserved 3) ∧
    ¬ WellFormed (.reserved 4) := by decide

theorem test_reserved_words_are_well_formed :
    WellFormed (.reserved 0) ∧ WellFormed (.reserved 5) ∧ WellFormed (.reserved 0xff) := by decide

/-! ## Every code word of the tables (R91, R93, R95), written out -/

theorem test_decode_ksched : decode [0b00000001, 0xaa] = .ok (.ksched, [0xaa]) := rfl
theorem test_decode_encrypt : decode [0b00000010] = .ok (.encrypt, []) := rfl
theorem test_decode_decrypt : decode [0b00000011] = .ok (.decrypt, []) := rfl
theorem test_decode_release : decode [0b00000100] = .ok (.release, []) := rfl
theorem test_decode_reserved :
    decode [0b00000000] = .ok (.reserved 0, []) ∧ decode [0b00000101] = .ok (.reserved 5, []) ∧
    decode [0b10000001] = .ok (.reserved 0x81, []) ∧ decode [] = .error .noWord := ⟨rfl, rfl, rfl, rfl⟩

theorem test_decode_idle : decodeWord (.phase5 0b00000) = .ok .idle := rfl
theorem test_decode_ks_seed : decodeWord (.phase5 0b00001) = .ok .ksSeed := rfl
theorem test_decode_ks_sbox : decodeWord (.phase5 0b00010) = .ok .ksSbox := rfl
theorem test_decode_ks_shift : decodeWord (.phase5 0b00011) = .ok .ksShift := rfl
theorem test_decode_ks_mixc : decodeWord (.phase5 0b00100) = .ok .ksMixc := rfl
theorem test_decode_ks_rkeys : decodeWord (.phase5 0b00101) = .ok .ksRkeys := rfl
theorem test_decode_sub : decodeWord (.phase5 0b01000) = .ok .sub := rfl
theorem test_decode_shiftr : decodeWord (.phase5 0b01001) = .ok .shiftr := rfl
theorem test_decode_mix : decodeWord (.phase5 0b01010) = .ok .mix := rfl
theorem test_decode_ark : decodeWord (.phase5 0b01011) = .ok .ark := rfl
theorem test_decode_isub : decodeWord (.phase5 0b01100) = .ok .isub := rfl
theorem test_decode_ishiftr : decodeWord (.phase5 0b01101) = .ok .ishiftr := rfl
theorem test_decode_imix : decodeWord (.phase5 0b01110) = .ok .imix := rfl
theorem test_decode_encblk : decodeWord (.phase5 0b10000) = .ok .encblk := rfl
theorem test_decode_decblk : decodeWord (.phase5 0b10001) = .ok .decblk := rfl
theorem test_decode_pad : decodeWord (.phase5 0b10100) = .ok .pad := rfl
theorem test_decode_cbc_enc : decodeWord (.phase5 0b10101) = .ok .cbcEnc := rfl
theorem test_decode_cbc_dec : decodeWord (.phase5 0b10110) = .ok .cbcDec := rfl
theorem test_decode_unpad : decodeWord (.phase5 0b10111) = .ok .unpad := rfl
theorem test_decode_unused_phase : decodeWord (.phase5 0b00110) = .error (.unusedPhase 6) := rfl

theorem test_table_words :
    decodeTableWord 8 1 = some .ksched ∧ decodeTableWord 8 4 = some .release ∧
    decodeTableWord 8 0xff = some (.reserved 0xff) ∧ decodeTableWord 5 0b10101 = some .cbcEnc ∧
    decodeTableWord 5 0b00110 = none := by decide

/-! ## Small states -/

/-- The table of `x ↦ (m x + k) mod 2^w`. -/
def affine (w m k : Nat) : Table w := Vector.ofFn fun x => BitVec.ofNat w (m * x + k)

/-- The bytes `f 0, f 1, ...`. -/
def bytesOf (n : Nat) (f : Nat → Nat) : Vector Byte n := Vector.ofFn fun i => BitVec.ofNat 8 (f i)

/-- The hand-made DerivedState `DS_A` (spec/95_test_vectors.md section 3). -/
def dsA : DerivedState where
  sbox := affine 8 7 3
  invSbox := affine 8 183 (183 * 253)
  shift := affine 4 5 0
  invShift := affine 4 13 0
  mixc := 0x1b
  rk := Vector.ofFn fun r => bytesOf 16 fun i => 16 * r + i

/-- The block `X` of the vectors: `00 01 .. 0f`. -/
def blockX : Block := bytesOf 16 id

/-- A key, byte by byte 0 to 31: `K1` of the vectors. -/
def key1 : Key := bytesOf 32 id

def work0 : Working where
  blk := blockX
  prev := bytesOf 16 fun _ => 0
  save := bytesOf 16 fun _ => 0
  keyc := key1
  ptr := 0x100
  n := 16
  g := 0
  padded := 32
  off := 0
  rnd := 1
  idx := 0

/-- An idle engine of widths 32 with the keyed context `DS_A`, 0x400 bytes of ordinary memory, and a 16-byte buffer at 0x100. -/
def idle0 : State where
  status := ⟨false, true, true, false, .ok⟩
  key := key1
  iv := bytesOf 16 fun _ => 0
  dataPtr := 0x100
  len := 16
  result := 0
  ds := dsA
  work := work0
  phase := .idle
  cmd := none
  mem := [(0x100, 0x41), (0x103, 0x80), (0x10f, 0x42)]
  map := [⟨0, 0x400, .ram⟩]
  widths := ⟨32, 32⟩
  trespass := false
  unseen := []
  turns := []
  rdata := none
  pace := .atomic
  draws := 1

/-- The same with an empty context. -/
def empty0 : State := { idle0 with status := { idle0.status with keyed := false } }

/-- The same with ENCRYPT in progress. -/
def busy0 : State :=
  { idle0 with status := { idle0.status with busy := true, done := false }, phase := .pad, cmd := some .encrypt }

/-- The next state of an outcome. -/
def after (o : Host.Outcome State Fault Refusal) : Option State :=
  match o with
  | .next s => some s
  | .fault _ => none
  | .refused _ => none

/-- A test on the next state. -/
def check (o : Host.Outcome State Fault Refusal) (p : State → Bool) : Bool :=
  match after o with
  | some s => p s
  | none => false

/-- The block whose 16 bytes are the hexadecimal digits of `n`. -/
def hexBlock (n : Nat) : Block := bytesOf 16 fun i => n >>> (8 * (15 - i))

/-! ## The round transform on `DS_A` (vectors V3.1 to V3.13) -/

theorem test_sub : check (exec .sub idle0) (·.work.blk == hexBlock 0x030a11181f262d343b424950575e656c) := by
  decide +kernel
theorem test_isub : check (exec .isub idle0) (·.work.blk == hexBlock 0xdb924900b76e25dc934a01b86f26dd94) := by
  decide +kernel
theorem test_shiftr : check (exec .shiftr idle0) (·.work.blk == hexBlock 0x00050a0f04090e03080d02070c01060b) := by
  decide +kernel
theorem test_ishiftr : check (exec .ishiftr idle0) (·.work.blk == hexBlock 0x000d0a0704010e0b0805020f0c090603) := by
  decide +kernel
theorem test_mix : check (exec .mix idle0) (·.work.blk == hexBlock 0x1a181a1c1a181a141a181a1c1a181a0f) := by
  decide +kernel
theorem test_imix : check (exec .imix idle0) (·.work.blk == hexBlock 0x1b001a031b041a071b081a0b1b0c1a0f) := by
  decide +kernel
theorem test_ark : check (exec .ark idle0) (·.work.blk == hexBlock 0x10101010101010101010101010101010) := by
  decide +kernel

/-! ## The key schedule (vectors of sections 4.1 to 4.5) -/

/-- One output of the generator of `TESTCFG`. -/
def testNext (g : Nat) : Nat := (1664525 * g + 1013904223) % 2 ^ 32

/-- The descending exchange shuffle of `TESTCFG`, from index `i`. -/
def testShuffle (n : Nat) : Nat → Equiv.Perm (Fin n) → Nat → Equiv.Perm (Fin n) × Nat
  | 0, p, g => (p, g)
  | i + 1, p, g =>
    if h : i + 1 < n ∧ (testNext g >>> 16) % (i + 2) < n then
      testShuffle n i (p * Equiv.swap ⟨i + 1, h.1⟩ ⟨(testNext g >>> 16) % (i + 2), h.2⟩) (testNext g)
    else (p, g)

/-- `TESTCFG` (spec/95_test_vectors.md section 2), under a reading of the three switches. -/
def testCfg (f : SeedFold) (e : SeedEndian) (m : RkIndexMode) : Cfg where
  lenw := 32
  aw := 32
  seedFold := f
  seedEndian := e
  rkIndexMode := m
  prng :=
    { width := 32
      seed := BitVec.toNat
      next := fun g => (BitVec.ofNat 32 (testNext g), testNext g)
      shuffle := fun n g => testShuffle n (n - 1) 1 g
      nextByte := fun g => (BitVec.ofNat 8 (testNext g >>> 24), testNext g) }

/-- `K4` of the vectors. -/
def key4 : Key :=
  bytesOf 32 fun i => 0xdeadbeef0123456789abcdef10325476f0f1f2f3f4f5f6f7f8f9fafbfcfdfeff >>> (8 * (31 - i))

theorem test_seed_k4 :
    seedOf (testCfg .foldHiLo .le .localIndex) key4 = 0x11621746 ∧
    seedOf (testCfg .truncLow .le .localIndex) key4 = 0x00730657 ∧
    seedOf (testCfg .foldHiLo .be .localIndex) key4 = 0x46176211 ∧
    seedOf (testCfg .truncLow .be .localIndex) key4 = 0x11111111 := by decide +kernel

/-- KS_MIXC of the all-zero key: `w = af6d8a75`, `MIXC = 1d`. -/
theorem test_mixc_kz : mixConstant 0xaf6d8a75 = 0x1d ∧ testNext 0x0919d3ee = 0xaf6d8a75 := by decide +kernel

theorem test_mixc_corners :
    mixConstant 0 = 0x01 ∧ mixConstant 2 = 0x03 ∧ mixConstant 253 = 0xfd ∧ mixConstant 254 = 0xff ∧
    mixConstant 255 = 0x01 ∧ mixConstant 510 = 0x01 ∧ mixConstant 0xffffffff = 0x01 := by decide +kernel

/-- The shuffle trace of section 2: `shuffle(16, 0)`. -/
theorem test_shuffle_trace :
    ((tableOfPerm 4 ((testCfg .foldHiLo .le .localIndex).prng.shuffle 16 0).1).toList.map BitVec.toNat =
      [0x0d, 0x00, 0x0f, 0x03, 0x07, 0x02, 0x09, 0x08, 0x05, 0x0a, 0x0c, 0x06, 0x0b, 0x04, 0x01, 0x0e]) ∧
    ((testCfg .foldHiLo .le .localIndex).prng.shuffle 16 0).2 = 0x01ba5175 := by decide +kernel

/-- `RK[0]` and `RK[1]` of `K1` (section 4.3), from the state KS_MIXC leaves, in both index modes. -/
theorem test_round_keys_k1 :
    (roundKeys (testCfg .foldHiLo .le .localIndex) key1 0xaf6d8a75 dsA.rk).1[0] =
      hexBlock 0x4f41a86dee76c04c1a380e9c6732b08e ∧
    (roundKeys (testCfg .foldHiLo .le .localIndex) key1 0xaf6d8a75 dsA.rk).1[1] =
      hexBlock 0x5fa3f232c33ae516ea5cf999f5acfafc ∧
    (roundKeys (testCfg .foldHiLo .le .runningIndex) key1 0xaf6d8a75 dsA.rk).1[1] =
      hexBlock 0x4fb3e222d32af506fa4ce989e5bceaec := by decide +kernel

/-- The inverse of the ShiftTable of the all-zero key (section 4.2). -/
theorem test_invert_shift :
    (invertTable (w := 4) (Vector.ofFn fun i : Fin 16 =>
        BitVec.ofNat 4 (0x21d478fa0b3e95c6 >>> (4 * i.val))) (affine 4 0 0)).toList.map BitVec.toNat =
      [7, 14, 15, 5, 12, 2, 0, 11, 10, 3, 8, 6, 1, 13, 4, 9] := by decide +kernel

/-! ## The chained mode (R182, R186; the buffers of V3.22, V3.27, V3.28) -/

/-- The block at 0x100. -/
def buffer (s : State) : Block := s.mem.readBlock 0x100

theorem test_pad_five_bytes :
    check (exec .pad { idle0 with
        mem := Memory.writeBytes [] 0x100 [0x68, 0x65, 0x6c, 0x6c, 0x6f, 0x11, 0x12]
        work := { work0 with n := 5, padded := 16 } })
      (buffer · == hexBlock 0x68656c6c6f8000000000000000000000) := by decide +kernel

theorem test_unpad_last_marker_wins :
    check (exec .unpad { idle0 with mem := Memory.writeBlock [] 0x100 (hexBlock 0x11802280334444444444444444444444) })
      (·.result == 3) := by decide +kernel

theorem test_unpad_no_marker :
    check (exec .unpad { idle0 with mem := Memory.writeBlock [] 0x100 (hexBlock 0x11111111111111111111111111111111) })
      (·.result == 16) := by decide +kernel

/-! ## Status and refusals (vectors V5.1 to V5.13) -/

theorem test_reset_status : State.reset.status.toByte = 0x00 ∧ State.reset.result = 0 := ⟨rfl, rfl⟩

theorem test_ksched_status : check (exec .ksched { empty0 with status := Status.reset }) (fun t =>
    t.status.toByte == 0x06 && t.result == 0) := rfl

theorem test_ksched_keyed : check (exec .ksched idle0) (fun t => t.status.toByte == 0x3e && t.ds.mixc == 0x1b) := by
  decide +kernel

theorem test_encrypt_no_key : check (exec .encrypt { empty0 with status := Status.reset, len := 5 }) (fun t =>
    t.status.toByte == 0x2c && t.result == 0 && t.mem == idle0.mem) := by decide +kernel

theorem test_decrypt_no_key_before_length :
    check (exec .decrypt { empty0 with status := Status.reset, len := 5 }) (fun t => t.status.toByte == 0x2c) := by
  decide +kernel

theorem test_decrypt_lengths :
    check (exec .decrypt { idle0 with len := 0 }) (fun t => t.status.toByte == 0x4e) ∧
    check (exec .decrypt { idle0 with len := 17 }) (fun t => t.status.toByte == 0x4e) := by decide +kernel

theorem test_encrypt_overflow :
    check (exec .encrypt { idle0 with len := 0xfffffff0 }) (fun t => t.status.toByte == 0x4e && t.result == 0) ∧
    check (exec .encrypt { idle0 with len := 0xffffffef, pace := .phases }) (fun t =>
      t.status.busy && t.work.padded == 0xfffffff0) := by decide +kernel

theorem test_reserved_word : check (exec (.reserved 0) idle0) (fun t => t.status.toByte == 0x1e && t.result == 0) := by
  decide +kernel

theorem test_release : check (exec .release idle0) (fun t => t.status.toByte == 0x04 && t.result == 0) := rfl

theorem test_release_empty :
    check (exec .release { empty0 with status := Status.reset }) (fun t => t.status.toByte == 0x04 && t.ds.mixc == 0x1b) := by
  decide +kernel

theorem test_dropped_while_busy : check (exec .release busy0) (fun t => t.status.toByte == 0x0b && t.phase == .pad) := by
  decide +kernel

/-! ## States and operands that meet the hypotheses of the statements -/

theorem ram_of_check {c : Cfg} {map : List Region} {a n : Nat}
    (h : (List.range n).all fun k => accessByte c map .write (a + k) == .admitted) : Ram c map a n := fun k hk => by
  have := List.all_eq_true.mp h k (List.mem_range.mpr hk)
  simpa using this

theorem lookup_affine (w m k : Nat) (x : BitVec w) : lookup (affine w m k) x = BitVec.ofNat w (m * x.toNat + k) := by
  simp [lookup, affine]

theorem dsA_tables : dsA.TablesOk where
  sbox := by unfold Inverts; simp only [dsA, lookup_affine]; decide +kernel
  shift := by unfold Inverts; simp only [dsA, lookup_affine]; decide +kernel

theorem dsA_valid : dsA.Valid := ⟨dsA_tables.sbox, dsA_tables.shift, by decide +kernel⟩

theorem idle0_ram (n : Nat) (h : n ≤ 0x40) : Ram idle0.cfg idle0.map 0x100 n := fun k hk =>
  ram_of_check (c := idle0.cfg) (map := idle0.map) (a := 0x100) (n := 0x40) (by decide +kernel) k (by omega)

theorem idle0_encrypt_ready : EncryptReady idle0 := ⟨rfl, rfl, by decide, rfl, rfl⟩

theorem idle0_decrypt_ready : DecryptReady idle0 := ⟨rfl, rfl, by decide, rfl, rfl, rfl⟩

theorem idle0_inv : idle0.Inv where
  mem := rfl
  dataPtr := by decide
  len := by decide
  result := by decide
  work := ⟨by decide, by decide, by decide, by decide⟩
  busy := by decide
  fits := rfl
  done := by decide
  fault := by decide
  ksched := by decide
  encrypt := by decide
  decrypt := by decide
  trespass := by decide
  keyed := fun _ => dsA_valid
  sboxBuilt := fun _ => dsA_tables.sbox
  shiftBuilt := fun _ => dsA_tables.shift
  mixcBuilt := by decide

/-- The engine about to run the last phase of KSCHED. -/
def lastPhase0 : State :=
  { idle0 with
    status := { idle0.status with busy := true, keyed := false, done := false }
    phase := .ksRkeys
    cmd := some .ksched }

theorem lastPhase0_inv : lastPhase0.Inv where
  mem := rfl
  dataPtr := by decide
  len := by decide
  result := by decide
  work := ⟨by decide, by decide, by decide, by decide⟩
  busy := by decide
  fits := rfl
  done := by decide
  fault := by decide
  ksched := by decide
  encrypt := by decide
  decrypt := by decide
  trespass := by decide
  keyed := fun _ => dsA_valid
  sboxBuilt := fun _ => dsA_tables.sbox
  shiftBuilt := fun _ => dsA_tables.shift
  mixcBuilt := fun _ => dsA_valid.mixc

/-- The moves to come are no part of the invariant. -/
theorem inv_of_turns {s : State} (h : s.Inv) (turns : List Turn) : ({ s with turns := turns } : State).Inv := by
  cases h; constructor <;> assumption

theorem test_witness_DecodeAndEncodeAgree :
    (WellFormed (.reserved 0) ∧ WellFormed (.reserved 5) ∧ WellFormed .unpad) ∧
    decodeWord (.cmd8 4) = .ok .release ∧ decodeWord (.cmd8 0xff) = .ok (.reserved 0xff) ∧
    decodeWord (.phase5 0b10111) = .ok .unpad := ⟨by decide, rfl, rfl, rfl⟩

theorem test_witness_StepRunsTheCommandWritten :
    ({ idle0 with turns := [.host (.wrCmd 2), .engine] } : State).turns = .host (.wrCmd 2) :: [.engine] ∧
    decodeWord (.cmd8 2) = .ok .encrypt := ⟨rfl, rfl⟩

theorem test_witness_StepRunsThePhase :
    (({ busy0 with turns := [.engine] } : State).turns = .engine :: [] ∧
      decodeWord (.phase5 busy0.phase.id) = .ok .pad ∧ busy0.pace ≠ .micro) ∧
    (busy0.turns = [] ∧ ({ busy0 with phase := .encblk, pace := .micro } : State).pace = .micro ∧
      decodeWord (.phase5 Phase.encblk.id) = .ok .encblk ∧ isComposite .encblk = true) := by decide

theorem test_witness_SeedIsXorOfKeyQuarters (f : SeedFold) (e : SeedEndian) :
    (testCfg f e .localIndex).seedFold = f ∧ (testCfg f e .localIndex).seedEndian = e := ⟨rfl, rfl⟩

theorem test_witness_UpperKeyBytesMaskOddRoundsAtMost :
    (∀ (i : Nat) (h : i < 16), key1[i] = (key1.set 16 0xff)[i]) ∧ key1[16] ≠ (key1.set 16 0xff)[16] ∧
    (testCfg .foldHiLo .le .localIndex).rkIndexMode = .localIndex ∧ 6 % 2 = 0 := by decide +kernel

theorem test_witness_KschedBuildsTheContext :
    empty0.status.busy = false ∧ empty0.status.keyed = false ∧ empty0.pace = .atomic := ⟨rfl, rfl, rfl⟩

theorem test_witness_KschedIsAFunctionOfTheKey :
    (empty0.status.busy = false ∧ empty0.status.keyed = false ∧ empty0.pace = .atomic) ∧
    (let s₂ : State := { empty0 with len := 7, iv := blockX, mem := [], draws := 9 };
      s₂.status.busy = false ∧ s₂.status.keyed = false ∧ s₂.pace = .atomic ∧ empty0.key = s₂.key) :=
  ⟨⟨rfl, rfl, rfl⟩, rfl, rfl, rfl, rfl⟩

theorem test_witness_DecblkUndoesEncblk : ∃ d : DerivedState, d.TablesOk := ⟨dsA, dsA_tables⟩

theorem test_witness_PadWritesMarkerAndZeros :
    idle0.mem.wf = true ∧ idle0.work.n < idle0.work.padded ∧
    Ram idle0.cfg idle0.map (idle0.work.ptr + idle0.work.n) (idle0.work.padded - idle0.work.n) :=
  ⟨rfl, by decide, ram_of_check (by decide +kernel)⟩

/-- The other boundary: only the marker is written. -/
theorem test_witness_PadWritesMarkerAndZeros_marker_alone :
    (15 < 16) ∧ Ram idle0.cfg idle0.map (0x100 + 15) (16 - 15) := ⟨by decide, ram_of_check (by decide +kernel)⟩

theorem test_witness_CbcEncChainsEveryBlock :
    idle0.mem.wf = true ∧ idle0.work.padded % 16 = 0 ∧ Ram idle0.cfg idle0.map idle0.work.ptr idle0.work.padded ∧
    16 * 1 < idle0.work.padded := ⟨rfl, rfl, idle0_ram _ (by decide), by decide⟩

theorem test_witness_CbcDecUnchainsEveryBlock :
    idle0.mem.wf = true ∧ idle0.work.n % 16 = 0 ∧ Ram idle0.cfg idle0.map idle0.work.ptr idle0.work.n ∧
    16 * 0 < idle0.work.n := ⟨rfl, rfl, idle0_ram _ (by decide), by decide⟩

theorem test_witness_UnpadFindsTheLastMarker :
    ∀ k, k < idle0.work.n → accessByte idle0.cfg idle0.map .read (idle0.work.ptr + k) = .admitted := by decide +kernel

theorem test_witness_EncryptCompletes :
    EncryptReady idle0 ∧ Ram idle0.cfg idle0.map idle0.dataPtr (paddedLength idle0.len) :=
  ⟨idle0_encrypt_ready, idle0_ram _ (by decide)⟩

theorem test_witness_DecryptCompletes :
    DecryptReady idle0 ∧ Ram idle0.cfg idle0.map idle0.dataPtr idle0.len :=
  ⟨idle0_decrypt_ready, idle0_ram _ (by decide)⟩

theorem test_witness_DecryptUndoesEncrypt :
    EncryptReady idle0 ∧ Ram idle0.cfg idle0.map idle0.dataPtr (paddedLength idle0.len) ∧
    idle0.ds.TablesOk := ⟨idle0_encrypt_ready, idle0_ram _ (by decide), dsA_tables⟩

theorem test_witness_WrongIvChangesTheFirstBlockOnly :
    DecryptReady idle0 ∧ Ram idle0.cfg idle0.map idle0.dataPtr idle0.len ∧ blockX ≠ idle0.iv :=
  ⟨idle0_decrypt_ready, idle0_ram _ (by decide), by decide +kernel⟩

/-- Two blocks, the first or the last of them changed. -/
theorem test_witness_CorruptedBlockSpreadsToTheNextOnly :
    let s : State := { idle0 with len := 32 }
    DecryptReady s ∧ Ram s.cfg s.map s.dataPtr s.len ∧
    (∀ k, k < 2 → 16 * k < s.len ∧ (s.mem.write (0x100 + 16 * k) 0x77).wf = true ∧
      ∀ x, Outside (s.dataPtr + 16 * k) 16 x → (s.mem.write (0x100 + 16 * k) 0x77).read x = s.mem.read x) :=
  ⟨⟨rfl, rfl, by decide, rfl, rfl, rfl⟩, idle0_ram _ (by decide), fun k hk =>
    ⟨by simp; omega, Memory.wf_write _ _ rfl, fun x hx => Memory.read_write_other _ _ (by
      rcases hx with h | h <;> simp only [idle0] at h <;> omega)⟩⟩

/-- The same data at another address, in another state. -/
theorem test_witness_CiphertextIsAFunctionOfItsInputs :
    let s₂ : State :=
      { idle0 with dataPtr := 0x200, key := Vector.replicate 32 0, mem := [(0x200, 0x41), (0x203, 0x80), (0x20f, 0x42)] }
    (EncryptReady idle0 ∧ EncryptReady s₂ ∧
      Ram idle0.cfg idle0.map idle0.dataPtr (paddedLength idle0.len) ∧
      Ram s₂.cfg s₂.map s₂.dataPtr (paddedLength s₂.len)) ∧
    idle0.len = s₂.len ∧ idle0.iv = s₂.iv ∧ idle0.ds = s₂.ds ∧
    (∀ k, k < idle0.len → idle0.mem.read (idle0.dataPtr + k) = s₂.mem.read (s₂.dataPtr + k)) :=
  ⟨⟨idle0_encrypt_ready, ⟨rfl, rfl, by decide, rfl, rfl⟩, idle0_ram _ (by decide), ram_of_check (by decide +kernel)⟩,
    rfl, rfl, rfl, by decide +kernel⟩

theorem test_witness_ReservedWordRefused :
    (isReservedWord 0 ∧ isReservedWord 5 ∧ isReservedWord 0xff) ∧ idle0.status.busy = false := by decide

theorem test_witness_KeyContextIsChecked :
    (empty0.status.busy = false ∧ empty0.status.keyed = false) ∧ idle0.status.busy = false ∧ idle0.status.keyed = true :=
  ⟨⟨rfl, rfl⟩, rfl, rfl⟩

theorem test_witness_DecryptRefusesBadLengths :
    (idle0.status.busy = false ∧ idle0.status.keyed = true) ∧
    (∀ n, n = 0 ∨ n = 15 ∨ n = 17 → ({ idle0 with len := n } : State).len = 0 ∨ ({ idle0 with len := n } : State).len % 16 ≠ 0) :=
  ⟨⟨rfl, rfl⟩, fun n h => by simp; omega⟩

/-- The least length refused at the width 32, and the length 0 at a width below 5. -/
theorem test_witness_EncryptRefusesOverflowingLengths :
    (let s : State := { idle0 with len := 2 ^ 32 - 16 };
      s.status.busy = false ∧ s.status.keyed = true ∧ 2 ^ s.cfg.lenw - 16 ≤ s.len) ∧
    (let s : State := { idle0 with len := 0, widths := ⟨4, 32⟩ };
      s.status.busy = false ∧ s.status.keyed = true ∧ 2 ^ s.cfg.lenw - 16 ≤ s.len) ∧
    2 ^ 32 - 17 < 2 ^ 32 - 16 := by decide +kernel

/-- The last byte of the padded buffer is not mapped; the first byte of the ciphertext cannot be written. -/
theorem test_witness_BusErrorEndsTheCommand :
    (let s : State := { idle0 with map := [⟨0, 0x11f, .ram⟩] };
      EncryptReady s ∧ NoDevice s.cfg s.map s.dataPtr (paddedLength s.len) ∧
      ∃ k, k < paddedLength s.len ∧ accessByte s.cfg s.map .write (s.dataPtr + k) = .bus) ∧
    (let s : State := { idle0 with map := [⟨0x100, 1, .rom⟩, ⟨0, 0x400, .ram⟩] };
      DecryptReady s ∧ NoDevice s.cfg s.map s.dataPtr s.len ∧
      ∃ k, k < s.len ∧ accessByte s.cfg s.map .write (s.dataPtr + k) = .bus) :=
  ⟨⟨⟨rfl, rfl, by decide, rfl, rfl⟩, by unfold NoDevice; decide +kernel, 31, by decide +kernel, by decide +kernel⟩,
    ⟨rfl, rfl, by decide, rfl, rfl, rfl⟩, by unfold NoDevice; decide +kernel, 0, by decide +kernel, by decide +kernel⟩

/-- A device at the last address of the buffer, for ENCRYPT (padded) and for DECRYPT. -/
theorem test_witness_DeviceBufferRefused :
    let s : State := { idle0 with map := [⟨0x11f, 1, .device⟩, ⟨0, 0x400, .ram⟩] }
    let d : State := { s with len := 32 }
    (∃ k, k < 32 ∧ regionAt s.map (s.dataPtr + k) = some .device) ∧
    (∀ k, k < 32 → s.dataPtr + k < 2 ^ s.cfg.aw ∧
      (regionAt s.map (s.dataPtr + k) = some .device ∨ regionAt s.map (s.dataPtr + k) = some .ram)) ∧
    (EncryptReady s ∧ 32 = paddedLength s.len) ∧ DecryptReady d ∧ 32 = d.len :=
  ⟨⟨31, by decide +kernel, by decide +kernel⟩, by decide +kernel, ⟨⟨rfl, rfl, by decide, rfl, rfl⟩, rfl⟩,
    ⟨rfl, rfl, by decide, rfl, rfl, rfl⟩, rfl⟩

theorem test_witness_CommandDroppedWhileBusy : busy0.status.busy = true := rfl

theorem test_witness_ReleaseEmptiesTheContext :
    idle0.status.busy = false ∧ empty0.status.busy = false ∧ empty0.status.keyed = false := ⟨rfl, rfl, rfl⟩

theorem test_witness_AcceptanceSamplesTheOperands :
    (let s : State := { empty0 with pace := .phases };
      s.status.busy = false ∧ s.pace ≠ .atomic ∧ s.status.keyed = false) ∧
    (let s : State := { idle0 with len := 2 ^ 32 - 17, pace := .micro };
      s.status.busy = false ∧ s.pace ≠ .atomic ∧ s.status.keyed = true ∧ paddedLength s.len < 2 ^ s.cfg.lenw) ∧
    (let s : State := { idle0 with pace := .micro };
      s.status.busy = false ∧ s.pace ≠ .atomic ∧ s.status.keyed = true ∧ s.len ≠ 0 ∧ s.len % 16 = 0) := by decide +kernel

theorem test_witness_FaultIsSticky :
    let s : State := { idle0 with status := { idle0.status with fault := true }, turns := [.host (.wrCmd 4)] }
    (∃ t, step s = .next t) ∧ s.status.fault = true ∧ (∀ rest, s.turns ≠ .host .rst :: rest) :=
  ⟨⟨_, rfl⟩, rfl, fun _ h => by simp at h⟩

theorem test_witness_EngineNeverWritesTheOperandRegisters :
    (∃ t, exec .ksched empty0 = .next t) ∧ (∃ t, exec .sub idle0 = .next t) := ⟨⟨_, rfl⟩, _, rfl⟩

theorem test_witness_OnlyTheBufferIsWritten :
    let s : State := { idle0 with pace := .phases }
    (∃ t, exec .release s = .next t) ∧ s.status.busy = false ∧ (∃ t, exec .encrypt s = .next t) ∧
    (∃ t, exec .decrypt s = .next t) ∧ Outside s.dataPtr (paddedLength s.len) 0x120 ∧ Outside s.dataPtr s.len 0xff :=
  ⟨⟨_, rfl⟩, rfl, ⟨_, rfl⟩, ⟨_, rfl⟩, by decide, by decide⟩

theorem test_witness_KeyedContextIsImmutable :
    let s : State := { idle0 with turns := [.host (.wrCmd 0)] }
    s.Inv ∧ ∃ t, step s = .next t ∧ s.status.keyed = true ∧ t.status.keyed = true :=
  ⟨inv_of_turns idle0_inv _, _, rfl, rfl, rfl⟩

theorem test_witness_KeyedIsSetByKschedAlone :
    lastPhase0.Inv ∧ ∃ t, step lastPhase0 = .next t ∧ lastPhase0.status.keyed = false ∧ t.status.keyed = true :=
  ⟨lastPhase0_inv, _, rfl, rfl, rfl⟩

theorem test_witness_EveryStepKeepsTheInvariant :
    let s : State := { idle0 with turns := [.host (.wrCmd 4)] }
    s.Inv ∧ ∃ t, step s = .next t := ⟨inv_of_turns idle0_inv _, _, rfl⟩

theorem test_witness_ResetInputAbandonsTheCommand :
    let s : State := { busy0 with turns := [.host .rst] }
    s.turns = .host .rst :: [] ∧ Outside s.work.ptr s.extent 0x120 ∧ Outside s.work.ptr s.extent 0xff := by decide

theorem test_witness_AtomicCommandEqualsItsPhases : idle0.status.busy = false := rfl

theorem test_witness_MicroStepsReachTheAtomicEnd : idle0.status.busy = false ∧ empty0.status.busy = false := ⟨rfl, rfl⟩

theorem test_witness_HostReadsGiveRegisterValues :
    ({ idle0 with turns := [.host (.rd (.absent 0))] } : State).turns = .host (.rd (.absent 0)) :: [] ∧
    ({ idle0 with turns := [.host (.rd .status)] } : State).turns = .host (.rd .status) :: [] := ⟨rfl, rfl⟩

theorem test_witness_HostWritesReachTheirRegister :
    ({ busy0 with turns := [.host (.wrLen (2 ^ 32))] } : State).turns = .host (.wrLen (2 ^ 32)) :: [] := rfl

/-- The last address of the busy buffer; the one after it; an idle engine. -/
theorem test_witness_HostWritesOrdinaryMemory :
    busy0.mem.wf = true ∧ (meetsBuffer busy0 0x11f 1 ∧ Ram busy0.cfg busy0.map 0x11f 1) ∧
    (¬ meetsBuffer busy0 0x120 1 ∧ Ram busy0.cfg busy0.map 0x120 1) ∧
    (¬ meetsBuffer idle0 0x100 16 ∧ Ram idle0.cfg idle0.map 0x100 16) :=
  ⟨rfl, ⟨by decide, ram_of_check (by decide +kernel)⟩, ⟨by decide, ram_of_check (by decide +kernel)⟩, by decide,
    idle0_ram _ (by decide)⟩

/-- A write across the end of a buffer whose end is unobserved, with the address past it; a write past it. -/
theorem test_witness_HostWritesOrdinaryMemory_unseen :
    let s : State := { idle0 with unseen := [⟨0x100, 32, 32⟩] }
    s.mem.wf = true ∧ (meetsUnseen s 0x11f 2 ∧ (∀ w ∈ s.unseen, w.meets 0x11f 2 → Outside w.base w.buffer (0x11f + 1))) ∧
    ¬ meetsUnseen s 0x120 1 ∧ Ram s.cfg s.map 0x11f 2 := by
  refine ⟨rfl, by decide, by decide, ram_of_check (by decide +kernel)⟩

/-! ## The host and the buffer in use (R71, R280) -/

/-- A write into the buffer of a running ENCRYPT is made, and the broken duty recorded; one past it breaks none. -/
theorem test_host_write_while_busy :
    check (step { busy0 with turns := [.host (.memWrite 0x11f [0x55])] }) (fun t => t.trespass && t.mem.read 0x11f == 0x55) ∧
    check (step { busy0 with turns := [.host (.memWrite 0x120 [0x55])] }) (fun t =>
      !t.trespass && t.mem.read 0x120 == 0x55) := by decide +kernel

/-- A write into the buffer of an ENCRYPT that has ended is an ordinary one once STATUS has been read, and before that costs
RESULT: one draw is made. -/
theorem test_host_write_before_status_read :
    let s : State := { idle0 with unseen := [⟨0x100, 32, 32⟩] }
    (check (step { s with turns := [.host (.memWrite 0x11f [0x55])] }) (fun t => t.draws == 2 && t.unseen == s.unseen)) ∧
    (check (step { s with turns := [.host (.memWrite 0x120 [0x55])] }) (fun t => t.draws == 1 && t.mem.read 0x120 == 0x55)) ∧
    (check (step { s with turns := [.host .wait] }) (fun t => t.unseen == [])) := by decide +kernel

/-- A DECRYPT of 16 bytes bars the host from 32, whatever the register PADDED holds (R71, R181). -/
theorem test_decrypt_window :
    let s : State := { busy0 with cmd := some .decrypt, phase := .cbcDec, work := { work0 with padded := 0x300 } }
    s.extent = 16 ∧ meetsBuffer s 0x11f 1 ∧ ¬ meetsBuffer s 0x120 1 := by decide

/-- KSCHED has no buffer: an access around the stale PTR breaks no duty. -/
theorem test_ksched_has_no_buffer :
    check (step { lastPhase0 with turns := [.host (.memRead 0xff 4)] }) (fun t =>
      !t.trespass && t.rdata == some (.bytes [0x00, 0x41, 0x00, 0x00])) := by decide +kernel

/-! ## Whole blocks (vectors V3.15, V3.18, V3.20) -/

theorem test_encblk : check (exec .encblk idle0) (·.work.blk == hexBlock 0x3ab74c8ffac508b17ad9beff1a4bbcf3) := by
  decide +kernel

theorem test_decblk :
    check (exec .decblk (idle0.setBlk (hexBlock 0x3ab74c8ffac508b17ad9beff1a4bbcf3))) (·.work.blk == blockX) := by
  decide +kernel

theorem test_encrypt_empty :
    check (exec .encrypt { idle0 with len := 0 }) (fun t =>
      t.result == 16 && t.status.toByte == 0x06 && buffer t == hexBlock 0x777b053271ee5de137ac38e45555177e) := by
  decide +kernel

end Sys2Proof.Tests
end

/-! # Frames: what an operation of the core leaves as it was

What no operation writes, what the operations outside KSCHED leave of the key context, and what a phase that accesses
memory keeps, whether it runs to its end or stops. -/

namespace Sys2Proof.Machine

/-! ## What no operation of the core writes -/

/-- What no operation of the core writes: the operand registers (R31 to R34), the platform, the widths and the bookkeeping
of the host's side (R41, R68). -/
structure OperandFrame (s t : State) : Prop where
  operands : SameOperands s t
  outside : SameOutside s t

/-- What no operation but KSCHED, its phases and RELEASE writes: the same, and the key context with its mark (R27, R163). -/
structure ContextFrame (s t : State) : Prop extends OperandFrame s t where
  ds : t.ds = s.ds
  keyed : t.status.keyed = s.status.keyed

theorem OperandFrame.refl (s : State) : OperandFrame s s :=
  ⟨⟨rfl, rfl, rfl, rfl⟩, ⟨rfl, rfl, rfl, rfl, rfl⟩⟩

theorem OperandFrame.trans {s t u : State} (h : OperandFrame s t) (h' : OperandFrame t u) : OperandFrame s u where
  operands :=
    { key := h'.operands.key.trans h.operands.key
      iv := h'.operands.iv.trans h.operands.iv
      dataPtr := h'.operands.dataPtr.trans h.operands.dataPtr
      len := h'.operands.len.trans h.operands.len }
  outside :=
    { map := h'.outside.map.trans h.outside.map
      widths := h'.outside.widths.trans h.outside.widths
      turns := h'.outside.turns.trans h.outside.turns
      rdata := h'.outside.rdata.trans h.outside.rdata
      pace := h'.outside.pace.trans h.outside.pace }

theorem ContextFrame.refl (s : State) : ContextFrame s s :=
  ⟨.refl s, rfl, rfl⟩

theorem ContextFrame.trans {s t u : State} (h : ContextFrame s t) (h' : ContextFrame t u) : ContextFrame s u :=
  ⟨h.toOperandFrame.trans h'.toOperandFrame, h'.ds.trans h.ds, h'.keyed.trans h.keyed⟩

/-- A phase that accesses memory leaves the key context alone (R163). -/
theorem CbcFrame.context {n : Nat} {s t : State} (h : CbcFrame n s t) : ContextFrame s t where
  operands := ⟨h.key, h.iv, h.dataPtr, h.len⟩
  outside := ⟨h.map, h.widths, h.turns, h.rdata, h.pace⟩
  ds := h.ds
  keyed := congrArg Status.keyed h.status

theorem setPhase_context (s : State) (p : Phase) : ContextFrame s (s.setPhase p) :=
  ⟨⟨⟨rfl, rfl, rfl, rfl⟩, ⟨rfl, rfl, rfl, rfl, rfl⟩⟩, rfl, rfl⟩

theorem dropCommand_context (s : State) : ContextFrame s s.dropCommand :=
  ⟨⟨⟨rfl, rfl, rfl, rfl⟩, ⟨rfl, rfl, rfl, rfl, rfl⟩⟩, rfl, rfl⟩

theorem accept_context (s : State) (cmd : Command) : ContextFrame s (s.accept cmd) := by
  cases cmd <;> exact ⟨⟨⟨rfl, rfl, rfl, rfl⟩, ⟨rfl, rfl, rfl, rfl, rfl⟩⟩, rfl, rfl⟩

theorem launchEncrypt_context (s : State) : ContextFrame s (launchEncrypt s) :=
  ⟨⟨⟨rfl, rfl, rfl, rfl⟩, ⟨rfl, rfl, rfl, rfl, rfl⟩⟩, rfl, rfl⟩

/-- How ENCRYPT and DECRYPT end is no matter of the key context (R27). -/
theorem complete_retire_context (c : Cfg) (s : State) : ContextFrame s (s.complete.retire c) :=
  ⟨⟨⟨rfl, rfl, rfl, rfl⟩, ⟨rfl, rfl, rfl, rfl, rfl⟩⟩, rfl, rfl⟩

theorem refuseCommand_context (c : Cfg) (code : CC) (s : State) : ContextFrame s (refuseCommand c code s) :=
  ⟨⟨⟨rfl, rfl, rfl, rfl⟩, ⟨rfl, rfl, rfl, rfl, rfl⟩⟩, rfl, rfl⟩

theorem loseIfTrespassed_context (c : Cfg) (s : State) : ContextFrame s (s.loseIfTrespassed c) :=
  ⟨⟨⟨by simp, by simp, by simp, by simp⟩, ⟨by simp, by simp, by simp, by simp, by simp⟩⟩, by simp, by simp⟩

theorem endEncrypt_context (c : Cfg) (s : State) : ContextFrame s (endEncrypt c s) :=
  ((frame_setResult 0 s _).context.trans (loseIfTrespassed_context c _)).trans (complete_retire_context c _)

theorem endDecrypt_context (c : Cfg) (s : State) : ContextFrame s (endDecrypt c s) :=
  (loseIfTrespassed_context c s).trans (complete_retire_context c _)

/-- E_BUS leaves the key context alone (R249). -/
theorem refuseBus_retire_context (c : Cfg) (n : Nat) (s : State) : ContextFrame s ((s.refuseBus c n).retire c) :=
  ⟨⟨⟨by simp, by simp, by simp, by simp⟩, ⟨by simp, by simp, by simp, by simp, by simp⟩⟩, by simp, by simp⟩

/-! ## The numbers a phase writes -/

/-- The numbers a phase that accesses memory reads and writes fit `LENW` bits (R35, R37, R39). -/
structure State.NumbersOk (c : Cfg) (s : State) : Prop where
  result : s.result < 2 ^ c.lenw
  n : s.work.n < 2 ^ c.lenw
  padded : s.work.padded < 2 ^ c.lenw
  off : s.work.off < 2 ^ c.lenw

theorem State.NumbersOk.setBlk {c : Cfg} {s : State} (h : s.NumbersOk c) (b : Block) : (s.setBlk b).NumbersOk c :=
  ⟨h.result, h.n, h.padded, h.off⟩

theorem State.NumbersOk.setRnd {c : Cfg} {s : State} (h : s.NumbersOk c) (r : Fin 8) : (s.setRnd r).NumbersOk c :=
  ⟨h.result, h.n, h.padded, h.off⟩

theorem State.NumbersOk.setIdx {c : Cfg} {s : State} (h : s.NumbersOk c) (i : Nat) : (s.setIdx i).NumbersOk c :=
  ⟨h.result, h.n, h.padded, h.off⟩

theorem zeroFill_numbers (c : Cfg) : ∀ (count idx : Nat) (s : State), s.NumbersOk c →
    (zeroFill c count idx s).All (State.NumbersOk c)
  | 0, _, _, h => h
  | count + 1, idx, _, h =>
    Run.All.bind (reach_all c .write _ 1 h)
      (fun _ ht => zeroFill_numbers c count (idx + 1) _ ⟨ht.result, ht.n, ht.padded, ht.off⟩) fun _ ht => ht

theorem phasePad_numbers (c : Cfg) {s : State} (h : s.NumbersOk c) : (phasePad c s).All (State.NumbersOk c) :=
  Run.All.bind (reach_all c .write _ 1 h)
    (fun _ ht => zeroFill_numbers c _ _ _ ⟨ht.result, ht.n, ht.padded, ht.off⟩) fun _ ht => ht

theorem storeBlock_numbers (c : Cfg) {s : State} (h : s.NumbersOk c) : (storeBlock c s).All (State.NumbersOk c) :=
  Run.All.bind (reach_all c .write _ 16 h)
    (fun _ ht => ⟨by simpa using ht.result, by simpa using ht.n, by simpa using ht.padded, by simpa using ht.off⟩)
    fun _ ht => ht

theorem encStore_numbers (c : Cfg) {s : State} (h : s.NumbersOk c) : (encStore c s).All (State.NumbersOk c) :=
  Run.All.bind (storeBlock_numbers c h) (fun _ ht => ⟨ht.result, ht.n, ht.padded, ht.off⟩) fun _ ht => ht

theorem decStore_numbers (c : Cfg) {s : State} (h : s.NumbersOk c) : (decStore c s).All (State.NumbersOk c) :=
  Run.All.bind (P := State.NumbersOk c) (storeBlock_numbers c (h.setBlk _))
    (fun _ ht => ⟨ht.result, ht.n, ht.padded, ht.off⟩) fun _ ht => ht

theorem loadBlock_numbers (c : Cfg) {s : State} (h : s.NumbersOk c) : (loadBlock c s).All (State.NumbersOk c) :=
  Run.All.bind (P := State.NumbersOk c) (reach_all c .read _ 16 h) (fun _ ht => ht.setBlk _) fun _ ht => ht

theorem encLoad_numbers (c : Cfg) {s : State} (h : s.NumbersOk c) : (encLoad c s).All (State.NumbersOk c) :=
  Run.All.bind (P := State.NumbersOk c) (loadBlock_numbers c h) (fun _ ht => ht.setBlk _) fun _ ht => ht

theorem decLoad_numbers (c : Cfg) {s : State} (h : s.NumbersOk c) : (decLoad c s).All (State.NumbersOk c) :=
  Run.All.bind (P := State.NumbersOk c) (loadBlock_numbers c h) (fun _ ht => ⟨ht.result, ht.n, ht.padded, ht.off⟩)
    fun _ ht => ht

theorem encStep_numbers (c : Cfg) {s : State} (h : s.NumbersOk c) : (encStep c s).All (State.NumbersOk c) :=
  Run.All.bind (P := State.NumbersOk c)
    (Run.All.bind (encLoad_numbers c h) (fun _ ht => ((ht.setBlk _).setRnd _).setIdx _) fun _ ht => ht)
    (fun _ ht => encStore_numbers c ht) fun _ ht => ht

theorem decStep_numbers (c : Cfg) {s : State} (h : s.NumbersOk c) : (decStep c s).All (State.NumbersOk c) :=
  Run.All.bind (P := State.NumbersOk c)
    (Run.All.bind (decLoad_numbers c h) (fun _ ht => ((ht.setBlk _).setRnd _).setIdx _) fun _ ht => ht)
    (fun _ ht => decStore_numbers c ht) fun _ ht => ht

theorem encLoop_numbers (c : Cfg) {len : Nat} (hl : len < 2 ^ c.lenw) : ∀ (count : Nat) {s : State},
    16 * count ≤ len → s.NumbersOk c → (encLoop c count s).All (State.NumbersOk c)
  | 0, _, _, h => h
  | b + 1, _, hc, h =>
    Run.All.bind (encLoop_numbers c hl b (by omega) h)
      (fun _ ht => encStep_numbers c ⟨ht.result, ht.n, ht.padded, show 16 * b < 2 ^ c.lenw by omega⟩) fun _ ht => ht

theorem decLoop_numbers (c : Cfg) {len : Nat} (hl : len < 2 ^ c.lenw) : ∀ (count : Nat) {s : State},
    16 * count ≤ len → s.NumbersOk c → (decLoop c count s).All (State.NumbersOk c)
  | 0, _, _, h => h
  | b + 1, _, hc, h =>
    Run.All.bind (decLoop_numbers c hl b (by omega) h)
      (fun _ ht => decStep_numbers c ⟨ht.result, ht.n, ht.padded, show 16 * b < 2 ^ c.lenw by omega⟩) fun _ ht => ht

theorem unpadScan_numbers (c : Cfg) {len : Nat} (hl : len < 2 ^ c.lenw) : ∀ (count : Nat) {s : State},
    count ≤ len → s.NumbersOk c → (unpadScan c count s).All (State.NumbersOk c)
  | 0, _, _, h => h
  | idx + 1, _, hc, h => by
    refine Run.All.bind (reach_all c .read _ 1 h) (fun t ht => ?_) fun _ ht => ht
    split
    · exact ⟨show idx < 2 ^ c.lenw by omega, ht.n, ht.padded, ht.off⟩
    · exact unpadScan_numbers c hl idx (by omega) ⟨ht.result, ht.n, ht.padded, ht.off⟩

/-! ## What a phase keeps -/

theorem CbcFrame.mono {n m : Nat} {s t : State} (hnm : n ≤ m) (h : CbcFrame n s t) : CbcFrame m s t :=
  { h with mem := fun x hx => h.mem x (by omega) }

/-- What a phase outside KSCHED keeps as long as its accesses are admitted: the frame of the chained mode, and the widths
of the numbers it writes. -/
structure PhaseFrame (c : Cfg) (s t : State) : Prop where
  frame : ∃ n, CbcFrame n s t
  numbers : s.NumbersOk c → t.NumbersOk c

theorem PhaseFrame.trans {c : Cfg} {s t u : State} (h : PhaseFrame c s t) (h' : PhaseFrame c t u) : PhaseFrame c s u := by
  obtain ⟨n, hn⟩ := h.frame
  obtain ⟨m, hm⟩ := h'.frame
  exact ⟨⟨max n m, (hn.mono (Nat.le_max_left n m)).trans (hm.mono (Nat.le_max_right n m))⟩,
    fun hs => h'.numbers (h.numbers hs)⟩

theorem PhaseFrame.context {c : Cfg} {s t : State} (h : PhaseFrame c s t) : ContextFrame s t :=
  h.frame.elim fun _ hf => hf.context

/-- A phase that writes BLK, PREV, SAVE, RND and IDX alone. -/
theorem PhaseFrame.of_work {c : Cfg} {s : State} {w : Working} (hk : w.keyc = s.work.keyc) (hp : w.ptr = s.work.ptr)
    (hn : w.n = s.work.n) (hg : w.g = s.work.g) (hd : w.padded = s.work.padded) (ho : w.off = s.work.off) :
    PhaseFrame c s { s with work := w } :=
  ⟨⟨0, .of_work hk hp hn hg hd⟩, fun h => ⟨h.result, hn ▸ h.n, hd ▸ h.padded, ho ▸ h.off⟩⟩

theorem Run.All.imp {P Q : State → Prop} {r : Run} (h : r.All P) (hPQ : ∀ s, P s → Q s) : r.All Q := by
  cases r with
  | go s => exact hPQ s h
  | bus s => exact hPQ s h
  | device a => trivial

theorem Run.Keeps.phaseFrame {c : Cfg} {n : Nat} {s : State} {r : Run} (hf : r.Keeps n s)
    (hn : s.NumbersOk c → r.All (State.NumbersOk c)) : r.All (PhaseFrame c s) := by
  cases r with
  | go t => exact ⟨⟨n, hf⟩, hn⟩
  | bus t => exact ⟨⟨n, hf⟩, hn⟩
  | device a => trivial

theorem Run.All.then {c : Cfg} {s : State} {r : Run} {f : State → Run} (hr : r.All (PhaseFrame c s))
    (hf : ∀ t, (f t).All (PhaseFrame c t)) : (r.bind f).All (PhaseFrame c s) :=
  Run.All.bind hr (fun t ht => (hf t).imp fun _ hu => ht.trans hu) fun _ ht => ht

/-- PAD writes the bytes from offset `N` to the greater of `N` and `PADDED - 1`, whatever the two hold (R182). -/
theorem phasePad_frame (c : Cfg) (s : State) : (phasePad c s).All (PhaseFrame c s) := by
  refine Run.Keeps.phaseFrame (n := s.work.n + 1 + s.work.padded) ?_ (phasePad_numbers c)
  refine (reach_keeps c .write _ 1 _ s).then fun t ht => ?_
  have hn := ht.count
  have hp := ht.padded
  exact Run.Keeps.prepend (frame_storeByte t 0x80 (by omega)) (zeroFill_keeps c _ _ _ _ (by omega))

theorem phaseCbcEnc_frame (c : Cfg) (s : State) : (phaseCbcEnc c s).All (PhaseFrame c s) :=
  (phaseCbcEnc_keeps c s).phaseFrame fun h => encLoop_numbers c h.padded _ (by omega) h

theorem phaseCbcDec_frame (c : Cfg) (s : State) : (phaseCbcDec c s).All (PhaseFrame c s) :=
  (phaseCbcDec_keeps c s).phaseFrame fun h => decLoop_numbers c h.n _ (by omega) h

theorem phaseUnpad_frame (c : Cfg) (s : State) : (phaseUnpad c s).All (PhaseFrame c s) :=
  (phaseUnpad_keeps c s).phaseFrame fun h => unpadScan_numbers c h.n _ (Nat.le_refl _) ⟨h.n, h.n, h.padded, h.off⟩

theorem encStore_frame (c : Cfg) (s : State) : (encStore c s).All (PhaseFrame c s) :=
  (encStore_keeps c _ s (Nat.le_refl _)).phaseFrame (encStore_numbers c)

theorem decStore_frame (c : Cfg) (s : State) : (decStore c s).All (PhaseFrame c s) :=
  (decStore_keeps c _ s (Nat.le_refl _)).phaseFrame (decStore_numbers c)

theorem encLoad_frame (c : Cfg) (s : State) : (encLoad c s).All (PhaseFrame c s) :=
  Run.Keeps.phaseFrame ((encLoad_pass c 0 s).imp fun _ h => h.1) (encLoad_numbers c)

theorem decLoad_frame (c : Cfg) (s : State) : (decLoad c s).All (PhaseFrame c s) :=
  Run.Keeps.phaseFrame ((decLoad_pass c 0 s).imp fun _ h => h.1) (decLoad_numbers c)

theorem runEncrypt_frame (c : Cfg) (s : State) : (runEncrypt c s).All (PhaseFrame c s) :=
  (phasePad_frame c s).then (phaseCbcEnc_frame c)

theorem runDecrypt_frame (c : Cfg) (s : State) : (runDecrypt c s).All (PhaseFrame c s) :=
  (phaseCbcDec_frame c s).then (phaseUnpad_frame c)

/-- What a run followed by an update can settle in: the update of the state it has come to, or the end by E_BUS. -/
theorem Run.All.settle_bind {P : State → Prop} {r : Run} {f : State → State} {c : Cfg} {n : Nat} {t : State}
    (hr : r.All P) (h : (r.bind fun s => .go (f s)).settle c n = .next t) :
    ∃ u, P u ∧ (t = f u ∨ t = (u.refuseBus c n).retire c) := by
  cases r with
  | go u => cases h; exact ⟨u, hr, .inl rfl⟩
  | bus u => cases h; exact ⟨u, hr, .inr rfl⟩
  | device a => cases h

/-- What a run can settle in: the state it has come to, or the end by E_BUS. -/
theorem Run.All.settle {P : State → Prop} {r : Run} {c : Cfg} {n : Nat} {t : State}
    (hr : r.All P) (h : r.settle c n = .next t) : ∃ u, P u ∧ (t = u ∨ t = (u.refuseBus c n).retire c) :=
  hr.settle_bind (f := id) (c := c) (n := n) (by cases r <;> exact h)

end Sys2Proof.Machine

/-! # The engine: what one of its moves can be

A phase outside KSCHED ends in a `PhaseEnd`; an ENCRYPT or a DECRYPT in progress then `Continues`; the phases of KSCHED have
one equation each. -/

namespace Sys2Proof.Machine

/-! ## What a phase outside KSCHED can come to -/

/-- How a phase can leave the engine: with the frame of a phase kept, or at the end by E_BUS of such a state (R249). -/
def PhaseEnd (c : Cfg) (s t : State) : Prop :=
  ∃ u, PhaseFrame c s u ∧ (t = u ∨ ∃ n, t = (u.refuseBus c n).retire c)

theorem PhaseEnd.of_settle {c : Cfg} {n : Nat} {s t : State} {r : Run} (hr : r.All (PhaseFrame c s))
    (h : r.settle c n = .next t) : PhaseEnd c s t :=
  let ⟨u, hu, ht⟩ := hr.settle h
  ⟨u, hu, ht.imp_right fun he => ⟨n, he⟩⟩

theorem PhaseEnd.of_frame {c : Cfg} {s t : State} (h : PhaseFrame c s t) : PhaseEnd c s t :=
  ⟨t, h, .inl rfl⟩

theorem PhaseEnd.context {c : Cfg} {s t : State} (h : PhaseEnd c s t) : ContextFrame s t := by
  obtain ⟨u, hu, rfl | ⟨n, rfl⟩⟩ := h
  · exact hu.context
  · exact hu.context.trans (refuseBus_retire_context c n u)

theorem setBlk_frame (c : Cfg) (s : State) (b : Block) : PhaseFrame c s (s.setBlk b) :=
  ⟨⟨0, frame_setBlk 0 s b⟩, fun h => h.setBlk b⟩

theorem setRnd_frame (c : Cfg) (s : State) (r : Fin 8) : PhaseFrame c s (s.setRnd r) :=
  ⟨⟨0, frame_setRnd 0 s r⟩, fun h => h.setRnd r⟩

theorem setIdx_frame (c : Cfg) (s : State) (i : Nat) : PhaseFrame c s (s.setIdx i) :=
  ⟨⟨0, frame_setIdx 0 s i⟩, fun h => h.setIdx i⟩

/-- What a phase that is not one of KSCHED comes to (R163): a round phase writes BLK, RND and IDX; a phase of the chained
mode ends where its accesses take it. -/
theorem exec_phase_end {p : Phase} (hp : phaseFits p (some .ksched) = false) {s t : State}
    (h : exec p.instr s = .next t) : PhaseEnd s.cfg s t := by
  cases p with
  | ksSeed | ksSbox | ksShift | ksMixc | ksRkeys => cases hp
  | idle => cases h; exact .of_frame (.of_work rfl rfl rfl rfl rfl rfl)
  | sub | shiftr | ark | ishiftr | isub => cases h; exact .of_frame (setBlk_frame _ _ _)
  | mix | imix => cases h; exact .of_frame ((setBlk_frame _ _ _).trans (setIdx_frame _ _ _))
  | encblk | decblk =>
    cases h
    exact .of_frame (((setBlk_frame _ _ _).trans (setRnd_frame _ _ _)).trans (setIdx_frame _ _ _))
  | pad => exact .of_settle (phasePad_frame _ s) h
  | cbcEnc => exact .of_settle (phaseCbcEnc_frame _ s) h
  | cbcDec => exact .of_settle (phaseCbcDec_frame _ s) h
  | unpad => exact .of_settle (phaseUnpad_frame _ s) h

theorem setOff_frame {c : Cfg} {s : State} {off : Nat} (h : s.NumbersOk c → off < 2 ^ c.lenw) :
    PhaseFrame c s (s.setOff off) :=
  ⟨⟨0, frame_setOff 0 s off⟩, fun hs => ⟨hs.result, hs.n, hs.padded, h hs⟩⟩

/-! ## The sequence of the phases -/

/-- Only an engine with no command in progress is idle (R40). -/
theorem phaseFits_none {p : Phase} (h : phaseFits p none = true) : p = .idle := by
  cases p with
  | idle => rfl
  | _ => cases h

/-- A phase of ENCRYPT alone says that ENCRYPT is in progress (R40). -/
theorem cmd_eq_encrypt {p : Phase} {cmd : Option Command} (h : phaseFits p cmd = true) (hi : p ≠ .idle)
    (hk : phaseFits p (some .ksched) = false) (hd : phaseFits p (some .decrypt) = false) : cmd = some .encrypt :=
  match cmd with
  | none => absurd (phaseFits_none h) hi
  | some .ksched => absurd (hk.symm.trans h) Bool.false_ne_true
  | some .encrypt => rfl
  | some .decrypt => absurd (hd.symm.trans h) Bool.false_ne_true

/-- A phase of DECRYPT alone says that DECRYPT is in progress (R40). -/
theorem cmd_eq_decrypt {p : Phase} {cmd : Option Command} (h : phaseFits p cmd = true) (hi : p ≠ .idle)
    (hk : phaseFits p (some .ksched) = false) (he : phaseFits p (some .encrypt) = false) : cmd = some .decrypt :=
  match cmd with
  | none => absurd (phaseFits_none h) hi
  | some .ksched => absurd (hk.symm.trans h) Bool.false_ne_true
  | some .encrypt => absurd (he.symm.trans h) Bool.false_ne_true
  | some .decrypt => rfl

/-- A phase of KSCHED says that KSCHED is in progress (R40). -/
theorem cmd_eq_ksched {p : Phase} {cmd : Option Command} (h : phaseFits p cmd = true)
    (hk : phaseFits p (some .ksched) = true) : cmd = some .ksched := by
  cases p with
  | ksSeed | ksSbox | ksShift | ksMixc | ksRkeys =>
    match cmd with
    | none => cases phaseFits_none h
    | some .ksched => rfl
    | some .encrypt | some .decrypt => cases h
  | _ => cases hk

/-- Where an ENCRYPT or a DECRYPT in progress can stand after a move of the engine: it has ended with E_BUS, it has gone on
to the phase `q` of the same command, or it has ended by `complete` (R40, R242, R249). -/
inductive Continues (c : Cfg) (s : State) : State → Prop where
  | bus {u : State} (n : Nat) (hu : PhaseFrame c s u) : Continues c s ((u.refuseBus c n).retire c)
  | goto {u : State} {q : Phase} (hu : PhaseFrame c s u) (hq : phaseFits q s.cmd = true) (hi : q ≠ .idle) :
    Continues c s (u.setPhase q)
  | endEncrypt {u : State} (hu : PhaseFrame c s u) : Continues c s (endEncrypt c u)
  | endDecrypt {u : State} (hu : PhaseFrame c s u) : Continues c s (endDecrypt c u)

theorem PhaseFrame.cmd {c : Cfg} {s t : State} (h : PhaseFrame c s t) : t.cmd = s.cmd :=
  h.frame.elim fun _ hf => hf.cmd

theorem PhaseFrame.phase {c : Cfg} {s t : State} (h : PhaseFrame c s t) : t.phase = s.phase :=
  h.frame.elim fun _ hf => hf.phase

theorem Continues.prepend {c : Cfg} {s t u : State} (h : PhaseFrame c s t) (h' : Continues c t u) : Continues c s u := by
  cases h' with
  | bus n hu => exact .bus n (h.trans hu)
  | goto hu hq hi => exact .goto (h.trans hu) (h.cmd ▸ hq) hi
  | endEncrypt hu => exact .endEncrypt (h.trans hu)
  | endDecrypt hu => exact .endDecrypt (h.trans hu)

/-- A move of the engine in an ENCRYPT or a DECRYPT leaves the key context alone (R27, R163). -/
theorem Continues.context {c : Cfg} {s t : State} (h : Continues c s t) : ContextFrame s t := by
  cases h with
  | bus n hu => exact hu.context.trans (refuseBus_retire_context c n _)
  | goto hu hq hi => exact hu.context.trans (setPhase_context _ _)
  | endEncrypt hu => exact hu.context.trans (endEncrypt_context c _)
  | endDecrypt hu => exact hu.context.trans (endDecrypt_context c _)

/-- Where ENCBLK leads: to the next block, or to the end of ENCRYPT (R183, R184). -/
theorem afterEncBlock_continues {c : Cfg} {s t : State} (hc : s.cmd = some .encrypt)
    (h : afterEncBlock c s = .next t) : Continues c s t := by
  unfold afterEncBlock at h
  simp only [← apply_ite Run.go] at h
  obtain ⟨u, hu, rfl | rfl⟩ := (encStore_frame c s).settle_bind h
  · split
    · next hlt =>
      exact .goto (hu.trans (setOff_frame fun hn => hlt.trans hn.padded)) (hc ▸ rfl) (by decide)
    · exact .endEncrypt hu
  · exact .bus _ hu

/-- Where DECBLK leads: to the next block, or to UNPAD (R185, R186). -/
theorem afterDecBlock_continues {c : Cfg} {s t : State} (hc : s.cmd = some .decrypt)
    (h : afterDecBlock c s = .next t) : Continues c s t := by
  unfold afterDecBlock at h
  simp only [← apply_ite Run.go] at h
  obtain ⟨u, hu, rfl | rfl⟩ := (decStore_frame c s).settle_bind h
  · split
    · next hlt => exact .goto (hu.trans (setOff_frame fun hn => hlt.trans hn.n)) (hc ▸ rfl) (by decide)
    · exact .goto hu (hc ▸ rfl) (by decide)
  · exact .bus _ hu

theorem PhaseFrame.refl (c : Cfg) (s : State) : PhaseFrame c s s :=
  ⟨⟨0, CbcFrame.rfl' 0 s⟩, id⟩

/-- Where ARK leads, in a round of ENCRYPT and in one of DECRYPT (R159, R161). -/
theorem afterArk_continues {c : Cfg} {s t : State} (hf : phaseFits .ark s.cmd = true) (h : afterArk c s = .next t) :
    Continues c s t := by
  unfold afterArk at h
  split at h
  · next hd => cases h; exact .goto (.refl c s) (hd ▸ rfl) (by decide)
  · next hd =>
    have hc : s.cmd = some .encrypt := by
      cases hs : s.cmd with
      | none => rw [hs] at hf; cases hf
      | some cmd =>
        cases cmd with
        | ksched => rw [hs] at hf; cases hf
        | encrypt => rfl
        | decrypt => exact absurd hs hd
    split at h
    · exact afterEncBlock_continues hc h
    · cases h; exact .goto (setRnd_frame c s _) (hc ▸ rfl) (by decide)

/-- Where ISUB leads (R161). -/
theorem afterIsub_continues {c : Cfg} {s t : State} (hc : s.cmd = some .decrypt) (h : afterIsub c s = .next t) :
    Continues c s t := by
  unfold afterIsub at h
  split at h
  · exact afterDecBlock_continues hc h
  · cases h; exact .goto (setRnd_frame c s _) (hc ▸ rfl) (by decide)

/-- Where the phases of ENCRYPT and DECRYPT lead (R40). -/
theorem advance_continues {c : Cfg} {p : Phase} {s t : State} (hf : phaseFits p s.cmd = true) (hi : p ≠ .idle)
    (hk : phaseFits p (some .ksched) = false) (h : advance c p s = .next t) : Continues c s t := by
  cases p with
  | idle => exact absurd rfl hi
  | ksSeed | ksSbox | ksShift | ksMixc | ksRkeys => cases hk
  | sub | shiftr | mix =>
    cases h
    exact .goto (.refl c s) (cmd_eq_encrypt hf hi hk rfl ▸ rfl) (by decide)
  | imix | ishiftr | cbcDec =>
    cases h
    exact .goto (.refl c s) (cmd_eq_decrypt hf hi hk rfl ▸ rfl) (by decide)
  | ark => exact afterArk_continues hf h
  | isub => exact afterIsub_continues (cmd_eq_decrypt hf hi hk rfl) h
  | encblk => exact afterEncBlock_continues (cmd_eq_encrypt hf hi hk rfl) h
  | decblk => exact afterDecBlock_continues (cmd_eq_decrypt hf hi hk rfl) h
  | pad =>
    cases h
    exact .goto (setOff_frame fun _ => Nat.two_pow_pos _) (cmd_eq_encrypt hf hi hk rfl ▸ rfl) (by decide)
  | cbcEnc => cases h; exact .endEncrypt (.refl c s)
  | unpad => cases h; exact .endDecrypt (.refl c s)

/-- Where entering a composite phase leads (R183, R185, R159, R161). -/
theorem enter_continues {c : Cfg} {s t : State} (hf : phaseFits s.phase s.cmd = true)
    (hm : isComposite s.phase = true) (h : enter c s = .next t) : Continues c s t := by
  unfold enter at h
  cases hp : s.phase with
  | cbcEnc =>
    rw [hp] at h hf
    obtain ⟨u, hu, rfl | rfl⟩ := (encLoad_frame c s).settle_bind h
    · exact .goto hu (cmd_eq_encrypt hf (by decide) rfl rfl ▸ rfl) (by decide)
    · exact .bus _ hu
  | cbcDec =>
    rw [hp] at h hf
    obtain ⟨u, hu, rfl | rfl⟩ := (decLoad_frame c s).settle_bind h
    · exact .goto hu (cmd_eq_decrypt hf (by decide) rfl rfl ▸ rfl) (by decide)
    · exact .bus _ hu
  | encblk =>
    rw [hp] at h hf
    cases h
    exact .goto (setRnd_frame c s 0) (cmd_eq_encrypt hf (by decide) rfl rfl ▸ rfl) (by decide)
  | decblk =>
    rw [hp] at h hf
    cases h
    exact .goto (setRnd_frame c s 7) (cmd_eq_decrypt hf (by decide) rfl rfl ▸ rfl) (by decide)
  | _ => rw [hp] at hm; cases hm

/-! ## A move of the engine -/

theorem engineStep_idle {s : State} (hp : s.phase = .idle) : engineStep s = .next s := by
  simp [engineStep, proceed, exec, execIdle, Phase.instr, isComposite, hp]

theorem engineStep_ksSeed {s : State} (hp : s.phase = .ksSeed) :
    engineStep s = .next ((ksSeed s.cfg s).setPhase .ksSbox) := by
  simp [engineStep, proceed, exec, execKsSeed, Phase.instr, isComposite, advance, ksSeed, hp]

theorem engineStep_ksSbox {s : State} (hp : s.phase = .ksSbox) :
    engineStep s = .next ((ksSbox s.cfg s).setPhase .ksShift) := by
  simp [engineStep, proceed, exec, execKsSbox, Phase.instr, isComposite, advance, ksSbox, hp]

theorem engineStep_ksShift {s : State} (hp : s.phase = .ksShift) :
    engineStep s = .next ((ksShift s.cfg s).setPhase .ksMixc) := by
  simp [engineStep, proceed, exec, execKsShift, Phase.instr, isComposite, advance, ksShift, hp]

theorem engineStep_ksMixc {s : State} (hp : s.phase = .ksMixc) :
    engineStep s = .next ((ksMixc s.cfg s).setPhase .ksRkeys) := by
  simp [engineStep, proceed, exec, execKsMixc, Phase.instr, isComposite, advance, ksMixc, hp]

theorem engineStep_ksRkeys {s : State} (hp : s.phase = .ksRkeys) :
    engineStep s = .next (endKsched s.cfg (ksRkeys s.cfg s)) := by
  simp [engineStep, proceed, exec, execKsRkeys, Phase.instr, isComposite, advance, ksRkeys, hp]

/-- A move of the engine in an ENCRYPT or a DECRYPT (R40): a composite phase is entered, or the phase runs and, unless it
has ended the command with E_BUS, the engine moves on. -/
theorem engineStep_continues {s t : State} (hf : phaseFits s.phase s.cmd = true) (hi : s.phase ≠ .idle)
    (hk : phaseFits s.phase (some .ksched) = false) (h : engineStep s = .next t) : Continues s.cfg s t := by
  obtain ⟨-, hm, he⟩ | ⟨u, hu, hend⟩ := engineStep_cases h
  · exact enter_continues hf hm he
  · obtain ⟨v, hv, rfl | ⟨n, rfl⟩⟩ := exec_phase_end hk hu
    · obtain ⟨hidle, -⟩ | ⟨-, ha⟩ := hend
      · exact absurd (hv.phase.symm.trans hidle) hi
      · exact (advance_continues (hv.cmd.symm ▸ hf) hi hk ha).prepend hv
    · obtain ⟨-, rfl⟩ | ⟨hbusy, -⟩ := hend
      · exact .bus n hv
      · exact absurd (by simp) hbusy

end Sys2Proof.Machine

/-! # The invariant, kept by each way a move of the engine can end -/

namespace Sys2Proof.Machine

/-! ## The invariant of an idle engine -/

/-- What the invariant says of the data, whatever the engine is doing: the canonical form of memory, the widths, FAULT with
every code, and the properties of R20 in a keyed context. -/
structure State.DataOk (c : Cfg) (s : State) : Prop where
  mem : s.mem.wf = true
  dataPtr : s.dataPtr < 2 ^ c.aw
  len : s.len < 2 ^ c.lenw
  result : s.result < 2 ^ c.lenw
  work : s.work.WidthsOk c
  fault : s.status.cc ≠ .ok → s.status.fault = true
  keyed : s.status.keyed = true → s.ds.Valid

/-- No command is in progress. -/
structure State.Idle (s : State) : Prop where
  phase : s.phase = .idle
  cmd : s.cmd = none
  busy : s.status.busy = false
  trespass : s.trespass = false

theorem State.Inv.data {s : State} (h : s.Inv) : s.DataOk s.cfg :=
  ⟨h.mem, h.dataPtr, h.len, h.result, h.work, h.fault, h.keyed⟩

/-- An engine that is not busy is idle in every respect (R30, R40, R71). -/
theorem State.Inv.idle {s : State} (h : s.Inv) (hb : s.status.busy = false) : s.Idle := by
  have hp : s.phase = .idle := by
    by_contra hne
    rw [h.busy.mpr hne] at hb
    cases hb
  have hc : s.cmd = none := by
    have hf := h.fits
    rw [hp] at hf
    cases hs : s.cmd with
    | none => rfl
    | some cmd => rw [hs] at hf; cases hf
  refine ⟨hp, hc, hb, ?_⟩
  cases ht : s.trespass with
  | false => rfl
  | true => simpa [hc] using h.trespass ht

/-- On an idle engine the invariant is what it says of the data. -/
theorem State.Inv.of_idle {s : State} (hd : s.DataOk s.cfg) (hi : s.Idle) : s.Inv where
  mem := hd.mem
  dataPtr := hd.dataPtr
  len := hd.len
  result := hd.result
  work := hd.work
  busy := by simp [hi.busy, hi.phase]
  fits := by rw [hi.phase, hi.cmd]; rfl
  done := by simp [hi.busy]
  fault := hd.fault
  ksched := by simp [hi.cmd]
  encrypt := by simp [hi.cmd]
  decrypt := by simp [hi.cmd]
  trespass := by simp [hi.trespass]
  keyed := hd.keyed
  sboxBuilt := by simp [hi.phase]
  shiftBuilt := by simp [hi.phase]
  mixcBuilt := by simp [hi.phase]

/-- The widths are what the parameters depend on (R6, R41). -/
theorem State.cfg_eq {s t : State} (h : t.widths = s.widths) : t.cfg = s.cfg :=
  congrArg Config.cfg h

theorem OperandFrame.cfg {s t : State} (h : OperandFrame s t) : t.cfg = s.cfg :=
  State.cfg_eq h.outside.widths

/-! ## What the ends of a command keep of the data -/

theorem drawNumber_lt (w : Nat) (site : Site) (k : Nat) : drawNumber w site k < 2 ^ w :=
  Nat.mod_lt _ (Nat.two_pow_pos w)

/-- Working registers that are unspecified still fit their widths (R37, R39). -/
theorem Working.unspecified_widths (c : Cfg) (k : Nat) : (Working.unspecified c k).WidthsOk c :=
  ⟨drawNumber_lt .., drawNumber_lt .., drawNumber_lt .., drawNumber_lt ..⟩

section
variable {c : Cfg} {s : State}

theorem State.DataOk.retire (h : s.DataOk c) : (s.retire c).DataOk c where
  mem := by simpa using h.mem
  dataPtr := by simpa using h.dataPtr
  len := by simpa using h.len
  result := by simpa using h.result
  work := by simpa using Working.unspecified_widths c s.draws
  fault := by simpa using h.fault
  keyed := by simpa using h.keyed

theorem State.DataOk.setResult (h : s.DataOk c) {r : Nat} (hr : r < 2 ^ c.lenw) : (s.setResult r).DataOk c :=
  { h with result := hr }

theorem State.DataOk.complete (h : s.DataOk c) : s.complete.DataOk c :=
  { h with fault := fun hcc => absurd rfl hcc }

theorem State.DataOk.refuse (h : s.DataOk c) (code : CC) : (s.refuse code).DataOk c :=
  { h with fault := fun _ => rfl, result := Nat.two_pow_pos _ }

theorem State.DataOk.loseRange (h : s.DataOk c) (a n : Nat) : (s.loseRange c a n).DataOk c where
  mem := by simpa using Memory.wf_unspecify c a n s.draws h.mem
  dataPtr := by simpa using h.dataPtr
  len := by simpa using h.len
  result := by simpa using drawNumber_lt c.lenw .result s.draws
  work := by simpa using h.work
  fault := by simpa using h.fault
  keyed := by simpa using h.keyed

theorem State.DataOk.loseIfTrespassed (h : s.DataOk c) : (s.loseIfTrespassed c).DataOk c := by
  obtain ⟨-, he⟩ | ⟨-, he⟩ := s.loseIfTrespassed_cases c <;> rw [he]
  · exact h
  · exact h.loseRange _ _

theorem State.DataOk.refuseBus (h : s.DataOk c) (n : Nat) : (s.refuseBus c n).DataOk c :=
  { h.loseRange s.work.ptr n with fault := fun _ => rfl }

theorem State.DataOk.endKsched (h : s.DataOk c) (hv : s.ds.Valid) : (endKsched c s).DataOk c :=
  { h with
    result := Nat.two_pow_pos _
    work := Working.unspecified_widths c s.draws
    fault := fun hcc => absurd rfl hcc
    keyed := fun _ => hv }

theorem State.DataOk.endEncrypt (h : s.DataOk c) : (endEncrypt c s).DataOk c :=
  (h.setResult h.work.padded).loseIfTrespassed.complete.retire

theorem State.DataOk.endDecrypt (h : s.DataOk c) : (endDecrypt c s).DataOk c :=
  h.loseIfTrespassed.complete.retire

theorem State.DataOk.refuseCommand (h : s.DataOk c) (code : CC) : (refuseCommand c code s).DataOk c :=
  (h.refuse code).retire

theorem State.complete_retire_idle (c : Cfg) (s : State) : (s.complete.retire c).Idle :=
  ⟨rfl, rfl, rfl, rfl⟩

theorem State.refuseCommand_idle (c : Cfg) (code : CC) (s : State) : (Machine.refuseCommand c code s).Idle :=
  ⟨rfl, rfl, rfl, rfl⟩

theorem State.refuseBus_retire_idle (c : Cfg) (n : Nat) (s : State) : ((s.refuseBus c n).retire c).Idle :=
  ⟨by simp, by simp, by simp, by simp⟩

end

/-- Acceptance samples operands that fit their registers (R37). -/
theorem State.DataOk.accept {c : Cfg} {s : State} (h : s.DataOk c) (cmd : Command) : (s.accept cmd).DataOk c := by
  cases cmd with
  | ksched => exact { h with work := ⟨h.work.ptr, h.work.n, h.work.padded, h.work.off⟩ }
  | encrypt | decrypt => exact { h with work := ⟨h.dataPtr, h.len, h.work.padded, h.work.off⟩ }

/-- A command refused before its first phase leaves an engine that meets the invariant (R243). -/
theorem State.Inv.refuseCommand {s : State} (h : s.Inv) (cmd : Command) (code : CC) :
    (refuseCommand s.cfg code (s.accept cmd)).Inv :=
  have hc := ((accept_context s cmd).trans (refuseCommand_context s.cfg code _)).cfg
  .of_idle (by rw [hc]; exact (h.data.accept cmd).refuseCommand code) (State.refuseCommand_idle _ _ _)

/-! ## The invariant while a command is in progress -/

/-- What the finished phases of KSCHED have established when phase `p` begins (R125, R127, R129). -/
structure BuiltFor (p : Phase) (d : DerivedState) : Prop where
  sbox : p = .ksShift ∨ p = .ksMixc ∨ p = .ksRkeys → Inverts d.invSbox d.sbox
  shift : p = .ksMixc ∨ p = .ksRkeys → Inverts d.invShift d.shift
  mixc : p = .ksRkeys → d.mixc.getLsbD 0 = true

theorem State.Inv.built {s : State} (h : s.Inv) : BuiltFor s.phase s.ds :=
  ⟨h.sboxBuilt, h.shiftBuilt, h.mixcBuilt⟩

/-- A phase that is not one of KSCHED needs nothing built. -/
theorem BuiltFor.of_fits {p : Phase} (h : phaseFits p (some .ksched) = false) (d : DerivedState) : BuiltFor p d where
  sbox := by rintro (rfl | rfl | rfl) <;> cases h
  shift := by rintro (rfl | rfl) <;> cases h
  mixc := by rintro rfl; cases h

/-- The engine of a command in progress goes on to phase `q` of it (R40). -/
theorem State.Inv.goto {s : State} (h : s.Inv) {q : Phase} (hq : phaseFits q s.cmd = true) (hi : q ≠ .idle)
    (hb : BuiltFor q s.ds) : (s.setPhase q).Inv :=
  have hbusy : s.phase ≠ .idle := fun hp => by
    have hb := h.idle (by by_contra hb; exact h.busy.mp (by simpa using hb) hp)
    rw [hb.cmd] at hq
    exact hi (phaseFits_none hq)
  { h with
    busy := ⟨fun _ => hi, fun _ => h.busy.mpr hbusy⟩
    fits := hq
    sboxBuilt := hb.sbox
    shiftBuilt := hb.shift
    mixcBuilt := hb.mixc }

/-- A phase of ENCRYPT or DECRYPT whose accesses are admitted keeps the invariant. -/
theorem State.Inv.of_frame {s t : State} (h : s.Inv) (hf : PhaseFrame s.cfg s t) : t.Inv := by
  obtain ⟨n, f⟩ := hf.frame
  have hc : t.cfg = s.cfg := State.cfg_eq f.widths
  have hn := hf.numbers ⟨h.result, h.work.n, h.work.padded, h.work.off⟩
  exact
    { mem := f.wf h.mem
      dataPtr := by rw [hc, f.dataPtr]; exact h.dataPtr
      len := by rw [hc, f.len]; exact h.len
      result := by rw [hc]; exact hn.result
      work := by rw [hc]; exact ⟨f.ptr ▸ h.work.ptr, hn.n, hn.padded, hn.off⟩
      busy := by rw [f.status, f.phase]; exact h.busy
      fits := by rw [f.phase, f.cmd]; exact h.fits
      done := by rw [f.status]; exact h.done
      fault := by rw [f.status]; exact h.fault
      ksched := by rw [f.cmd, f.status]; exact h.ksched
      encrypt := by rw [f.cmd, f.status, f.padded, f.count]; exact h.encrypt
      decrypt := by rw [f.cmd, f.status, f.count]; exact h.decrypt
      trespass := by rw [f.trespass, f.cmd]; exact h.trespass
      keyed := by rw [f.status, f.ds]; exact h.keyed
      sboxBuilt := by rw [f.phase, f.ds]; exact h.sboxBuilt
      shiftBuilt := by rw [f.phase, f.ds]; exact h.shiftBuilt
      mixcBuilt := by rw [f.phase, f.ds]; exact h.mixcBuilt }

section
variable {s u : State}

/-- E_BUS in a phase leaves an engine that meets the invariant (R249). -/
theorem State.Inv.refuseBus (h : s.Inv) (hu : PhaseFrame s.cfg s u) (n : Nat) :
    ((u.refuseBus s.cfg n).retire s.cfg).Inv := by
  have hc := hu.context.cfg
  have hd : u.DataOk s.cfg := hc ▸ (h.of_frame hu).data
  refine .of_idle ?_ (State.refuseBus_retire_idle _ n u)
  rw [(refuseBus_retire_context s.cfg n u).cfg, hc]
  exact (hd.refuseBus n).retire

/-- The end of ENCRYPT meets the invariant (R184, R242). -/
theorem State.Inv.endEncrypt (h : s.Inv) (hu : PhaseFrame s.cfg s u) : (endEncrypt s.cfg u).Inv := by
  have hc := hu.context.cfg
  have hd : u.DataOk s.cfg := hc ▸ (h.of_frame hu).data
  refine .of_idle ?_ (State.complete_retire_idle _ _)
  rw [(endEncrypt_context s.cfg u).cfg, hc]
  exact hd.endEncrypt

/-- The end of DECRYPT meets the invariant (R186, R242). -/
theorem State.Inv.endDecrypt (h : s.Inv) (hu : PhaseFrame s.cfg s u) : (endDecrypt s.cfg u).Inv := by
  have hc := hu.context.cfg
  have hd : u.DataOk s.cfg := hc ▸ (h.of_frame hu).data
  refine .of_idle ?_ (State.complete_retire_idle _ _)
  rw [(endDecrypt_context s.cfg u).cfg, hc]
  exact hd.endDecrypt

end

/-- Every move of the engine in an ENCRYPT or a DECRYPT keeps the invariant. -/
theorem Continues.inv {s t : State} (h : s.Inv) (hk : s.cmd ≠ some .ksched) (ht : Continues s.cfg s t) : t.Inv := by
  cases ht with
  | bus n hu => exact h.refuseBus hu n
  | @goto u q hu hq hi =>
    refine (h.of_frame hu).goto (hu.cmd.symm ▸ hq) hi (.of_fits ?_ _)
    cases hq' : phaseFits q (some .ksched) with
    | false => rfl
    | true => exact absurd (cmd_eq_ksched hq hq') hk
  | endEncrypt hu => exact h.endEncrypt hu
  | endDecrypt hu => exact h.endDecrypt hu

end Sys2Proof.Machine

/-! # The invariant and the key context, along every step -/

namespace Sys2Proof.Machine

/-! ## The phases of KSCHED -/

/-- KS_SBOX leaves a table and its inverse (R125). -/
theorem ksSbox_inverts (c : Cfg) (s : State) : Inverts (ksSbox c s).ds.invSbox (ksSbox c s).ds.sbox :=
  invertTable_perm _ _

/-- KS_SHIFT leaves a table and its inverse (R127). -/
theorem ksShift_inverts (c : Cfg) (s : State) : Inverts (ksShift c s).ds.invShift (ksShift c s).ds.shift :=
  invertTable_perm _ _

/-- KS_SHIFT leaves the tables of KS_SBOX as they are (R126). -/
theorem ksShift_keeps_sbox {c : Cfg} {s : State} (h : Inverts s.ds.invSbox s.ds.sbox) :
    Inverts (ksShift c s).ds.invSbox (ksShift c s).ds.sbox := by
  simpa only [ksShift] using h

/-- A MixConstant is odd (R128, R129). -/
theorem mixConstant_odd (w : Nat) : (mixConstant w).getLsbD 0 = true := by
  rw [← BitVec.testBit_toNat, Nat.testBit_zero, mixConstant_toNat]
  simp

/-- The round keys are no part of what R20 asks of the tables. -/
theorem ksRkeys_valid {c : Cfg} {s : State} (h : s.ds.Valid) : (ksRkeys c s).ds.Valid :=
  ⟨h.sbox, h.shift, h.mixc⟩

/-- The key schedule establishes the properties of R20, whatever the context held before (R120). -/
theorem keySchedule_valid (c : Cfg) (s : State) : (keySchedule c s).ds.Valid :=
  ksRkeys_valid ⟨ksSbox_inverts c (ksSeed c s), ksShift_inverts c (ksSbox c (ksSeed c s)), mixConstant_odd _⟩

/-- What a phase of KSCHED writes: the register files, G and IDX, and nothing else (R134). -/
def KeyFrame (s t : State) : Prop :=
  ∃ d g i, t = { s with ds := d, work := { s.work with g := g, idx := i } }

theorem KeyFrame.trans {s t u : State} (h : KeyFrame s t) (h' : KeyFrame t u) : KeyFrame s u := by
  obtain ⟨d, g, i, rfl⟩ := h
  obtain ⟨d', g', i', rfl⟩ := h'
  exact ⟨d', g', i', rfl⟩

theorem ksSeed_frame (c : Cfg) (s : State) : KeyFrame s (ksSeed c s) := ⟨s.ds, _, s.work.idx, rfl⟩
theorem ksSbox_frame (c : Cfg) (s : State) : KeyFrame s (ksSbox c s) := ⟨_, _, s.work.idx, rfl⟩
theorem ksShift_frame (c : Cfg) (s : State) : KeyFrame s (ksShift c s) := ⟨_, _, s.work.idx, rfl⟩
theorem ksMixc_frame (c : Cfg) (s : State) : KeyFrame s (ksMixc c s) := ⟨_, _, s.work.idx, rfl⟩
theorem ksRkeys_frame (c : Cfg) (s : State) : KeyFrame s (ksRkeys c s) := ⟨_, _, 15, rfl⟩

theorem keySchedule_frame (c : Cfg) (s : State) : KeyFrame s (keySchedule c s) :=
  ((((ksSeed_frame c s).trans (ksSbox_frame c _)).trans (ksShift_frame c _)).trans (ksMixc_frame c _)).trans
    (ksRkeys_frame c _)

theorem KeyFrame.operands {s t : State} (h : KeyFrame s t) : OperandFrame s t := by
  obtain ⟨d, g, i, rfl⟩ := h
  exact ⟨⟨rfl, rfl, rfl, rfl⟩, ⟨rfl, rfl, rfl, rfl, rfl⟩⟩

/-- After a phase of KSCHED the engine goes on to phase `q` of it, for which the context is built (R40). -/
theorem State.Inv.keyPhase {s u : State} (h : s.Inv) (hk : s.cmd = some .ksched) (hu : KeyFrame s u) {q : Phase}
    (hq : phaseFits q (some .ksched) = true) (hb : BuiltFor q u.ds) : (u.setPhase q).Inv := by
  have hi : ∀ p, phaseFits p (some .ksched) = true → p ≠ .idle := by rintro p hp rfl; cases hp
  obtain ⟨d, g, i, rfl⟩ := hu
  exact
    { h with
      work := ⟨h.work.ptr, h.work.n, h.work.padded, h.work.off⟩
      busy := ⟨fun _ => hi q hq, fun _ => h.busy.mpr (hi _ (hk ▸ h.fits))⟩
      fits := hk ▸ hq
      keyed := fun hkeyed => absurd ((h.ksched hk).symm.trans hkeyed) Bool.false_ne_true
      sboxBuilt := hb.sbox
      shiftBuilt := hb.shift
      mixcBuilt := hb.mixc }

/-- A phase of KSCHED that leaves a context with the properties of R20 leaves the data as the invariant asks. -/
theorem State.DataOk.of_keyFrame {c : Cfg} {s u : State} (h : s.DataOk c) (hu : KeyFrame s u) (hv : u.ds.Valid) :
    u.DataOk c := by
  obtain ⟨d, g, i, rfl⟩ := hu
  exact { h with work := ⟨h.work.ptr, h.work.n, h.work.padded, h.work.off⟩, keyed := fun _ => hv }

/-- The end of KSCHED meets the invariant if the context it shows has the properties of R20 (R211). -/
theorem State.Inv.endKsched {c : Cfg} {s u : State} (hc : s.cfg = c) (h : s.DataOk c) (hu : KeyFrame s u)
    (hv : u.ds.Valid) : (endKsched c u).Inv := by
  have hce : (Machine.endKsched c u).cfg = c := (hu.operands.cfg).trans hc
  exact .of_idle (by rw [hce]; exact (h.of_keyFrame hu hv).endKsched hv) ⟨rfl, rfl, rfl, rfl⟩

/-- Every move of the engine keeps the invariant (R40). -/
theorem engineStep_inv {s t : State} (h : s.Inv) (ht : engineStep s = .next t) : t.Inv := by
  have hf := h.fits
  have hb := h.built
  cases hp : s.phase with
  | idle => rw [engineStep_idle hp] at ht; cases ht; exact h
  | ksSeed =>
    rw [engineStep_ksSeed hp] at ht; cases ht
    rw [hp] at hf
    exact h.keyPhase (cmd_eq_ksched hf rfl) (ksSeed_frame _ s) rfl ⟨by simp, by simp, by simp⟩
  | ksSbox =>
    rw [engineStep_ksSbox hp] at ht; cases ht
    rw [hp] at hf
    exact h.keyPhase (cmd_eq_ksched hf rfl) (ksSbox_frame _ s) rfl
      ⟨fun _ => ksSbox_inverts s.cfg s, by simp, by simp⟩
  | ksShift =>
    rw [engineStep_ksShift hp] at ht; cases ht
    rw [hp] at hf hb
    exact h.keyPhase (cmd_eq_ksched hf rfl) (ksShift_frame _ s) rfl
      ⟨fun _ => ksShift_keeps_sbox (hb.sbox (.inl rfl)), fun _ => ksShift_inverts s.cfg s, by simp⟩
  | ksMixc =>
    rw [engineStep_ksMixc hp] at ht; cases ht
    rw [hp] at hf hb
    exact h.keyPhase (cmd_eq_ksched hf rfl) (ksMixc_frame _ s) rfl
      ⟨fun _ => hb.sbox (.inr (.inl rfl)), fun _ => hb.shift (.inl rfl), fun _ => mixConstant_odd _⟩
  | ksRkeys =>
    rw [engineStep_ksRkeys hp] at ht; cases ht
    rw [hp] at hb
    exact .endKsched rfl h.data (ksRkeys_frame _ s)
      (ksRkeys_valid ⟨hb.sbox (.inr (.inr rfl)), hb.shift (.inr rfl), hb.mixc rfl⟩)
  | sub | shiftr | mix | ark | isub | ishiftr | imix | encblk | decblk | pad | cbcEnc | cbcDec | unpad =>
    have hk : phaseFits s.phase (some .ksched) = false := by rw [hp]; rfl
    refine (engineStep_continues hf (by rw [hp]; decide) hk ht).inv h fun hc => ?_
    rw [hc, hk] at hf
    cases hf

/-! ## The commands -/

/-- What KSCHED can do: it is dropped, refused, run to its end, or accepted (R210, R211, R212). -/
theorem kschedCommand_cases (c : Cfg) (s : State) :
    (s.status.busy = true ∧ kschedCommand c s = s.dropCommand) ∨
    (s.status.busy = false ∧ s.status.keyed = true ∧ kschedCommand c s = refuseCommand c .eKeyed (s.accept .ksched)) ∨
    (s.status.busy = false ∧ s.status.keyed = false ∧ (kschedCommand c s = s.accept .ksched ∨
      kschedCommand c s = endKsched c (keySchedule c (s.accept .ksched)))) := by
  unfold kschedCommand
  cases hb : s.status.busy with
  | true => exact .inl ⟨rfl, rfl⟩
  | false =>
    cases hk : s.status.keyed with
    | true => exact .inr (.inl ⟨rfl, rfl, rfl⟩)
    | false =>
      refine .inr (.inr ⟨rfl, rfl, ?_⟩)
      cases hp : s.pace with
      | atomic => exact .inr rfl
      | phases | micro => exact .inl rfl

/-- What ENCRYPT can do: it is dropped, refused, accepted, run to its end, or stopped by E_BUS (R210, R213, R249). -/
theorem encryptCommand_cases {c : Cfg} {s t : State} (h : encryptCommand c s = .next t) :
    (s.status.busy = true ∧ t = s.dropCommand) ∨
    (s.status.busy = false ∧ ∃ code, t = refuseCommand c code (s.accept .encrypt)) ∨
    (s.status.busy = false ∧ s.status.keyed = true ∧ paddedLength s.len < 2 ^ c.lenw ∧
      (t = launchEncrypt (s.accept .encrypt) ∨ ∃ u, PhaseFrame c (launchEncrypt (s.accept .encrypt)) u ∧
        (t = endEncrypt c u ∨ ∃ n, t = (u.refuseBus c n).retire c))) := by
  unfold encryptCommand at h
  split at h
  · next hb => cases h; exact .inl ⟨hb, rfl⟩
  next hb =>
  have hb : s.status.busy = false := by simpa using hb
  refine .inr ?_
  split at h
  · cases h; exact .inl ⟨hb, _, rfl⟩
  next hk =>
  split at h
  · cases h; exact .inl ⟨hb, _, rfl⟩
  next hl =>
  refine .inr ⟨hb, by simpa using hk, Nat.not_le.mp hl, ?_⟩
  split at h
  · obtain ⟨u, hu, ht⟩ := (runEncrypt_frame c _).settle_bind h
    exact .inr ⟨u, hu, ht.imp_right fun he => ⟨_, he⟩⟩
  · cases h; exact .inl rfl
  · cases h; exact .inl rfl

/-- What DECRYPT can do: it is dropped, refused, accepted, run to its end, or stopped by E_BUS (R210, R214, R249). -/
theorem decryptCommand_cases {c : Cfg} {s t : State} (h : decryptCommand c s = .next t) :
    (s.status.busy = true ∧ t = s.dropCommand) ∨
    (s.status.busy = false ∧ ∃ code, t = refuseCommand c code (s.accept .decrypt)) ∨
    (s.status.busy = false ∧ s.status.keyed = true ∧ s.len ≠ 0 ∧ s.len % 16 = 0 ∧
      ∃ u, PhaseFrame c (s.accept .decrypt) u ∧
        (t = u ∨ t = endDecrypt c u ∨ ∃ n, t = (u.refuseBus c n).retire c)) := by
  unfold decryptCommand at h
  split at h
  · next hb => cases h; exact .inl ⟨hb, rfl⟩
  next hb =>
  have hb : s.status.busy = false := by simpa using hb
  refine .inr ?_
  split at h
  · cases h; exact .inl ⟨hb, _, rfl⟩
  next hk =>
  split at h
  · cases h; exact .inl ⟨hb, _, rfl⟩
  next hl =>
  obtain ⟨hz, hm⟩ : s.len ≠ 0 ∧ ¬ s.len % 16 ≠ 0 := not_or.mp hl
  refine .inr ⟨hb, by simpa using hk, hz, not_not.mp hm, ?_⟩
  split at h
  · obtain ⟨u, hu, ht⟩ := (runDecrypt_frame c _).settle_bind h
    exact ⟨u, hu, .inr (ht.imp_right fun he => ⟨_, he⟩)⟩
  · cases h; exact ⟨_, .refl c _, .inl rfl⟩
  · cases h; exact ⟨_, setOff_frame fun _ => Nat.two_pow_pos _, .inl rfl⟩

section
variable {s : State}

/-- A dropped command sets FAULT alone (R258). -/
theorem State.Inv.dropCommand (h : s.Inv) : s.dropCommand.Inv :=
  { h with fault := fun _ => rfl }

/-- Acceptance meets the invariant where the command finds the context it needs (R210, R211, R213, R214). -/
theorem State.Inv.accept_ksched (h : s.Inv) (hk : s.status.keyed = false) : (s.accept .ksched).Inv :=
  { h.data.accept .ksched with
    busy := by simp [firstPhase]
    fits := rfl
    done := fun _ => rfl
    ksched := fun _ => hk
    encrypt := by simp
    decrypt := by simp
    trespass := by simp
    sboxBuilt := by simp [firstPhase]
    shiftBuilt := by simp [firstPhase]
    mixcBuilt := by simp [firstPhase] }

theorem State.Inv.launchEncrypt (h : s.Inv) (hk : s.status.keyed = true) (hl : paddedLength s.len < 2 ^ s.cfg.lenw) :
    (launchEncrypt (s.accept .encrypt)).Inv :=
  { h.data.accept .encrypt with
    work := ⟨h.dataPtr, h.len, hl, h.work.off⟩
    busy := by simp [Machine.launchEncrypt, firstPhase]
    fits := rfl
    done := fun _ => rfl
    ksched := by simp [Machine.launchEncrypt]
    encrypt := fun _ => ⟨hk, rfl⟩
    decrypt := by simp [Machine.launchEncrypt]
    trespass := by simp [Machine.launchEncrypt]
    sboxBuilt := by simp [Machine.launchEncrypt, firstPhase]
    shiftBuilt := by simp [Machine.launchEncrypt, firstPhase]
    mixcBuilt := by simp [Machine.launchEncrypt, firstPhase] }

theorem State.Inv.accept_decrypt (h : s.Inv) (hk : s.status.keyed = true) (hz : s.len ≠ 0) (hm : s.len % 16 = 0) :
    (s.accept .decrypt).Inv :=
  { h.data.accept .decrypt with
    busy := by simp [firstPhase]
    fits := rfl
    done := fun _ => rfl
    ksched := by simp
    encrypt := by simp
    decrypt := fun _ => ⟨hk, hz, hm⟩
    trespass := by simp
    sboxBuilt := by simp [firstPhase]
    shiftBuilt := by simp [firstPhase]
    mixcBuilt := by simp [firstPhase] }

/-- KSCHED keeps the invariant (R211). -/
theorem State.Inv.kschedCommand (h : s.Inv) : (kschedCommand s.cfg s).Inv := by
  obtain ⟨-, he⟩ | ⟨-, -, he⟩ | ⟨-, hk, he | he⟩ := kschedCommand_cases s.cfg s <;> rw [he]
  · exact h.dropCommand
  · exact h.refuseCommand .ksched .eKeyed
  · exact h.accept_ksched hk
  · exact .endKsched (accept_context s .ksched).cfg (h.data.accept .ksched) (keySchedule_frame _ _)
      (keySchedule_valid _ _)

/-- ENCRYPT keeps the invariant (R213). -/
theorem State.Inv.encryptCommand (h : s.Inv) {t : State} (ht : encryptCommand s.cfg s = .next t) : t.Inv := by
  obtain ⟨-, rfl⟩ | ⟨-, code, rfl⟩ | ⟨-, hk, hl, hrun⟩ := encryptCommand_cases ht
  · exact h.dropCommand
  · exact h.refuseCommand .encrypt code
  · have hr := h.launchEncrypt hk hl
    obtain rfl | ⟨u, hu, rfl | ⟨n, rfl⟩⟩ := hrun
    · exact hr
    · exact hr.endEncrypt hu
    · exact hr.refuseBus hu n

/-- DECRYPT keeps the invariant (R214). -/
theorem State.Inv.decryptCommand (h : s.Inv) {t : State} (ht : decryptCommand s.cfg s = .next t) : t.Inv := by
  obtain ⟨-, rfl⟩ | ⟨-, code, rfl⟩ | ⟨-, hk, hz, hm, u, hu, hend⟩ := decryptCommand_cases ht
  · exact h.dropCommand
  · exact h.refuseCommand .decrypt code
  · have hr := h.accept_decrypt hk hz hm
    obtain rfl | rfl | ⟨n, rfl⟩ := hend
    · exact hr.of_frame hu
    · exact hr.endDecrypt hu
    · exact hr.refuseBus hu n

end

theorem emptyContext_eq (s : State) : ∃ d k, s.emptyContext = { s with ds := d, draws := k } := by
  unfold State.emptyContext
  split <;> exact ⟨_, _, rfl⟩

/-- What RELEASE can do: it is dropped, or it empties the context (R215). -/
theorem releaseCommand_cases (s : State) :
    (s.status.busy = true ∧ releaseCommand s = s.dropCommand) ∨
    (s.status.busy = false ∧ ∃ d k, releaseCommand s = ({ s with
      status := s.status.accept.clearKeyed, result := 0, ds := d, cmd := none, draws := k } : State).complete) := by
  unfold releaseCommand
  cases hb : s.status.busy with
  | true => exact .inl ⟨rfl, rfl⟩
  | false =>
    obtain ⟨d, k, he⟩ := emptyContext_eq s.acceptPlain
    exact .inr ⟨rfl, d, k, by simp [he]⟩

/-- RELEASE keeps the invariant (R215). -/
theorem State.Inv.releaseCommand {s : State} (h : s.Inv) : (releaseCommand s).Inv := by
  obtain ⟨-, he⟩ | ⟨-, d, k, he⟩ := releaseCommand_cases s <;> rw [he]
  · exact h.dropCommand
  · exact .of_idle
      { h.data with
        result := Nat.two_pow_pos _
        fault := fun hcc => absurd rfl hcc
        keyed := fun hk => absurd hk Bool.false_ne_true } ⟨rfl, rfl, rfl, rfl⟩

/-- A reserved word keeps the invariant (R244). -/
theorem State.Inv.reservedCommand {s : State} (h : s.Inv) : (reservedCommand s).Inv := by
  unfold Machine.reservedCommand
  split
  · exact h.dropCommand
  · exact .of_idle { h.data with result := Nat.two_pow_pos _, fault := fun _ => rfl } ⟨rfl, rfl, rfl, rfl⟩

/-- Every command the host writes keeps the invariant (R91, R93). -/
theorem exec_decodeCmd_inv {s t : State} (h : s.Inv) {word : Byte} (ht : exec (decodeCmd word) s = .next t) : t.Inv := by
  unfold decodeCmd at ht
  split_ifs at ht
  · cases ht; exact h.kschedCommand
  · exact h.encryptCommand ht
  · exact h.decryptCommand ht
  · cases ht; exact h.releaseCommand
  · cases ht; exact h.reservedCommand

/-! ## The host -/

/-- What a host access other than a write to CMD, DATA_PTR or LEN leaves as it was. -/
structure AccessFrame (s t : State) : Prop where
  status : t.status = s.status
  dataPtr : t.dataPtr = s.dataPtr
  len : t.len = s.len
  ds : t.ds = s.ds
  work : t.work = s.work
  phase : t.phase = s.phase
  cmd : t.cmd = s.cmd
  widths : t.widths = s.widths

theorem hostReadReg_frame (s : State) (r : Reg) : AccessFrame s (s.hostReadReg r) := by constructor <;> simp

theorem hostWrite_frame (s : State) (c : Cfg) (a : Nat) (bytes : List Byte) : AccessFrame s (s.hostWrite c a bytes) := by
  constructor <;> simp

theorem hostRead_frame (s : State) (c : Cfg) (a n : Nat) : AccessFrame s (s.hostRead c a n) := by constructor <;> simp

/-- A host access keeps the invariant if it leaves memory, RESULT and the record of a broken duty as that asks (R71, R96). -/
theorem State.Inv.of_access {s t : State} (h : s.Inv) (hf : AccessFrame s t) (hmem : t.mem.wf = true)
    (hr : t.result < 2 ^ s.cfg.lenw) (ht : t.trespass = true → s.cmd = some .encrypt ∨ s.cmd = some .decrypt) : t.Inv := by
  have hc : t.cfg = s.cfg := State.cfg_eq hf.widths
  exact
    { mem := hmem
      dataPtr := by rw [hc, hf.dataPtr]; exact h.dataPtr
      len := by rw [hc, hf.len]; exact h.len
      result := by rw [hc]; exact hr
      work := by rw [hc, hf.work]; exact h.work
      busy := by rw [hf.status, hf.phase]; exact h.busy
      fits := by rw [hf.phase, hf.cmd]; exact h.fits
      done := by rw [hf.status]; exact h.done
      fault := by rw [hf.status]; exact h.fault
      ksched := by rw [hf.cmd, hf.status]; exact h.ksched
      encrypt := by rw [hf.cmd, hf.status, hf.work]; exact h.encrypt
      decrypt := by rw [hf.cmd, hf.status, hf.work]; exact h.decrypt
      trespass := by rw [hf.cmd]; exact ht
      keyed := by rw [hf.status, hf.ds]; exact h.keyed
      sboxBuilt := by rw [hf.phase, hf.ds]; exact h.sboxBuilt
      shiftBuilt := by rw [hf.phase, hf.ds]; exact h.shiftBuilt
      mixcBuilt := by rw [hf.phase, hf.ds]; exact h.mixcBuilt }

/-- The invariant says nothing of the moves to come. -/
theorem State.Inv.setTurns {s : State} (h : s.Inv) (turns : List Turn) : ({ s with turns := turns } : State).Inv :=
  { h with }

/-- A read of a register keeps the invariant (R28). -/
theorem State.Inv.hostReadReg {s : State} (h : s.Inv) (r : Reg) : (s.hostReadReg r).Inv :=
  h.of_access (hostReadReg_frame s r) (by simpa using h.mem) (by simpa using h.result) (by simpa using h.trespass)

/-- What a host access records of a broken duty it records of a command with a buffer (R71, R280). -/
theorem State.Inv.trespass_access {s : State} (h : s.Inv) {a n : Nat}
    (ht : (s.trespass || decide (meetsBuffer s a n)) = true) : s.cmd = some .encrypt ∨ s.cmd = some .decrypt := by
  rw [Bool.or_eq_true, decide_eq_true_iff] at ht
  exact ht.elim h.trespass meetsBuffer_cmd

/-- A host write to memory keeps the invariant (R71). -/
theorem State.Inv.hostWrite {s : State} (h : s.Inv) (a : Nat) (bytes : List Byte) : (s.hostWrite s.cfg a bytes).Inv :=
  h.of_access (hostWrite_frame ..) (State.wf_hostWrite _ a bytes h.mem) (State.result_loseUnseen _ a _ h.result)
    fun ht => h.trespass_access (by simpa only [State.hostWrite_trespass] using ht)

/-- A host read of memory keeps the invariant (R71). -/
theorem State.Inv.hostRead {s : State} (h : s.Inv) (a n : Nat) : (s.hostRead s.cfg a n).Inv :=
  h.of_access (hostRead_frame ..) (State.wf_loseUnseen _ a n h.mem) (State.result_loseUnseen _ a n h.result)
    fun ht => h.trespass_access (by simpa only [State.hostRead_trespass] using ht)

/-- The reset input leaves an engine that meets the invariant, whatever it was doing (R270, R271). -/
theorem State.Inv.assertReset {s : State} (h : s.Inv) : (s.assertReset s.cfg).Inv :=
  .of_idle
    { mem := Memory.wf_unspecify _ _ _ _ h.mem
      dataPtr := drawNumber_lt ..
      len := drawNumber_lt ..
      result := Nat.two_pow_pos _
      work := Working.unspecified_widths _ _
      fault := fun hcc => absurd rfl hcc
      keyed := fun hk => absurd hk Bool.false_ne_true } ⟨rfl, rfl, rfl, rfl⟩

/-- Every move of the host that is no command keeps the invariant (R28 to R35, R94, R96). -/
theorem hostMove_inv {m : HostMove} {s t : State} (h : s.Inv) (ht : hostMove s.cfg m s = .next t) : t.Inv := by
  cases m with
  | wrCmd | wrStatus | wrResult | wrAbsent | wait => cases ht; exact h
  | wrKey v => cases ht; exact { h with }
  | wrIv v => cases ht; exact { h with }
  | wrDataPtr v => cases ht; exact { h with dataPtr := Nat.mod_lt _ (Nat.two_pow_pos _) }
  | wrLen v => cases ht; exact { h with len := Nat.mod_lt _ (Nat.two_pow_pos _) }
  | rd r => cases ht; exact h.hostReadReg r
  | memWrite a bytes => obtain ⟨-, rfl⟩ := hostAccess_eq_next ht; exact h.hostWrite a bytes
  | memRead a n => obtain ⟨-, rfl⟩ := hostAccess_eq_next ht; exact h.hostRead a n
  | rst => cases ht; exact h.assertReset

/-- Every step keeps the invariant. -/
theorem step_inv {s t : State} (h : s.Inv) (ht : step s = .next t) : t.Inv := by
  obtain ⟨m, rest, -, hm⟩ | ⟨rest, -, he⟩ := step_cases ht
  · have hr := h.setTurns rest
    obtain ⟨word, -, hw⟩ | ⟨-, -, rfl⟩ | ⟨-, -, hw⟩ | hw := hostStep_cases hm
    · exact exec_decodeCmd_inv hr hw
    · exact hr.hostReadReg .status
    · exact engineStep_inv ((hr.hostReadReg .status).setTurns _) hw
    · exact hostMove_inv hr hw
  · exact engineStep_inv (h.setTurns rest) he

/-! ## What a step does to the key context -/

/-- What a step can do to the key context: leave it and its mark alone, leave it unmarked, or end a KSCHED that builds it,
for the reason `cause` (R27, R211). -/
inductive ContextStep (cause : Prop) (s t : State) : Prop where
  | kept (ds : t.ds = s.ds) (keyed : t.status.keyed = s.status.keyed)
  | empty (keyed : t.status.keyed = false)
  | built (cause : cause) (keyed : s.status.keyed = false) (valid : t.ds.Valid) (cc : t.status.cc = .ok)
      (busy : t.status.busy = false) (result : t.result = 0)

theorem ContextStep.imp {P Q : Prop} {s s' t : State} (h : ContextStep P s t) (hPQ : P → Q) (hd : s.ds = s'.ds)
    (hk : s.status.keyed = s'.status.keyed) : ContextStep Q s' t := by
  cases h with
  | kept ds keyed => exact .kept (ds.trans hd) (keyed.trans hk)
  | empty keyed => exact .empty keyed
  | built cause keyed valid cc busy result => exact .built (hPQ cause) (hk ▸ keyed) valid cc busy result

theorem ContextFrame.contextStep {P : Prop} {s t : State} (h : ContextFrame s t) : ContextStep P s t :=
  .kept h.ds h.keyed

theorem AccessFrame.contextStep {P : Prop} {s t : State} (h : AccessFrame s t) : ContextStep P s t :=
  .kept h.ds (congrArg Status.keyed h.status)

/-- A phase of KSCHED finds the context empty and leaves it so (R211). -/
theorem KeyFrame.contextStep {P : Prop} {s u : State} (hu : KeyFrame s u) (hk : s.status.keyed = false) (q : Phase) :
    ContextStep P s (u.setPhase q) := by
  obtain ⟨d, g, i, rfl⟩ := hu
  exact .empty hk

/-- A move of the engine marks the key context in the last phase of KSCHED alone (R27, R211). -/
theorem engineStep_contextStep {s t : State} (h : s.Inv) (ht : engineStep s = .next t) :
    ContextStep (s.phase = .ksRkeys) s t := by
  have hf := h.fits
  cases hk : phaseFits s.phase (some .ksched) with
  | false =>
    by_cases hi : s.phase = .idle
    · rw [engineStep_idle hi] at ht; cases ht; exact .kept rfl rfl
    · exact (engineStep_continues hf hi hk ht).context.contextStep
  | true =>
    have hempty : s.status.keyed = false := h.ksched (cmd_eq_ksched hf hk)
    cases hp : s.phase with
    | ksSeed => rw [engineStep_ksSeed hp] at ht; cases ht; exact (ksSeed_frame _ s).contextStep hempty _
    | ksSbox => rw [engineStep_ksSbox hp] at ht; cases ht; exact (ksSbox_frame _ s).contextStep hempty _
    | ksShift => rw [engineStep_ksShift hp] at ht; cases ht; exact (ksShift_frame _ s).contextStep hempty _
    | ksMixc => rw [engineStep_ksMixc hp] at ht; cases ht; exact (ksMixc_frame _ s).contextStep hempty _
    | ksRkeys =>
      have hv := (engineStep_inv h ht).keyed
      rw [engineStep_ksRkeys hp] at ht; cases ht
      exact .built rfl hempty (hv rfl) rfl rfl rfl
    | _ => rw [hp] at hk; cases hk

/-- ENCRYPT leaves the key context alone, however it ends (R163, R213). -/
theorem encryptCommand_context {c : Cfg} {s t : State} (ht : encryptCommand c s = .next t) : ContextFrame s t := by
  have ha := accept_context s .encrypt
  obtain ⟨-, rfl⟩ | ⟨-, code, rfl⟩ | ⟨-, -, -, hrun⟩ := encryptCommand_cases ht
  · exact dropCommand_context s
  · exact ha.trans (refuseCommand_context c code _)
  · have hl := ha.trans (launchEncrypt_context _)
    obtain rfl | ⟨u, hu, rfl | ⟨n, rfl⟩⟩ := hrun
    · exact hl
    · exact (hl.trans hu.context).trans (endEncrypt_context c u)
    · exact (hl.trans hu.context).trans (refuseBus_retire_context c n u)

/-- DECRYPT leaves the key context alone, however it ends (R163, R214). -/
theorem decryptCommand_context {c : Cfg} {s t : State} (ht : decryptCommand c s = .next t) : ContextFrame s t := by
  have ha := accept_context s .decrypt
  obtain ⟨-, rfl⟩ | ⟨-, code, rfl⟩ | ⟨-, -, -, -, u, hu, hend⟩ := decryptCommand_cases ht
  · exact dropCommand_context s
  · exact ha.trans (refuseCommand_context c code _)
  · have hl := ha.trans hu.context
    obtain rfl | rfl | ⟨n, rfl⟩ := hend
    · exact hl
    · exact hl.trans (endDecrypt_context c u)
    · exact hl.trans (refuseBus_retire_context c n u)

/-- A reserved word leaves the key context alone (R244). -/
theorem reservedCommand_context (s : State) : ContextFrame s (reservedCommand s) := by
  unfold reservedCommand
  split
  · exact dropCommand_context s
  · exact ⟨⟨⟨rfl, rfl, rfl, rfl⟩, ⟨rfl, rfl, rfl, rfl, rfl⟩⟩, rfl, rfl⟩

/-- A command marks the key context only if it is KSCHED, and RELEASE alone empties it (R27, R211, R215). -/
theorem exec_decodeCmd_contextStep {s t : State} {word : Byte} (ht : exec (decodeCmd word) s = .next t) :
    ContextStep (word = 1) s t := by
  unfold decodeCmd at ht
  split_ifs at ht with h1
  · cases ht
    obtain ⟨-, he⟩ | ⟨-, -, he⟩ | ⟨-, hk, he | he⟩ := kschedCommand_cases s.cfg s <;> rw [he]
    · exact (dropCommand_context s).contextStep
    · exact ((accept_context s _).trans (refuseCommand_context _ _ _)).contextStep
    · exact (accept_context s _).contextStep
    · exact .built h1 hk (keySchedule_valid _ _) rfl rfl rfl
  · exact (encryptCommand_context ht).contextStep
  · exact (decryptCommand_context ht).contextStep
  · cases ht
    obtain ⟨-, he⟩ | ⟨-, d, k, he⟩ := releaseCommand_cases s <;> rw [he]
    · exact (dropCommand_context s).contextStep
    · exact .empty rfl
  · cases ht; exact (reservedCommand_context s).contextStep

/-- No other move of the host marks the key context, and the reset input alone empties it (R27, R270). -/
theorem hostMove_contextStep {c : Cfg} {m : HostMove} {s t : State} (ht : hostMove c m s = .next t) :
    ContextStep False s t := by
  cases m with
  | wrCmd | wrStatus | wrResult | wrAbsent | wait | wrKey | wrIv | wrDataPtr | wrLen => cases ht; exact .kept rfl rfl
  | rd r => cases ht; exact (hostReadReg_frame s r).contextStep
  | memWrite a bytes => obtain ⟨-, rfl⟩ := hostAccess_eq_next ht; exact (hostWrite_frame ..).contextStep
  | memRead a n => obtain ⟨-, rfl⟩ := hostAccess_eq_next ht; exact (hostRead_frame ..).contextStep
  | rst => cases ht; exact .empty rfl

/-- A step marks the key context only where a KSCHED ends: the host has written its word, or its last phase has run. -/
theorem step_contextStep {s t : State} (h : s.Inv) (ht : step s = .next t) :
    ContextStep ((∃ rest, s.turns = .host (.wrCmd 0x01) :: rest) ∨ s.phase = .ksRkeys) s t := by
  obtain ⟨m, rest, hturns, hm⟩ | ⟨rest, -, he⟩ := step_cases ht
  · have hr := h.setTurns rest
    obtain ⟨word, rfl, hw⟩ | ⟨-, -, rfl⟩ | ⟨-, -, hw⟩ | hw := hostStep_cases hm
    · exact (exec_decodeCmd_contextStep hw).imp (fun h1 => .inl ⟨rest, h1 ▸ hturns⟩) rfl rfl
    · exact (hostReadReg_frame _ .status).contextStep.imp False.elim rfl rfl
    · have hread := hostReadReg_frame { s with turns := rest } .status
      exact (engineStep_contextStep ((hr.hostReadReg .status).setTurns _) hw).imp
        (fun hp => .inr (hread.phase.symm.trans hp)) hread.ds (congrArg Status.keyed hread.status)
    · exact (hostMove_contextStep hw).imp False.elim rfl rfl
  · exact (engineStep_contextStep (h.setTurns rest) he).imp .inr rfl rfl

/-! ## Whole-machine rules -/

/-- Settles O52, by the kinds of moves a step can be. -/
theorem everyStepKeepsTheInvariant : Obligations.EveryStepKeepsTheInvariant :=
  fun _ _ h ht => step_inv h ht

/-- Settles O50: of what a step can do to the key context, only leaving it alone keeps its mark. -/
theorem keyedContextIsImmutable : Obligations.KeyedContextIsImmutable := by
  intro s t h ht hs hkt
  cases step_contextStep h ht with
  | kept ds _ => exact ds
  | empty keyed => exact absurd (keyed.symm.trans hkt) Bool.false_ne_true
  | built _ keyed => exact absurd (keyed.symm.trans hs) Bool.false_ne_true

/-- Settles O51: of what a step can do to the key context, only the end of a KSCHED sets its mark. -/
theorem keyedIsSetByKschedAlone : Obligations.KeyedIsSetByKschedAlone := by
  intro s t h ht hs hkt
  cases step_contextStep h ht with
  | kept _ keyed => exact absurd (hs.symm.trans (keyed.symm.trans hkt)) Bool.false_ne_true
  | empty keyed => exact absurd (keyed.symm.trans hkt) Bool.false_ne_true
  | built cause _ valid cc busy result => exact ⟨cause, valid, cc, busy, result⟩

theorem endKsched_operands (c : Cfg) (s : State) : OperandFrame s (endKsched c s) :=
  ⟨⟨rfl, rfl, rfl, rfl⟩, ⟨rfl, rfl, rfl, rfl, rfl⟩⟩

theorem kschedCommand_operands (c : Cfg) (s : State) : OperandFrame s (kschedCommand c s) := by
  obtain ⟨-, he⟩ | ⟨-, -, he⟩ | ⟨-, -, he | he⟩ := kschedCommand_cases c s <;> rw [he]
  · exact (dropCommand_context s).toOperandFrame
  · exact ((accept_context s _).trans (refuseCommand_context _ _ _)).toOperandFrame
  · exact (accept_context s _).toOperandFrame
  · exact ((accept_context s _).toOperandFrame.trans (keySchedule_frame c _).operands).trans
      (endKsched_operands c _)

theorem releaseCommand_operands (s : State) : OperandFrame s (releaseCommand s) := by
  obtain ⟨-, he⟩ | ⟨-, d, k, he⟩ := releaseCommand_cases s <;> rw [he]
  · exact (dropCommand_context s).toOperandFrame
  · exact ⟨⟨rfl, rfl, rfl, rfl⟩, ⟨rfl, rfl, rfl, rfl, rfl⟩⟩

/-- A phase outside KSCHED writes no operand register (R31 to R34). -/
theorem exec_phase_operands {p : Phase} (hp : phaseFits p (some .ksched) = false) {s t : State}
    (h : exec p.instr s = .next t) : OperandFrame s t :=
  (exec_phase_end hp h).context.toOperandFrame

theorem exec_operands {i : Instr} {s t : State} (h : exec i s = .next t) : OperandFrame s t := by
  cases i with
  | ksched => cases h; exact kschedCommand_operands _ s
  | encrypt => exact (encryptCommand_context h).toOperandFrame
  | decrypt => exact (decryptCommand_context h).toOperandFrame
  | release => cases h; exact releaseCommand_operands s
  | reserved word => cases h; exact (reservedCommand_context s).toOperandFrame
  | ksSeed => cases h; exact (ksSeed_frame _ s).operands
  | ksSbox => cases h; exact (ksSbox_frame _ s).operands
  | ksShift => cases h; exact (ksShift_frame _ s).operands
  | ksMixc => cases h; exact (ksMixc_frame _ s).operands
  | ksRkeys => cases h; exact (ksRkeys_frame _ s).operands
  | idle => exact exec_phase_operands (p := .idle) rfl h
  | sub => exact exec_phase_operands (p := .sub) rfl h
  | shiftr => exact exec_phase_operands (p := .shiftr) rfl h
  | mix => exact exec_phase_operands (p := .mix) rfl h
  | ark => exact exec_phase_operands (p := .ark) rfl h
  | isub => exact exec_phase_operands (p := .isub) rfl h
  | ishiftr => exact exec_phase_operands (p := .ishiftr) rfl h
  | imix => exact exec_phase_operands (p := .imix) rfl h
  | encblk => exact exec_phase_operands (p := .encblk) rfl h
  | decblk => exact exec_phase_operands (p := .decblk) rfl h
  | pad => exact exec_phase_operands (p := .pad) rfl h
  | cbcEnc => exact exec_phase_operands (p := .cbcEnc) rfl h
  | cbcDec => exact exec_phase_operands (p := .cbcDec) rfl h
  | unpad => exact exec_phase_operands (p := .unpad) rfl h

/-- Settles O48, by cases on the operation. -/
theorem engineNeverWritesTheOperandRegisters : Obligations.EngineNeverWritesTheOperandRegisters :=
  fun _ _ _ h => ⟨(exec_operands h).operands, (exec_operands h).outside⟩

/-! ## KSCHED -/

/-- The context a key schedule builds is a function of the working registers and of what the context held before. -/
theorem keySchedule_ds_congr (c : Cfg) {s t : State} (hd : s.ds = t.ds) (hw : s.work = t.work) :
    (keySchedule c s).ds = (keySchedule c t).ds := by
  simp only [keySchedule, ksRkeys, ksMixc, ksShift, ksSbox, ksSeed, hd, hw]

/-- Settles O14. -/
theorem kschedBuildsTheContext : Obligations.KschedBuildsTheContext := by
  intro s hb hk hp
  refine ⟨endKsched s.cfg (keySchedule s.cfg (s.accept .ksched)),
    congrArg Host.Outcome.next (kschedCommand_run hb hk hp), ?_, keySchedule_valid _ _, ?_⟩
  · exact keySchedule_ds_congr _ rfl rfl
  · obtain ⟨d, g, i, he⟩ := keySchedule_frame s.cfg (s.accept .ksched)
    rw [he]
    rfl

end Sys2Proof.Machine

/-! # The operand registers, the sequencing and STATUS -/

namespace Sys2Proof.Machine

/-! ## The engine and the operand registers -/

/-- The state with other contents of the four operand registers (R31 to R34). -/
def State.withOperands (k : Key) (v : Block) (p l : Nat) (s : State) : State :=
  { s with key := k, iv := v, dataPtr := p, len := l }

/-- The run that comes to the same state, changed by `f`. -/
def Run.map (f : State → State) : Run → Run
  | .go s => .go (f s)
  | .bus s => .bus (f s)
  | .device a => .device a

/-- A phase that does the same on a state changed by `f`. -/
def Blind (f : State → State) (g : State → Run) : Prop :=
  ∀ s, g (f s) = (g s).map f

theorem Blind.bind {f : State → State} {g h : State → Run} (hg : Blind f g) (hh : Blind f h) :
    Blind f fun s => (g s).bind h := by
  intro s
  dsimp only
  rw [hg s]
  cases g s with
  | go t => exact hh t
  | bus t => rfl
  | device a => rfl

section
variable (k : Key) (v : Block) (p l : Nat) (c : Cfg)

/-- An access is admitted or not whatever the operand registers hold (R68). -/
theorem reach_withOperands (dir : Dir) (a n : Nat) (s : State) :
    reach c dir a n (s.withOperands k v p l) = (reach c dir a n s).map (State.withOperands k v p l) := by
  unfold reach
  rw [show (s.withOperands k v p l).map = s.map from rfl]
  cases accessRange c s.map dir a n <;> rfl

theorem zeroFill_blind : ∀ count idx, Blind (State.withOperands k v p l) (zeroFill c count idx)
  | 0, _ => fun _ => rfl
  | count + 1, idx =>
    Blind.bind (g := fun s => reach c .write (s.work.ptr + idx) 1 s) (fun s => reach_withOperands k v p l c .write _ 1 s)
      fun t => zeroFill_blind count (idx + 1) ((t.storeByte (t.work.ptr + idx) 0x00).setIdx idx)

theorem phasePad_blind : Blind (State.withOperands k v p l) (phasePad c) :=
  Blind.bind (g := fun s => reach c .write (s.work.ptr + s.work.n) 1 s)
    (fun s => reach_withOperands k v p l c .write _ 1 s)
    fun t => zeroFill_blind k v p l c _ _ (t.storeByte (t.work.ptr + t.work.n) 0x80)

/-- What follows a run by an update that does not look at the operand registers does not either. -/
theorem Blind.then_go {f : State → State} {g : State → Run} {u : State → State} (hg : Blind f g)
    (hu : ∀ s, u (f s) = f (u s)) : Blind f fun s => (g s).bind fun s => .go (u s) :=
  hg.bind fun s => congrArg Run.go (hu s)

theorem storeBlock_withOperands (a : Nat) (b : Block) (s : State) :
    (s.withOperands k v p l).storeBlock a b = (s.storeBlock a b).withOperands k v p l := by
  simp only [State.storeBlock, State.withOperands]

theorem storeBlock_blind : Blind (State.withOperands k v p l) (storeBlock c) :=
  Blind.then_go (g := fun s => reach c .write (s.work.ptr + s.work.off) 16 s)
    (fun s => reach_withOperands k v p l c .write _ 16 s) fun s => storeBlock_withOperands k v p l _ _ s

theorem setBlk_withOperands (b : Block) (s : State) :
    (s.withOperands k v p l).setBlk b = (s.setBlk b).withOperands k v p l := rfl

theorem loadBlock_blind : Blind (State.withOperands k v p l) (loadBlock c) :=
  Blind.then_go (g := fun s => reach c .read (s.work.ptr + s.work.off) 16 s)
    (fun s => reach_withOperands k v p l c .read _ 16 s) fun s => setBlk_withOperands k v p l _ s

theorem encLoad_blind : Blind (State.withOperands k v p l) (encLoad c) :=
  (loadBlock_blind k v p l c).then_go fun s => setBlk_withOperands k v p l _ s

theorem decLoad_blind : Blind (State.withOperands k v p l) (decLoad c) :=
  (loadBlock_blind k v p l c).then_go fun _ => rfl

theorem encStore_blind : Blind (State.withOperands k v p l) (encStore c) :=
  (storeBlock_blind k v p l c).then_go fun _ => rfl

theorem decStore_blind : Blind (State.withOperands k v p l) (decStore c) := fun s =>
  (storeBlock_blind k v p l c).then_go (u := fun s => s.setPrev s.work.save) (fun _ => rfl)
    (s.setBlk (xorBlock s.work.blk s.work.prev))

theorem phaseEncblk_withOperands (s : State) :
    phaseEncblk (s.withOperands k v p l) = (phaseEncblk s).withOperands k v p l := by
  simp only [phaseEncblk, State.setBlk, State.setRnd, State.setIdx, State.withOperands]

theorem phaseDecblk_withOperands (s : State) :
    phaseDecblk (s.withOperands k v p l) = (phaseDecblk s).withOperands k v p l := by
  simp only [phaseDecblk, State.setBlk, State.setRnd, State.setIdx, State.withOperands]

theorem encStep_blind : Blind (State.withOperands k v p l) (encStep c) :=
  ((encLoad_blind k v p l c).then_go (phaseEncblk_withOperands k v p l)).bind (encStore_blind k v p l c)

theorem decStep_blind : Blind (State.withOperands k v p l) (decStep c) :=
  ((decLoad_blind k v p l c).then_go (phaseDecblk_withOperands k v p l)).bind (decStore_blind k v p l c)

theorem encLoop_blind : ∀ count, Blind (State.withOperands k v p l) (encLoop c count)
  | 0 => fun _ => rfl
  | b + 1 => (encLoop_blind b).bind fun s => encStep_blind k v p l c (s.setOff (16 * b))

theorem decLoop_blind : ∀ count, Blind (State.withOperands k v p l) (decLoop c count)
  | 0 => fun _ => rfl
  | b + 1 => (decLoop_blind b).bind fun s => decStep_blind k v p l c (s.setOff (16 * b))

theorem phaseCbcEnc_blind : Blind (State.withOperands k v p l) (phaseCbcEnc c) := fun s =>
  encLoop_blind k v p l c (s.work.padded / 16) s

theorem phaseCbcDec_blind : Blind (State.withOperands k v p l) (phaseCbcDec c) := fun s =>
  decLoop_blind k v p l c (s.work.n / 16) s

theorem unpadScan_blind : ∀ count, Blind (State.withOperands k v p l) (unpadScan c count)
  | 0 => fun _ => rfl
  | idx + 1 => by
    refine Blind.bind (g := fun s => reach c .read (s.work.ptr + idx) 1 s)
      (fun s => reach_withOperands k v p l c .read _ 1 s) fun t => ?_
    by_cases hm : t.mem.read (t.work.ptr + idx) = 0x80
    · rw [if_pos hm]
      exact if_pos hm
    · rw [if_neg hm]
      exact (if_neg hm).trans (unpadScan_blind idx (t.setIdx idx))

theorem phaseUnpad_blind : Blind (State.withOperands k v p l) (phaseUnpad c) := fun s =>
  unpadScan_blind k v p l c s.work.n (s.setResult s.work.n)

/-! ### The outcomes -/

theorem refuseBus_retire_withOperands (n : Nat) (s : State) :
    ((s.withOperands k v p l).refuseBus c n).retire c = ((s.refuseBus c n).retire c).withOperands k v p l := rfl

/-- How a run settles does not depend on the operand registers. -/
theorem Blind.settle {g : State → Run} (hg : Blind (State.withOperands k v p l) g) (n : Nat) (s : State) :
    (g (s.withOperands k v p l)).settle c n = mapNext (State.withOperands k v p l) ((g s).settle c n) := by
  rw [hg s]
  cases g s with
  | go t => rfl
  | bus t => rfl
  | device a => rfl

theorem loseIfTrespassed_withOperands (s : State) :
    (s.withOperands k v p l).loseIfTrespassed c = (s.loseIfTrespassed c).withOperands k v p l := by
  unfold State.loseIfTrespassed
  rw [show (s.withOperands k v p l).trespass = s.trespass from rfl]
  cases s.trespass <;> rfl

theorem complete_retire_withOperands (s : State) :
    (s.withOperands k v p l).complete.retire c = (s.complete.retire c).withOperands k v p l := rfl

theorem setResult_withOperands (r : Nat) (s : State) :
    (s.withOperands k v p l).setResult r = (s.setResult r).withOperands k v p l := rfl

theorem endDecrypt_withOperands (s : State) :
    endDecrypt c (s.withOperands k v p l) = (endDecrypt c s).withOperands k v p l := by
  rw [endDecrypt, loseIfTrespassed_withOperands, complete_retire_withOperands, endDecrypt]

theorem endEncrypt_withOperands (s : State) :
    endEncrypt c (s.withOperands k v p l) = (endEncrypt c s).withOperands k v p l := by
  rw [endEncrypt, setResult_withOperands, loseIfTrespassed_withOperands, complete_retire_withOperands]
  rfl

theorem afterEncBlock_withOperands (s : State) :
    afterEncBlock c (s.withOperands k v p l) = mapNext (State.withOperands k v p l) (afterEncBlock c s) :=
  ((encStore_blind k v p l c).bind fun t => by
    by_cases hm : t.work.off + 16 < t.work.padded
    · rw [if_pos hm]
      exact if_pos hm
    · rw [if_neg hm]
      exact (if_neg hm).trans (congrArg Run.go (endEncrypt_withOperands k v p l c t))).settle k v p l c s.work.padded s

theorem afterDecBlock_withOperands (s : State) :
    afterDecBlock c (s.withOperands k v p l) = mapNext (State.withOperands k v p l) (afterDecBlock c s) :=
  ((decStore_blind k v p l c).bind fun t => by
    by_cases hm : t.work.off + 16 < t.work.n
    · rw [if_pos hm]
      exact if_pos hm
    · rw [if_neg hm]
      exact if_neg hm).settle k v p l c s.work.n s

theorem afterArk_withOperands (s : State) :
    afterArk c (s.withOperands k v p l) = mapNext (State.withOperands k v p l) (afterArk c s) := by
  unfold afterArk
  by_cases hd : s.cmd = some .decrypt
  · rw [if_pos hd]
    exact if_pos hd
  rw [if_neg hd]
  refine (if_neg hd).trans ?_
  by_cases hr : s.work.rnd = 7
  · rw [if_pos hr]
    exact (if_pos hr).trans (afterEncBlock_withOperands k v p l c s)
  · rw [if_neg hr]
    exact if_neg hr

theorem afterIsub_withOperands (s : State) :
    afterIsub c (s.withOperands k v p l) = mapNext (State.withOperands k v p l) (afterIsub c s) := by
  unfold afterIsub
  by_cases hr : s.work.rnd = 0
  · rw [if_pos hr]
    exact (if_pos hr).trans (afterDecBlock_withOperands k v p l c s)
  · rw [if_neg hr]
    exact if_neg hr

/-- Where the engine goes does not depend on the operand registers (R37, R40). -/
theorem advance_withOperands (q : Phase) (s : State) :
    advance c q (s.withOperands k v p l) = mapNext (State.withOperands k v p l) (advance c q s) := by
  cases q with
  | ark => exact afterArk_withOperands k v p l c s
  | isub => exact afterIsub_withOperands k v p l c s
  | encblk => exact afterEncBlock_withOperands k v p l c s
  | decblk => exact afterDecBlock_withOperands k v p l c s
  | cbcEnc => exact congrArg Host.Outcome.next (endEncrypt_withOperands k v p l c s)
  | unpad => exact congrArg Host.Outcome.next (endDecrypt_withOperands k v p l c s)
  | _ => rfl

theorem enter_withOperands (s : State) :
    enter c (s.withOperands k v p l) = mapNext (State.withOperands k v p l) (enter c s) := by
  unfold enter
  rw [show (s.withOperands k v p l).phase = s.phase from rfl]
  cases s.phase with
  | cbcEnc =>
    have hb := (encLoad_blind k v p l c).then_go (u := fun t => t.setPhase .encblk) fun _ => rfl
    exact hb.settle k v p l c s.work.padded s
  | cbcDec =>
    have hb := (decLoad_blind k v p l c).then_go (u := fun t => t.setPhase .decblk) fun _ => rfl
    exact hb.settle k v p l c s.work.n s
  | _ => rfl

/-- What a phase does depends on no operand register (R37). -/
theorem exec_phase_withOperands (q : Phase) (s : State) :
    exec q.instr (s.withOperands k v p l) = mapNext (State.withOperands k v p l) (exec q.instr s) := by
  cases q with
  | encblk => exact congrArg Host.Outcome.next (phaseEncblk_withOperands k v p l s)
  | decblk => exact congrArg Host.Outcome.next (phaseDecblk_withOperands k v p l s)
  | pad => exact (phasePad_blind k v p l s.cfg).settle k v p l s.cfg s.work.padded s
  | cbcEnc => exact (phaseCbcEnc_blind k v p l s.cfg).settle k v p l s.cfg s.work.padded s
  | cbcDec => exact (phaseCbcDec_blind k v p l s.cfg).settle k v p l s.cfg s.work.n s
  | unpad => exact (phaseUnpad_blind k v p l s.cfg).settle k v p l s.cfg s.work.n s
  | _ => rfl

theorem proceed_withOperands (q : Phase) (o : Host.Outcome State Fault Refusal) :
    proceed c q (mapNext (State.withOperands k v p l) o) = mapNext (State.withOperands k v p l) (proceed c q o) := by
  cases o with
  | next t =>
    simp only [proceed, mapNext]
    by_cases hi : t.phase = .idle
    · rw [if_pos hi]
      exact if_pos hi
    · rw [if_neg hi]
      exact (if_neg hi).trans (advance_withOperands k v p l c q t)
  | fault r => rfl
  | refused r => rfl

end

/-- A move of the engine depends on no operand register (R37). -/
theorem engineStep_withOperands (k : Key) (v : Block) (p l : Nat) (s : State) :
    engineStep (s.withOperands k v p l) = mapNext (State.withOperands k v p l) (engineStep s) := by
  unfold engineStep
  by_cases hm : s.pace = .micro ∧ isComposite s.phase = true
  · rw [if_pos hm]
    exact (if_pos hm).trans (enter_withOperands k v p l s.cfg s)
  · rw [if_neg hm]
    refine (if_neg hm).trans ?_
    exact (congrArg (proceed s.cfg s.phase) (exec_phase_withOperands k v p l s.phase s)).trans
      (proceed_withOperands k v p l s.cfg s.phase _)

/-- Settles O55. -/
theorem hostWritesDoNotDisturbTheEngine : Obligations.HostWritesDoNotDisturbTheEngine :=
  fun s k v p l => engineStep_withOperands k v p l s

/-! ## The step -/

/-- The code of a phase is read back as its operation (R95). -/
theorem decodeWord_phaseId (q : Phase) : decodeWord (.phase5 q.id) = .ok q.instr := by
  cases q <;> rfl

/-- A move of the engine, listed or not, is `engineStep` with the move taken off the list (R291). -/
theorem step_engine {s : State} {rest : List Turn} (h : s.turns = .engine :: rest ∨ (s.turns = [] ∧ rest = [])) :
    step s = engineStep { s with turns := rest } := by
  unfold step
  obtain ht | ⟨ht, rfl⟩ := h
  · rw [ht]
  · rw [ht]
    exact congrArg engineStep (by rw [← ht])

/-- Settles O3. -/
theorem stepRunsTheCommandWritten : Obligations.StepRunsTheCommandWritten := by
  intro s word i rest ht hd
  cases hd
  unfold step
  rw [ht]
  rfl

/-- Settles O4. -/
theorem stepRunsThePhase : Obligations.StepRunsThePhase := by
  intro s i rest ht hd
  rw [decodeWord_phaseId] at hd
  cases hd
  rw [step_engine ht]
  refine ⟨fun hm => if_neg ?_, fun hp hm => if_pos ⟨hp, hm⟩⟩
  rintro ⟨hp, hc⟩
  exact hm.elim (absurd hp) fun hn => Bool.false_ne_true (hn.symm.trans hc)

/-! ## STATUS and reset -/

/-- The bits of the byte STATUS reads as (R30). -/
theorem toByte_getLsbD (s : Status) (i : Nat) : s.toByte.getLsbD i =
    if i = 0 then s.busy else if i = 1 then s.keyed else if i = 2 then s.done else if i = 3 then s.fault
      else s.cc.code.getLsbD (i - 4) := by
  change BitVec.getLsbD (w := 4 + 1 + 1 + 1 + 1) (_ ++ _ ++ _ ++ _ ++ _) i = _
  simp only [BitVec.getLsbD_append, BitVec.getLsbD_ofBool]
  match i with
  | 0 | 1 | 2 | 3 => simp
  | n + 4 => simp

/-- Bits 7:4 are the number of the completion code (R30, R241). -/
theorem toByte_upper (s : Status) : s.toByte.extractLsb' 4 4 = s.cc.code :=
  BitVec.eq_of_getLsbD_eq fun i hi => by
    simp [hi, toByte_getLsbD, show 4 + i ≠ 1 by omega, show 4 + i ≠ 2 by omega, show 4 + i ≠ 3 by omega]

theorem toByte_div (s : Status) : s.toByte.toNat / 16 = s.cc.code.toNat := by
  have h := congrArg BitVec.toNat (toByte_upper s)
  rw [BitVec.extractLsb'_toNat, Nat.shiftRight_eq_div_pow] at h
  have hlt := s.toByte.isLt
  omega

/-- Settles O37. -/
theorem statusByteLayout : Obligations.StatusByteLayout := by
  intro s
  simp only [toByte_div]
  refine ⟨toByte_getLsbD s 0, toByte_getLsbD s 1, toByte_getLsbD s 2, toByte_getLsbD s 3, ?_⟩
  cases s.cc <;> decide

theorem reset_toByte : Status.reset.toByte = 0x00 := by decide

/-- Settles O53. -/
theorem resetLeavesTheEngineIdle : Obligations.ResetLeavesTheEngineIdle := by
  have hinv : ∀ w, (State.resetAt w).Inv := fun w => .of_idle
    { mem := rfl
      dataPtr := drawNumber_lt ..
      len := drawNumber_lt ..
      result := Nat.two_pow_pos _
      work := Working.unspecified_widths _ _
      fault := fun hcc => absurd rfl hcc
      keyed := fun hk => absurd hk Bool.false_ne_true } ⟨rfl, rfl, rfl, rfl⟩
  exact ⟨fun w => ⟨hinv w, rfl, rfl, reset_toByte, rfl, rfl⟩, hinv _, reset_toByte, rfl, rfl⟩

end Sys2Proof.Machine

/-! # The data space: what a host write leaves, and where the engine reads and writes -/

namespace Sys2Proof.Machine

/-! ## A host write -/

/-- Reading an address of a list of bytes just written gives the byte of that address (R11, R67). -/
theorem Memory.read_writeBytes_inside {m : Memory} (hm : m.wf = true) (a : Nat) (bytes : List Byte) {k : Nat}
    (hk : k < bytes.length) : (m.writeBytes a bytes).read (a + k) = bytes[k] := by
  induction bytes generalizing m a k with
  | nil => cases hk
  | cons v rest ih =>
    rw [Memory.writeBytes]
    cases k with
    | zero => rw [Memory.read_writeBytes_outside _ _ _ (by omega)]; exact Memory.read_write_same hm a v
    | succ k =>
      rw [show a + (k + 1) = a + 1 + k by omega]
      exact ih (Memory.wf_write a v hm) (a + 1) (Nat.lt_of_succ_lt_succ hk)

/-- What a host access costs is RESULT, memory and draws, and nothing else (R71, R280). -/
theorem State.loseUnseen_eq (c : Cfg) (a n : Nat) (s : State) :
    ∃ m r k, s.loseUnseen c a n = { s with mem := m, result := r, draws := k } :=
  State.loseUnseen_keeps (P := fun t => ∃ m r k, t = { s with mem := m, result := r, draws := k }) c a n
    ⟨s.mem, s.result, s.draws, rfl⟩ fun _ _ _ _ ⟨_, _, _, ht⟩ => by subst ht; exact ⟨_, _, _, rfl⟩

/-- A host write changes memory, the record of a broken duty, RESULT and the draws alone (R67, R71). -/
theorem State.hostWrite_eq (c : Cfg) (s : State) (a : Nat) (bytes : List Byte) :
    ∃ m b r k, s.hostWrite c a bytes = { s with mem := m, trespass := b, result := r, draws := k } := by
  obtain ⟨m, r, k, h⟩ := State.loseUnseen_eq c a bytes.length
    { s with mem := s.mem.writeBytes a bytes, trespass := s.trespass || decide (meetsBuffer s a bytes.length) }
  exact ⟨m, _, r, k, h⟩

/-- A host write to ordinary memory completes, whatever the engine is doing (R67, R96). -/
theorem step_memWrite {s : State} {a : Nat} {bytes : List Byte} {rest : List Turn}
    (ht : s.turns = .host (.memWrite a bytes) :: rest) (hr : Ram s.cfg s.map a bytes.length) :
    step s = .next (({ s with turns := rest } : State).hostWrite s.cfg a bytes) := by
  unfold step
  rw [ht]
  change hostAccess s.cfg .write a bytes.length _ _ = _
  unfold hostAccess
  rw [hr.accessRange .write (Nat.le_refl a) (Nat.le_refl _)]
  rfl

/-- Settles O60: the bytes are written, and what the write costs lies in the buffers it meets. -/
theorem hostWritesOrdinaryMemory : Obligations.HostWritesOrdinaryMemory := by
  intro s a bytes rest ht hm hr
  obtain ⟨m, b, r, k, he⟩ := State.hostWrite_eq s.cfg { s with turns := rest } a bytes
  refine ⟨_, step_memWrite ht hr, fun k hk hw => ?_, fun x hx hw => ?_, fun hb => ?_, fun hb => ?_,
    fun hu => State.hostWrite_kept s.cfg (s := { s with turns := rest }) hu, by rw [he]⟩
  · exact (State.read_hostWrite _ { s with turns := rest } _ _ hw).trans (Memory.read_writeBytes_inside hm a bytes hk)
  · exact (State.read_hostWrite _ { s with turns := rest } _ _ hw).trans (Memory.read_writeBytes_outside _ a bytes hx)
  · rw [State.hostWrite_trespass, Bool.or_eq_true, decide_eq_true_iff]
    exact .inr hb
  · rw [State.hostWrite_trespass, Bool.or_eq_left_iff_imp, decide_eq_true_iff]
    exact fun h => absurd h hb

/-! ## What an operation does to memory -/

/-- The phases of ENCRYPT write nothing outside the padded buffer (R61, R213). -/
theorem runEncrypt_keeps (c : Cfg) {s : State} (h : s.work.n < s.work.padded) :
    (runEncrypt c s).Keeps s.work.padded s :=
  (phasePad_keeps c s h).then fun t ht => ht.padded ▸ phaseCbcEnc_keeps c t

/-- The phases of DECRYPT write nothing outside the first `N` bytes of the buffer (R61, R214). -/
theorem runDecrypt_keeps (c : Cfg) (s : State) : (runDecrypt c s).Keeps s.work.n s :=
  (phaseCbcDec_keeps c s).then fun t ht => ht.count ▸ phaseUnpad_keeps c t

/-- What acceptance of an ENCRYPT or a DECRYPT leaves for its phases to start from (R210, R218): the operands are sampled,
and memory, the key context and what the host is barred from are as they were. -/
structure Launched (cmd : Command) (s t : State) : Prop extends ContextFrame s t where
  status : t.status = s.status.accept
  cmd : t.cmd = some cmd
  ptr : t.work.ptr = s.dataPtr
  n : t.work.n = s.len
  mem : t.mem = s.mem
  trespass : t.trespass = false
  unseen : t.unseen = s.unseen

theorem launchEncrypt_launched (s : State) : Launched .encrypt s (launchEncrypt (s.accept .encrypt)) :=
  ⟨(accept_context s _).trans (launchEncrypt_context _), rfl, rfl, rfl, rfl, rfl, rfl, rfl⟩

theorem accept_decrypt_launched (s : State) : Launched .decrypt s (s.accept .decrypt) :=
  ⟨accept_context s _, rfl, rfl, rfl, rfl, rfl, rfl, rfl⟩

theorem lt_paddedLength (n : Nat) : n < paddedLength n := by
  unfold paddedLength; omega

theorem paddedLength_mod (n : Nat) : paddedLength n % 16 = 0 := by
  unfold paddedLength; omega

section
variable {c : Cfg} {n x : Nat} {cmd : Command} {s l u : State}

/-- The end by E_BUS changes no byte outside the buffer (R249). -/
theorem Launched.read_refuseBus (hl : Launched cmd s l) (hu : CbcFrame n l u) (hx : Outside s.dataPtr n x) :
    ((u.refuseBus c n).retire c).mem.read x = s.mem.read x := by
  rw [← hl.ptr] at hx
  rw [State.retire_mem, State.refuseBus_mem, Memory.read_unspecify_outside _ _ _ _ _ (hu.ptr ▸ hx), hu.mem x hx, hl.mem]

/-- The end of an ENCRYPT whose host kept its duty is no matter of memory (R184, R242). -/
theorem endEncrypt_mem (h : u.trespass = false) : (endEncrypt c u).mem = u.mem := by
  unfold endEncrypt
  rw [State.loseIfTrespassed_kept c (s := u.setResult u.work.padded) h]
  rfl

/-- The end of a DECRYPT whose host kept its duty is no matter of memory (R186, R242). -/
theorem endDecrypt_mem (h : u.trespass = false) : (endDecrypt c u).mem = u.mem := by
  unfold endDecrypt
  rw [State.loseIfTrespassed_kept c h]
  rfl

/-- However a launched command settles whose phases keep to the buffer and whose last step `fin` is no matter of memory,
no byte outside the buffer changes (R61, R249). -/
theorem Launched.read_settle {r : Run} {fin : State → State} {t : State} (hl : Launched cmd s l) (hr : r.Keeps n l)
    (hfin : ∀ {u : State}, u.trespass = false → (fin u).mem = u.mem)
    (h : (r.bind fun u => .go (fin u)).settle c n = .next t) (hx : Outside s.dataPtr n x) :
    t.mem.read x = s.mem.read x := by
  obtain ⟨u, hu, rfl | rfl⟩ := hr.settle_bind h
  · rw [hfin (hu.trespass.trans hl.trespass), hu.mem x (hl.ptr ▸ hx), hl.mem]
  · exact hl.read_refuseBus hu hx

end

/-- ENCRYPT changes no byte outside its buffer, however it ends (R61, R249). -/
theorem encryptCommand_read_outside {c : Cfg} {s t : State} {x : Nat} (h : encryptCommand c s = .next t)
    (hx : Outside s.dataPtr (paddedLength s.len) x) : t.mem.read x = s.mem.read x := by
  obtain ⟨-, rfl⟩ | ⟨-, code, rfl⟩ | ⟨hb, hk, hfits, -⟩ := encryptCommand_cases h
  · rfl
  · rfl
  cases hp : s.pace with
  | atomic =>
    rw [encryptCommand_run hb hk hfits hp] at h
    exact (launchEncrypt_launched s).read_settle (runEncrypt_keeps c (lt_paddedLength s.len)) endEncrypt_mem h hx
  | phases | micro =>
    simp only [encryptCommand, hb, hk, hp, if_neg (Nat.not_le.mpr hfits)] at h
    cases h
    rfl

/-- DECRYPT changes no byte outside its buffer, however it ends (R61, R249). -/
theorem decryptCommand_read_outside {c : Cfg} {s t : State} {x : Nat} (h : decryptCommand c s = .next t)
    (hx : Outside s.dataPtr s.len x) : t.mem.read x = s.mem.read x := by
  obtain ⟨-, rfl⟩ | ⟨-, code, rfl⟩ | ⟨hb, hk, hz, hm, -⟩ := decryptCommand_cases h
  · rfl
  · rfl
  have hlen : ¬ badCipherLength s.len := not_or.mpr ⟨hz, not_not.mpr hm⟩
  cases hp : s.pace with
  | atomic =>
    rw [decryptCommand_run hb hk hlen hp] at h
    exact (accept_decrypt_launched s).read_settle (runDecrypt_keeps c _) endDecrypt_mem h hx
  | phases | micro =>
    simp only [decryptCommand, hb, hk, hp, if_neg hlen] at h
    cases h
    rfl

theorem KeyFrame.mem {s t : State} (h : KeyFrame s t) : t.mem = s.mem := by
  obtain ⟨d, g, i, rfl⟩ := h
  rfl

theorem kschedCommand_mem (c : Cfg) (s : State) : (kschedCommand c s).mem = s.mem := by
  obtain ⟨-, he⟩ | ⟨-, -, he⟩ | ⟨-, -, he | he⟩ := kschedCommand_cases c s <;> rw [he]
  · rfl
  · rfl
  · rfl
  · exact (keySchedule_frame c (s.accept .ksched)).mem

theorem releaseCommand_mem (s : State) : (releaseCommand s).mem = s.mem := by
  obtain ⟨-, he⟩ | ⟨-, d, k, he⟩ := releaseCommand_cases s <;> rw [he] <;> rfl

theorem reservedCommand_mem (s : State) : (reservedCommand s).mem = s.mem := by
  unfold reservedCommand
  split <;> rfl

/-- The phases of the chained mode, and with them ENCRYPT and DECRYPT, are the only operations that write memory (R61). -/
theorem exec_mem {i : Instr} {s t : State} (h : exec i s = .next t) (he : i ≠ .encrypt) (hd : i ≠ .decrypt)
    (hp : i ≠ .pad) (hce : i ≠ .cbcEnc) (hcd : i ≠ .cbcDec) (hu : i ≠ .unpad) : t.mem = s.mem := by
  cases i with
  | encrypt | decrypt | pad | cbcEnc | cbcDec | unpad => contradiction
  | ksched => cases h; exact kschedCommand_mem _ s
  | release => cases h; exact releaseCommand_mem s
  | reserved word => cases h; exact reservedCommand_mem s
  | idle => cases h; rfl
  | ksSeed => cases h; exact (ksSeed_frame _ s).mem
  | ksSbox => cases h; exact (ksSbox_frame _ s).mem
  | ksShift => cases h; exact (ksShift_frame _ s).mem
  | ksMixc => cases h; exact (ksMixc_frame _ s).mem
  | ksRkeys => cases h; exact (ksRkeys_frame _ s).mem
  | sub | shiftr | ark | isub | ishiftr => cases h; exact State.setBlk_mem s _
  | mix | imix => cases h; exact (State.setIdx_mem _ _).trans (State.setBlk_mem s _)
  | encblk | decblk =>
    cases h
    exact ((State.setIdx_mem _ _).trans (State.setRnd_mem _ _)).trans (State.setBlk_mem s _)

/-- Settles O49: the frames of the phases, carried to each end of a command. -/
theorem onlyTheBufferIsWritten : Obligations.OnlyTheBufferIsWritten :=
  ⟨fun _ _ _ => exec_mem, fun _ _ _ _ => encryptCommand_read_outside, fun _ _ _ _ => decryptCommand_read_outside⟩

end Sys2Proof.Machine

/-! # The accesses of ENCRYPT and DECRYPT

A run that goes on to its end has had its whole buffer admitted for writing; one that stops, stops for a byte of the
buffer that is not. -/

namespace Sys2Proof.Machine

/-! ## What stops an access -/

theorem Access.join_eq (x y : Access) : x.join y = x ∨ x.join y = y := by
  cases x with
  | admitted => cases y <;> exact .inr rfl
  | bus => cases y <;> simp [Access.join]
  | device a => exact .inl rfl

/-- A group that is not admitted is stopped as one of its bytes is (R66). -/
theorem accessRange_stop {c : Cfg} {map : List Region} {dir : Dir} {a n : Nat}
    (h : accessRange c map dir a n ≠ .admitted) :
    ∃ k, k < n ∧ accessRange c map dir a n = accessByte c map dir (a + k) := by
  induction n with
  | zero => exact absurd rfl h
  | succ n ih =>
    have hs : accessRange c map dir a (n + 1) = (accessRange c map dir a n).join (accessByte c map dir (a + n)) :=
      Nat.fold_succ ..
    rw [hs] at h ⊢
    obtain hj | hj := Access.join_eq (accessRange c map dir a n) (accessByte c map dir (a + n))
    · rw [hj] at h ⊢
      obtain ⟨k, hk, he⟩ := ih h
      exact ⟨k, Nat.lt_succ_of_lt hk, he⟩
    · exact ⟨n, Nat.lt_succ_self n, hj⟩

/-- What stops an access stops a write (R67, R68). -/
theorem accessByte_write_of_stop {c : Cfg} {map : List Region} {dir : Dir} {a : Nat}
    (h : accessByte c map dir a ≠ .admitted) : accessByte c map .write a = accessByte c map dir a := by
  cases dir with
  | write => rfl
  | read =>
    unfold accessByte at h ⊢
    split_ifs at h ⊢ with hlt
    · rfl
    · rcases hr : regionAt map a with _ | kind
      · rfl
      · rw [hr] at h
        cases kind with
        | ram | rom => exact absurd rfl h
        | device => rfl

theorem accessByte_device {c : Cfg} {map : List Region} {dir : Dir} {a x : Nat}
    (h : accessByte c map dir a = .device x) : x = a := by
  unfold accessByte at h
  split at h
  · cases h
  · split at h <;> cases h
    rfl

/-! ## Runs within a buffer -/

/-- A run over the `n` addresses from PTR: if it goes on it has `done` something, and if it stops, it stops for one of
these addresses (R66 to R68, R249). -/
def Run.Within (c : Cfg) (n : Nat) (s : State) (done : Prop) : Run → Prop
  | .go _ => done
  | .bus _ => ∃ k, k < n ∧ accessByte c s.map .write (s.work.ptr + k) = .bus
  | .device x => ∃ k, k < n ∧ x = s.work.ptr + k ∧ accessByte c s.map .write (s.work.ptr + k) = .device x

/-- The first `count` addresses from offset `off` of the buffer take writes. -/
def Writable (c : Cfg) (s : State) (off count : Nat) : Prop :=
  ∀ k, off ≤ k → k < off + count → accessByte c s.map .write (s.work.ptr + k) = .admitted

section
variable {c : Cfg} {n : Nat} {s : State} {p q : Prop} {r : Run}

theorem Run.Within.imp (h : r.Within c n s p) (hpq : p → q) : r.Within c n s q := by
  cases r with
  | go _ => exact hpq h
  | bus _ | device _ => exact h

/-- Where the platform and PTR are the same, the addresses are. -/
theorem CbcFrame.within {m : Nat} {t : State} (hf : CbcFrame m s t) (h : r.Within c n t p) : r.Within c n s p := by
  cases r with
  | go _ => exact h
  | bus _ | device _ => simpa only [Run.Within, hf.map, hf.ptr] using h

theorem CbcFrame.writable {m : Nat} {t : State} {off count : Nat} (hf : CbcFrame m s t) :
    Writable c t off count ↔ Writable c s off count := by
  simp only [Writable, hf.map, hf.ptr]

theorem Run.Within.bind {P : State → Prop} {f : State → Run} (hr : r.Within c n s p) (hP : r.All P)
    (hf : ∀ t, P t → p → (f t).Within c n s q) : (r.bind f).Within c n s q := by
  cases r with
  | go t => exact hf t hP hr
  | bus _ | device _ => exact hr

theorem Run.Within.then_go (hr : r.Within c n s p) (f : State → State) :
    (r.bind fun t => .go (f t)).Within c n s p := by
  cases r <;> exact hr

end

/-- One access of a run, at offset `off` of the buffer. -/
theorem reach_within {c : Cfg} {dir : Dir} {off k n : Nat} {s : State} (h : off + k ≤ n) :
    (reach c dir (s.work.ptr + off) k s).Within c n s
      (∀ i, i < k → accessByte c s.map dir (s.work.ptr + off + i) = .admitted) := by
  have hstop : ∀ {x}, accessRange c s.map dir (s.work.ptr + off) k = x → x ≠ .admitted →
      ∃ i, off + i < n ∧ accessByte c s.map dir (s.work.ptr + (off + i)) = x ∧
        accessByte c s.map .write (s.work.ptr + (off + i)) = x := by
    rintro x rfl hx
    obtain ⟨i, hi, he⟩ := accessRange_stop hx
    rw [he, Nat.add_assoc] at hx ⊢
    exact ⟨i, by omega, rfl, accessByte_write_of_stop hx⟩
  obtain ⟨ha, h'⟩ | ⟨ha, h'⟩ | ⟨x, ha, h'⟩ := reach_cases c dir (s.work.ptr + off) k s <;> rw [h']
  · exact accessRange_bytes ha
  · obtain ⟨i, hi, -, hw⟩ := hstop ha Access.noConfusion
    exact ⟨off + i, hi, hw⟩
  · obtain ⟨i, hi, hd, hw⟩ := hstop ha Access.noConfusion
    exact ⟨off + i, hi, accessByte_device hd, hw⟩

theorem zeroFill_within (c : Cfg) (n : Nat) : ∀ (count idx : Nat) (s : State), idx + count ≤ n →
    (zeroFill c count idx s).Within c n s True
  | 0, _, _, _ => trivial
  | count + 1, idx, s, h =>
    (reach_within (k := 1) (by omega)).bind (reach_keeps c .write _ 1 n s) fun t ht _ =>
      ht.within (zeroFill_within c n count (idx + 1) ((t.storeByte (t.work.ptr + idx) 0x00).setIdx idx) (by omega))

theorem phasePad_within (c : Cfg) {s : State} (h : s.work.n < s.work.padded) :
    (phasePad c s).Within c s.work.padded s True :=
  (reach_within (k := 1) h).bind (reach_keeps c .write _ 1 s.work.padded s) fun t ht _ =>
    ht.within (zeroFill_within c _ _ _ (t.storeByte (t.work.ptr + t.work.n) 0x80)
      (by have := ht.count; have := ht.padded; omega))

section
variable (c : Cfg) {n : Nat} {s : State} (h : s.work.off + 16 ≤ n)
include h

theorem loadBlock_within : (loadBlock c s).Within c n s True :=
  ((reach_within h).then_go _).imp fun _ => trivial

theorem storeBlock_within : (storeBlock c s).Within c n s (Writable c s s.work.off 16) :=
  ((reach_within h).then_go _).imp fun ha k hlo hhi => by
    have := ha (k - s.work.off) (by omega)
    rwa [show s.work.ptr + s.work.off + (k - s.work.off) = s.work.ptr + k by omega] at this

theorem encStore_within : (encStore c s).Within c n s (Writable c s s.work.off 16) :=
  (storeBlock_within c h).then_go _

theorem decStore_within : (decStore c s).Within c n s (Writable c s s.work.off 16) :=
  have hf := frame_setBlk n s (xorBlock s.work.blk s.work.prev)
  have hs := storeBlock_within c (s := s.setBlk (xorBlock s.work.blk s.work.prev)) (n := n) (by simpa using h)
  ((hf.within hs).imp hf.writable.mp).then_go fun t => t.setPrev t.work.save

/-- One pass of CBC_ENC or CBC_DEC: a load, a block operation, a store (R183, R185). -/
theorem pass_within {load : Run} {f : State → State} {store : State → Run} (hl : load.Within c n s True)
    (hk : load.All (PassFrame n s)) (hf : ∀ t, PassFrame n t (f t))
    (hs : ∀ {t}, t.work.off + 16 ≤ n → (store t).Within c n t (Writable c t t.work.off 16)) :
    ((load.bind fun t => .go (f t)).bind store).Within c n s (Writable c s s.work.off 16) := by
  rw [Run.bind_assoc]
  refine hl.bind hk fun t ht _ => ?_
  have hft := ht.1.trans (hf t).1
  have ho : (f t).work.off = s.work.off := (hf t).2.trans ht.2
  refine (hft.within (hs (ho ▸ h))).imp ?_
  rw [ho]
  exact hft.writable.mp

theorem encStep_within : (encStep c s).Within c n s (Writable c s s.work.off 16) :=
  pass_within c h ((loadBlock_within c h).then_go _) (encLoad_pass c n s) (fun t => ⟨frame_encblk n t, rfl⟩)
    (encStore_within c)

theorem decStep_within : (decStep c s).Within c n s (Writable c s s.work.off 16) :=
  pass_within c h ((loadBlock_within c h).then_go _) (decLoad_pass c n s) (fun t => ⟨frame_decblk n t, rfl⟩)
    (decStore_within c)

end

/-- One more pass, at the offset after the `b` passes before it. -/
theorem loop_within {c : Cfg} {n b : Nat} {s : State} {r : Run} {pass : State → Run} (h : 16 * (b + 1) ≤ n)
    (hr : r.Within c n s (Writable c s 0 (16 * b))) (hk : r.Keeps n s)
    (hp : ∀ {t}, t.work.off + 16 ≤ n → (pass t).Within c n t (Writable c t t.work.off 16)) :
    (r.bind fun t => pass (t.setOff (16 * b))).Within c n s (Writable c s 0 (16 * (b + 1))) :=
  hr.bind hk fun t ht hw => by
    have hf := ht.trans (frame_setOff n t (16 * b))
    refine (hf.within (hp (t := t.setOff (16 * b)) (by simp only [State.setOff_work]; omega))).imp fun hb k _ hk => ?_
    by_cases hlt : k < 16 * b
    · exact hw k (Nat.zero_le k) (by omega)
    · exact hf.writable.mp hb k (by simpa using hlt) (by simp only [State.setOff_work]; omega)

theorem encLoop_within (c : Cfg) (n : Nat) (s : State) : ∀ count, 16 * count ≤ n →
    (encLoop c count s).Within c n s (Writable c s 0 (16 * count))
  | 0, _ => fun k _ hk => absurd hk (by omega)
  | b + 1, h => loop_within h (encLoop_within c n s b (by omega)) (encLoop_keeps c n b s (by omega)) (encStep_within c)

theorem decLoop_within (c : Cfg) (n : Nat) (s : State) : ∀ count, 16 * count ≤ n →
    (decLoop c count s).Within c n s (Writable c s 0 (16 * count))
  | 0, _ => fun k _ hk => absurd hk (by omega)
  | b + 1, h => loop_within h (decLoop_within c n s b (by omega)) (decLoop_keeps c n b s (by omega)) (decStep_within c)

theorem unpadScan_within (c : Cfg) (n : Nat) : ∀ (count : Nat) (s : State), count ≤ n →
    (unpadScan c count s).Within c n s True
  | 0, _, _ => trivial
  | idx + 1, s, h => by
    refine (reach_within h).bind (reach_keeps c .read _ 1 n s) fun t ht _ => ?_
    split
    · trivial
    · exact ht.within (unpadScan_within c n idx (t.setIdx idx) (by omega))

/-- The phases of ENCRYPT access the padded buffer alone, and write all of it (R182, R183). -/
theorem runEncrypt_within (c : Cfg) {s : State} (h : s.work.n < s.work.padded) (hm : s.work.padded % 16 = 0) :
    (runEncrypt c s).Within c s.work.padded s (Writable c s 0 s.work.padded) :=
  (phasePad_within c h).bind (phasePad_keeps c s h) fun t ht _ => by
    have hc := encLoop_within c s.work.padded t (t.work.padded / 16) (by have := ht.padded; omega)
    rw [show 16 * (t.work.padded / 16) = s.work.padded by have := ht.padded; omega] at hc
    exact (ht.within hc).imp ht.writable.mp

/-- The phases of DECRYPT access the first `N` bytes of the buffer alone, and write all of them (R185, R186). -/
theorem runDecrypt_within (c : Cfg) {s : State} (hm : s.work.n % 16 = 0) :
    (runDecrypt c s).Within c s.work.n s (Writable c s 0 s.work.n) := by
  have hc := decLoop_within c s.work.n s (s.work.n / 16) (by omega)
  rw [show 16 * (s.work.n / 16) = s.work.n by omega] at hc
  exact hc.bind (phaseCbcDec_keeps c s) fun t ht hw =>
    (ht.within (unpadScan_within c s.work.n t.work.n (t.setResult t.work.n) ht.count.le)).imp fun _ => hw

/-! ## How a run over a buffer that is not ordinary memory ends -/

section
variable {c : Cfg} {n : Nat} {s : State} {r : Run}

/-- A buffer with an address that is not admitted, and no device, stops the run with E_BUS (R249). -/
theorem Run.Within.eq_bus (hr : r.Within c n s (Writable c s 0 n)) (hkeeps : r.Keeps n s)
    (hd : NoDevice c s.map s.work.ptr n)
    (hb : ∃ k, k < n ∧ accessByte c s.map .write (s.work.ptr + k) = .bus) : ∃ u, CbcFrame n s u ∧ r = .bus u := by
  cases r with
  | go u =>
    obtain ⟨k, hk, he⟩ := hb
    cases (hr k (Nat.zero_le k) (by omega)).symm.trans he
  | bus u => exact ⟨u, hkeeps, rfl⟩
  | device x =>
    obtain ⟨k, hk, rfl, he⟩ := hr
    exact absurd he (hd k hk)

/-- A buffer with a device in it, and ordinary memory elsewhere, is refused at one of its addresses (R67). -/
theorem Run.Within.eq_device (hr : r.Within c n s (Writable c s 0 n))
    (hd : ∃ k, k < n ∧ regionAt s.map (s.work.ptr + k) = some .device)
    (hall : ∀ k, k < n → s.work.ptr + k < 2 ^ c.aw ∧
      (regionAt s.map (s.work.ptr + k) = some .device ∨ regionAt s.map (s.work.ptr + k) = some .ram)) :
    ∃ x, r = .device x ∧ s.work.ptr ≤ x ∧ x < s.work.ptr + n := by
  cases r with
  | go u =>
    obtain ⟨k, hk, he⟩ := hd
    have hw := hr k (Nat.zero_le k) (by omega)
    simp [accessByte, Nat.not_le.mpr (hall k hk).1, he] at hw
  | bus u =>
    obtain ⟨k, hk, he⟩ := hr
    obtain ⟨hlt, hreg | hreg⟩ := hall k hk <;> simp [accessByte, Nat.not_le.mpr hlt, hreg] at he
  | device x =>
    obtain ⟨k, hk, rfl, -⟩ := hr
    exact ⟨_, rfl, by omega, by omega⟩

end

/-! ## ENCRYPT and DECRYPT on such a buffer -/

theorem EncryptReady.exec_eq {s : State} (h : EncryptReady s) : exec .encrypt s =
    ((runEncrypt s.cfg (launchEncrypt (s.accept .encrypt))).bind fun s' => .go (endEncrypt s.cfg s')).settle s.cfg
      (paddedLength s.len) :=
  encryptCommand_run h.busy h.keyed h.fits h.pace

theorem DecryptReady.exec_eq {s : State} (h : DecryptReady s) : exec .decrypt s =
    ((runDecrypt s.cfg (s.accept .decrypt)).bind fun s' => .go (endDecrypt s.cfg s')).settle s.cfg s.len :=
  decryptCommand_run h.busy h.keyed (not_or.mpr ⟨h.positive, not_not.mpr h.multiple⟩) h.pace

/-- A launched ENCRYPT accesses its buffer alone, and writes all of it (R213). -/
theorem launchEncrypt_within (s : State) : (runEncrypt s.cfg (launchEncrypt (s.accept .encrypt))).Within s.cfg
    (paddedLength s.len) (launchEncrypt (s.accept .encrypt))
    (Writable s.cfg (launchEncrypt (s.accept .encrypt)) 0 (paddedLength s.len)) :=
  runEncrypt_within s.cfg (lt_paddedLength s.len) (paddedLength_mod s.len)

/-- Settles O43: a run within such a buffer can neither go on to its end nor stop with E_BUS. -/
theorem deviceBufferRefused : Obligations.DeviceBufferRefused := by
  intro s n hd hall
  constructor
  · rintro h rfl
    obtain ⟨x, hr, hx⟩ := (launchEncrypt_within s).eq_device hd hall
    exact ⟨x, by rw [h.exec_eq, hr]; rfl, hx⟩
  · rintro h rfl
    obtain ⟨x, hr, hx⟩ := (runDecrypt_within s.cfg (s := s.accept .decrypt) h.multiple).eq_device hd hall
    exact ⟨x, by rw [h.exec_eq, hr]; rfl, hx⟩

/-- What a command leaves as it was, and the engine idle, is all that `EndedWith` says beside STATUS and the windows. -/
theorem EndedWith.of_idle {cmd : Command} {s t : State} (hf : ContextFrame s t) (hi : t.Idle)
    (hu : t.unseen = (windowOf cmd s.dataPtr s.len).toList ++ s.unseen) : EndedWith t.status cmd s t := by
  obtain ⟨⟨⟨hkey, hiv, hptr, hlen⟩, ⟨hmap, hwidths, hturns, hrdata, hpace⟩⟩, hds, -⟩ := hf
  obtain ⟨hphase, hcmd, -, htrespass⟩ := hi
  unfold EndedWith
  rw [← hu, ← hkey, ← hiv, ← hptr, ← hlen, ← hmap, ← hwidths, ← hturns, ← hrdata, ← hpace, ← hds, ← hphase, ← hcmd,
    ← htrespass]

theorem Status.refuse_accept {st : Status} (hb : st.busy = false) (code : CC) :
    st.accept.refuse code = { st with cc := code, fault := true, done := true } := by
  rw [Status.refuse, Status.accept, hb]

/-- How a command that E_BUS has stopped ends (R243, R249). -/
theorem Launched.endedWith_bus {c : Cfg} {n : Nat} {cmd : Command} {s l u : State} (hl : Launched cmd s l)
    (hu : CbcFrame n l u) (hb : s.status.busy = false) :
    EndedWith { s.status with cc := .eBus, fault := true, done := true } cmd s ((u.refuseBus c n).retire c) := by
  have hf := (hl.toContextFrame.trans hu.context).trans (refuseBus_retire_context c n u)
  have hw : u.window = windowOf cmd s.dataPtr s.len := by
    rw [State.window, hu.cmd, hu.ptr, hu.count, hl.cmd, hl.ptr, hl.n]
    rfl
  have he := EndedWith.of_idle (cmd := cmd) hf (State.refuseBus_retire_idle c n u)
    (by rw [State.retire_unseen, State.refuseBus_unseen, hw, hu.unseen, hl.unseen])
  rwa [State.retire_status, State.refuseBus_status, hu.status, hl.status, Status.refuse_accept hb] at he

/-- A launched command whose buffer has an address that is not admitted, and no device, ends with E_BUS (R249). -/
theorem Launched.ends_with_bus {c : Cfg} {n : Nat} {cmd : Command} {s l : State} {r : Run} (hl : Launched cmd s l)
    (hb : s.status.busy = false) (hr : r.Within c n l (Writable c l 0 n)) (hk : r.Keeps n l)
    (hd : NoDevice c l.map l.work.ptr n)
    (hbus : ∃ k, k < n ∧ accessByte c l.map .write (l.work.ptr + k) = .bus) (f : State → Run) :
    ∃ t, (r.bind f).settle c n = .next t ∧
      EndedWith { s.status with cc := .eBus, fault := true, done := true } cmd s t ∧
      ∀ x, Outside s.dataPtr n x → t.mem.read x = s.mem.read x := by
  obtain ⟨u, hu, rfl⟩ := hr.eq_bus hk hd hbus
  exact ⟨_, rfl, hl.endedWith_bus hu hb, fun x hx => hl.read_refuseBus hu hx⟩

/-- Settles O42: a run within such a buffer can neither go on to its end nor meet a device. -/
theorem busErrorEndsTheCommand : Obligations.BusErrorEndsTheCommand := by
  constructor
  · intro s h hd hbus
    rw [h.exec_eq]
    exact (launchEncrypt_launched s).ends_with_bus h.busy (launchEncrypt_within s)
      (runEncrypt_keeps s.cfg (lt_paddedLength s.len)) hd hbus _
  · intro s h hd hbus
    rw [h.exec_eq]
    exact (accept_decrypt_launched s).ends_with_bus h.busy (runDecrypt_within s.cfg h.multiple)
      (runDecrypt_keeps s.cfg _) hd hbus _

end Sys2Proof.Machine

/-! # The code words, and the host's accesses to its registers -/

namespace Sys2Proof.Machine

/-! ## Command words (R91, R93) -/

/-- What a command word decodes to is an operation that the command word codes (R91, R93). -/
theorem decodeCmd_code (word : Byte) : WellFormed (decodeCmd word) ∧ encode (decodeCmd word) = .cmd8 word := by
  by_cases h : isReservedWord word
  · have hd : decodeCmd word = .reserved word := Laws.ReadBack.reserved word h
    rw [hd]
    exact ⟨h, rfl⟩
  · have hcode : word = 1 ∨ word = 2 ∨ word = 3 ∨ word = 4 := by
      unfold isReservedWord at h
      tauto
    obtain rfl | rfl | rfl | rfl := hcode <;> exact ⟨trivial, rfl⟩

/-- An operation is read back from its code word: the reserved words by the test against the four opcodes, every other
operation from the entry of the table that it has (R91, R93, R95). -/
theorem decodeWord_encode {i : Instr} (hi : WellFormed i) : decodeWord (encode i) = .ok i := by
  cases i with
  | reserved word => exact congrArg Except.ok (Laws.ReadBack.reserved word hi)
  | _ => rfl

/-- The word that decodes to an operation is its code, and no other word does (R91, R93). -/
theorem decodeCmd_eq_iff {i : Instr} (hi : WellFormed i) (word : Byte) :
    decodeCmd word = i ↔ encode i = .cmd8 word := by
  constructor
  · rintro rfl
    exact (decodeCmd_code word).2
  · intro he
    have hd := decodeWord_encode hi
    rw [he] at hd
    exact Except.ok.inj hd

/-- A word is reserved exactly when it is none of the four opcodes (R93). -/
theorem decodeCmd_eq_reserved_iff (word : Byte) : decodeCmd word = .reserved word ↔ isReservedWord word := by
  constructor
  · intro hd
    have hw := (decodeCmd_code word).1
    rwa [hd] at hw
  · exact fun h => Laws.ReadBack.reserved word h

/-! ## Phase ids (R95) -/

theorem wellFormed_phaseInstr (p : Phase) : WellFormed p.instr := by
  cases p <;> trivial

/-- The code of a phase's operation is the phase's id (R95). -/
theorem encode_phaseInstr (p : Phase) : encode p.instr = .phase5 p.id := by
  cases p <;> rfl

/-- An id decodes to the phase whose id it is, or is rejected by name: the table of R95, read at each 5-bit value. -/
theorem decodePhase_table : ∀ id : BitVec 5,
    (decodePhase id).map Phase.id = .ok id ∨ decodePhase id = .error (.unusedPhase id) := by
  decide

/-- An id that decodes to a phase is the id of that phase (R95). -/
theorem id_of_decodePhase {id : BitVec 5} {p : Phase} (h : decodePhase id = .ok p) : p.id = id := by
  obtain ht | ht := decodePhase_table id
  · rw [h] at ht
    exact Except.ok.inj ht
  · cases h.symm.trans ht

/-- The ids that decode to no phase are the thirteen the table of R95 leaves out. -/
theorem decodePhase_eq_error_iff : ∀ id : BitVec 5, decodePhase id = .error (.unusedPhase id) ↔
    id = 6 ∨ id = 7 ∨ id = 15 ∨ id = 18 ∨ id = 19 ∨ 24 ≤ id := by
  decide

/-! ## Both code words -/

/-- What a code word decodes to is an operation that the word codes (R91, R93, R95). -/
theorem encode_of_decodeWord {w : CodeWord} {i : Instr} (h : decodeWord w = .ok i) : WellFormed i ∧ encode i = w := by
  cases w with
  | cmd8 word =>
    cases h
    exact decodeCmd_code word
  | phase5 id =>
    change (decodePhase id).map Phase.instr = .ok i at h
    cases hp : decodePhase id with
    | error e => rw [hp] at h; cases h
    | ok p =>
      rw [hp] at h
      cases h
      exact ⟨wellFormed_phaseInstr p, by rw [encode_phaseInstr, id_of_decodePhase hp]⟩

/-- Settles O1. -/
theorem decodeAndEncodeAgree : Obligations.DecodeAndEncodeAgree :=
  ⟨fun _ => decodeWord_encode, fun _ _ => encode_of_decodeWord⟩

/-- Settles O2: a command is decoded from its own code word alone. -/
theorem codeWordsOfTheTables : Obligations.CodeWordsOfTheTables := by
  have hcmd : ∀ {i : Instr} {code : Byte}, WellFormed i → encode i = .cmd8 code → ∀ w, decodeCmd w = i ↔ w = code := by
    intro i code hi he w
    rw [decodeCmd_eq_iff hi, he, CodeWord.cmd8.injEq, eq_comm]
  exact ⟨fun w => ⟨hcmd trivial rfl w, hcmd trivial rfl w, hcmd trivial rfl w, hcmd trivial rfl w,
      decodeCmd_eq_reserved_iff w⟩,
    rfl, rfl, rfl, rfl, rfl, rfl, decodePhase_eq_error_iff⟩

/-! ## The registers of the host -/

/-- A listed move of the host is `hostStep` with the move taken off the list (R96). -/
theorem step_host {s : State} {m : HostMove} {rest : List Turn} (ht : s.turns = .host m :: rest) :
    step s = hostStep m { s with turns := rest } := by
  unfold step
  rw [ht]

/-- Reading a register records the value, and a read of STATUS that shows `BUSY = 0` ends what the host was barred from
(R28, R71). -/
theorem State.hostReadReg_eq (s : State) (r : Reg) : s.hostReadReg r = { s with
    rdata := some (s.readReg r)
    unseen := if r = .status ∧ s.status.busy = false then [] else s.unseen } := by
  unfold State.hostReadReg State.observe
  by_cases hr : r = .status <;> cases hb : s.status.busy <;> simp [hr, hb]

/-- Settles O58. -/
theorem hostReadsGiveRegisterValues : Obligations.HostReadsGiveRegisterValues := by
  intro s r rest ht
  refine ⟨s.readReg r, ?_, ?_, ?_, ?_, ?_, ?_, ?_, ?_, by rintro k rfl; rfl⟩
  · rw [step_host ht]
    exact congrArg Host.Outcome.next (State.hostReadReg_eq { s with turns := rest } r)
  all_goals rintro rfl; rfl

/-- Settles O59: each write is one update of the register file, whatever the engine is doing. -/
theorem hostWritesReachTheirRegister : Obligations.HostWritesReachTheirRegister := by
  intro s m rest ht
  rw [step_host ht]
  refine ⟨?_, ?_, ?_, ?_, ?_, ?_, by rintro k v rfl; rfl⟩
  all_goals rintro v rfl; rfl

end Sys2Proof.Machine

/-! # The key schedule: the seed, the tables, the MixConstant and the round keys -/

namespace Sys2Proof.Machine

/-! ## The seed (R121, R122) -/

/-- A little-endian word of a key is the `LE32` of its last four bytes above that of its first four (R12, R121). -/
theorem le64_keyWord (k : Key) {start : Fin 25} {lo hi : Fin 13} (hlo : lo.val = start.val)
    (hhi : hi.val = start.val + 4) : le64 (keyWord k start) = le32 k hi ++ le32 k lo := by
  apply BitVec.eq_of_toNat_eq
  rw [BitVec.toNat_append, ← Nat.shiftLeft_add_eq_or_of_lt (le32 k lo).isLt, Nat.shiftLeft_eq]
  simp only [le64, le32, keyWord, Nat.fold, Vector.getElem_ofFn, BitVec.toNat_ofNat, hlo, hhi, Nat.add_assoc,
    Nat.reduceAdd, Nat.reducePow, Nat.add_zero]
  omega

/-- A big-endian word of a key is the `BE32` of its first four bytes above that of its last four (R12, R121). -/
theorem be64_keyWord (k : Key) {start : Fin 25} {hi lo : Fin 13} (hhi : hi.val = start.val)
    (hlo : lo.val = start.val + 4) : be64 (keyWord k start) = be32 k hi ++ be32 k lo := by
  apply BitVec.eq_of_toNat_eq
  rw [BitVec.toNat_append, ← Nat.shiftLeft_add_eq_or_of_lt (be32 k lo).isLt, Nat.shiftLeft_eq]
  simp only [be64, be32, keyWord, Nat.fold, Vector.getElem_ofFn, BitVec.toNat_ofNat, hlo, hhi, Nat.add_assoc,
    Nat.reduceAdd, Nat.reduceSub, Nat.reducePow, Nat.add_zero]
  omega

/-- FOLD_HI_LO XORs all four halves of the two words (R122). -/
theorem foldSeed_foldHiLo (h₀ l₀ h₁ l₁ : BitVec 32) :
    foldSeed .foldHiLo (h₀ ++ l₀) (h₁ ++ l₁) = h₀ ^^^ h₁ ^^^ (l₀ ^^^ l₁) := by
  simp only [foldSeed]
  rw [BitVec.extractLsb'_xor, BitVec.extractLsb'_xor, BitVec.extractLsb'_append_eq_left,
    BitVec.extractLsb'_append_eq_left, BitVec.extractLsb'_append_eq_right, BitVec.extractLsb'_append_eq_right]

/-- TRUNC_LOW XORs the lower halves of the two words (R122). -/
theorem foldSeed_truncLow (h₀ l₀ h₁ l₁ : BitVec 32) :
    foldSeed .truncLow (h₀ ++ l₀) (h₁ ++ l₁) = l₀ ^^^ l₁ := by
  simp only [foldSeed]
  rw [BitVec.extractLsb'_xor, BitVec.extractLsb'_append_eq_right, BitVec.extractLsb'_append_eq_right]

/-- The seed words under LE, by quarters of key bytes 0..15 (R121). -/
theorem seedWords_le (k : Key) : seedWords .le k = (le32 k 4 ++ le32 k 0, le32 k 12 ++ le32 k 8) :=
  congrArg₂ Prod.mk (le64_keyWord k rfl rfl) (le64_keyWord k rfl rfl)

/-- The seed words under BE, by quarters of key bytes 0..15 (R121). -/
theorem seedWords_be (k : Key) : seedWords .be k = (be32 k 0 ++ be32 k 4, be32 k 8 ++ be32 k 12) :=
  congrArg₂ Prod.mk (be64_keyWord k rfl rfl) (be64_keyWord k rfl rfl)

/-- Settles O6: each word is two quarters of the key, and the fold XORs the halves it keeps. -/
theorem seedIsXorOfKeyQuarters : Obligations.SeedIsXorOfKeyQuarters := by
  intro c k
  refine ⟨fun hf he => ?_, fun hf he => ?_, fun hf he => ?_, fun hf he => ?_⟩ <;> rw [seedOf, hf, he]
  · rw [seedWords_le, foldSeed_foldHiLo]
    ac_rfl
  · rw [seedWords_be, foldSeed_foldHiLo]
    ac_rfl
  · rw [seedWords_le, foldSeed_truncLow]
  · rw [seedWords_be, foldSeed_truncLow]

/-- The seed is a function of key bytes 0..15 (R121, R122). -/
theorem seedOf_congr (c : Cfg) {k₁ k₂ : Key} (h : ∀ (i : Nat) (hi : i < 16), k₁[i] = k₂[i]) :
    seedOf c k₁ = seedOf c k₂ := by
  have hword : ∀ start : Fin 25, start.val ≤ 8 → keyWord k₁ start = keyWord k₂ start := fun start hs =>
    Vector.ext fun i hi => by
      simp only [keyWord, Vector.getElem_ofFn]
      exact h (start.val + i) (by omega)
  have hwords : seedWords c.seedEndian k₁ = seedWords c.seedEndian k₂ := by
    unfold seedWords
    rw [hword 0 (by decide), hword 8 (by decide)]
  rw [seedOf, hwords, seedOf]

/-- Settles O7. -/
theorem ksSeedSeedsTheGenerator : Obligations.KsSeedSeedsTheGenerator :=
  fun s => ⟨ksSeed s.cfg s, rfl, rfl, rfl⟩

/-! ## The tables (R124 to R127) -/

/-- Entry `x` of the table of a permutation, as a position of the table (R124, R126). -/
theorem tableOfPerm_getElem (w : Nat) (p : Equiv.Perm (Fin (2 ^ w))) (x : Fin (2 ^ w)) :
    (tableOfPerm w p)[x] = BitVec.ofFin (p x) :=
  lookup_tableOfPerm w p (BitVec.ofFin x)

/-- Settles O8. -/
theorem ksSboxBuildsInverseTables : Obligations.KsSboxBuildsInverseTables :=
  fun s => ⟨ksSbox s.cfg s, rfl, tableOfPerm_getElem 8 _, ksSbox_inverts s.cfg s, rfl⟩

/-- Settles O9. -/
theorem ksShiftBuildsInverseTables : Obligations.KsShiftBuildsInverseTables :=
  fun s => ⟨ksShift s.cfg s, rfl, tableOfPerm_getElem 4 _, ksShift_inverts s.cfg s, rfl⟩

/-- A table has one inverse, so the old contents of INV are all overwritten (R125, R127). -/
theorem Inverts.unique {w : Nat} {inv₁ inv₂ t : Table w} (h₁ : Inverts inv₁ t) (h₂ : Inverts inv₂ t) :
    inv₁ = inv₂ := by
  have hlookup : ∀ y, lookup inv₁ y = lookup inv₂ y := fun y => by
    have hy := h₂ (lookup inv₁ y)
    rw [h₁.symm y] at hy
    exact hy.symm
  exact Vector.ext fun i hi => hlookup (BitVec.ofFin ⟨i, hi⟩)

/-! ## The MixConstant (R128, R129) -/

/-- Settles O10. -/
theorem ksMixcReducesOneDraw : Obligations.KsMixcReducesOneDraw :=
  fun s => ⟨ksMixc s.cfg s, rfl, mixConstant_toNat _, rfl⟩

/-- Settles O11: the value of the reduction is `2 * (w % 255 / 2) + 1`, and an odd byte `v` comes from residue
`v - 1`. -/
theorem mixConstantRange : Obligations.MixConstantRange := by
  refine ⟨fun w => ?_, fun v hv => ⟨v.toNat - 1, ?_⟩, fun w => ?_, fun w k hk => ?_⟩
  · rw [mixConstant_toNat]
    omega
  · have hlt := v.isLt
    apply BitVec.eq_of_toNat_eq
    rw [mixConstant_toNat]
    omega
  · rw [← BitVec.toNat_inj, mixConstant_toNat, show (255 : Byte).toNat = 255 from rfl]
    omega
  · rw [mixConstant_toNat]
    omega

/-! ## The round keys (R130, R131) -/

@[simp] theorem kidx_localIndex (r i : Nat) : (kidx .localIndex r i).val = i % 32 := rfl

@[simp] theorem kidx_runningIndex (r i : Nat) : (kidx .runningIndex r i).val = (16 * r + i) % 32 := rfl

/-- Under LOCAL, and in an even round under RUNNING, a round key is masked with key bytes 0..15 (R131, R132). -/
theorem kidx_lt_of_local_or_even {m : RkIndexMode} {r i : Nat} (hi : i < 16) (h : m = .localIndex ∨ r % 2 = 0) :
    (kidx m r i).val < 16 := by
  cases m with
  | localIndex =>
    rw [kidx_localIndex]
    omega
  | runningIndex =>
    have heven : r % 2 = 0 := h.resolve_left (by decide)
    rw [kidx_runningIndex]
    omega

/-- A byte of a round key: a key byte XOR a draw, whatever RK held before (R130). -/
theorem ksRkeys_rk (c : Cfg) (s : State) (r i : Nat) (hr : r < 8) (hi : i < 16) :
    (ksRkeys c s).ds.rk[r][i] = s.work.keyc[kidx c.rkIndexMode r i] ^^^ streamByte c s.work.g (16 * r + i) :=
  (roundKeys_spec c s.work.keyc s.work.g s.ds.rk).2 r hr i hi

/-- KS_RKEYS draws 128 bytes (R130). -/
theorem ksRkeys_g (c : Cfg) (s : State) : (ksRkeys c s).work.g = streamState c s.work.g 128 :=
  (roundKeys_spec c s.work.keyc s.work.g s.ds.rk).1

/-- Settles O12. -/
theorem ksRkeysMasksTheStream : Obligations.KsRkeysMasksTheStream := by
  refine ⟨fun r i => ⟨kidx_localIndex r i, kidx_runningIndex r i⟩,
    fun s => ⟨ksRkeys s.cfg s, rfl, ksRkeys_rk s.cfg s, ?_⟩⟩
  rw [← ksRkeys_g]
  rfl

/-! ## The whole schedule (R120) -/

/-- What KS_SBOX draws after the generator was seeded with `x` (R123, R124). -/
def sboxDraw (c : Cfg) (x : BitVec 32) : Equiv.Perm (Fin (2 ^ 8)) × Nat :=
  c.prng.shuffle (2 ^ 8) (c.prng.seed x)

/-- What KS_SHIFT draws after that (R126). -/
def shiftDraw (c : Cfg) (x : BitVec 32) : Equiv.Perm (Fin (2 ^ 4)) × Nat :=
  c.prng.shuffle (2 ^ 4) (sboxDraw c x).2

/-- What KS_MIXC draws after that (R128). -/
def mixcDraw (c : Cfg) (x : BitVec 32) : BitVec c.prng.width × Nat :=
  c.prng.next (shiftDraw c x).2

/-- Two bytes under one mask differ as they do without it. -/
theorem xor_mask_cancel (a b m : Byte) : a ^^^ m ^^^ (b ^^^ m) = a ^^^ b := by
  rw [BitVec.xor_assoc, BitVec.xor_comm b, ← BitVec.xor_assoc m m, BitVec.xor_self, BitVec.zero_xor]

section
variable (c : Cfg) (s : State)

theorem keySchedule_sbox : (keySchedule c s).ds.sbox = tableOfPerm 8 (sboxDraw c (seedOf c s.work.keyc)).1 := rfl

theorem keySchedule_shift : (keySchedule c s).ds.shift = tableOfPerm 4 (shiftDraw c (seedOf c s.work.keyc)).1 := rfl

theorem keySchedule_mixc : (keySchedule c s).ds.mixc = mixConstant (mixcDraw c (seedOf c s.work.keyc)).1.toNat := rfl

/-- KS_RKEYS starts from KEYC and from the state KS_MIXC leaves (R120). -/
theorem keySchedule_work_before_ksRkeys :
    (ksMixc c (ksShift c (ksSbox c (ksSeed c s)))).work =
      { s.work with g := (mixcDraw c (seedOf c s.work.keyc)).2 } := rfl

theorem keySchedule_rk (r i : Nat) (hr : r < 8) (hi : i < 16) :
    (keySchedule c s).ds.rk[r][i] =
      s.work.keyc[kidx c.rkIndexMode r i] ^^^ streamByte c (mixcDraw c (seedOf c s.work.keyc)).2 (16 * r + i) := by
  rw [keySchedule, ksRkeys_rk, keySchedule_work_before_ksRkeys]

end

/-- Settles O13: the key bytes that make the seed are 0..15, and every draw follows from the seed. -/
theorem upperKeyBytesMaskOddRoundsAtMost : Obligations.UpperKeyBytesMaskOddRoundsAtMost := by
  intro c s k₁ k₂ h d₁ d₂
  have hseed : seedOf c k₁ = seedOf c k₂ := seedOf_congr c h
  have hsbox : d₁.sbox = d₂.sbox := by
    simp only [d₁, d₂, keySchedule_sbox, hseed]
  have hshift : d₁.shift = d₂.shift := by
    simp only [d₁, d₂, keySchedule_shift, hseed]
  have hmixc : d₁.mixc = d₂.mixc := by
    simp only [d₁, d₂, keySchedule_mixc, hseed]
  have hv₁ : d₁.Valid := keySchedule_valid c _
  have hv₂ : d₂.Valid := keySchedule_valid c _
  refine ⟨hsbox, (hsbox ▸ hv₁.sbox).unique hv₂.sbox, hshift, (hshift ▸ hv₁.shift).unique hv₂.shift, hmixc, ?_, ?_⟩
  · intro r hr hlower
    refine Vector.ext fun i hi => ?_
    simp only [d₁, d₂, keySchedule_rk, hseed]
    exact congrArg (· ^^^ _) (h _ (kidx_lt_of_local_or_even hi hlower))
  · intro r i hr hi
    simp only [d₁, d₂, keySchedule_rk, hseed]
    exact xor_mask_cancel _ _ _

/-- Contexts with the properties of R20 are equal when all but the inverse tables are. -/
theorem DerivedState.Valid.eq {d e : DerivedState} (hd : d.Valid) (he : e.Valid) (hsbox : d.sbox = e.sbox)
    (hshift : d.shift = e.shift) (hmixc : d.mixc = e.mixc) (hrk : d.rk = e.rk) : d = e := by
  have hinvSbox : d.invSbox = e.invSbox := (hsbox ▸ hd.sbox).unique he.sbox
  have hinvShift : d.invShift = e.invShift := (hshift ▸ hd.shift).unique he.shift
  cases d
  cases e
  rw [DerivedState.mk.injEq]
  exact ⟨hsbox, hinvSbox, hshift, hinvShift, hmixc, hrk⟩

/-- The context is a function of KEYC: every register file is written over whole (R133). -/
theorem keySchedule_ds_of_keyc (c : Cfg) {s t : State} (h : s.work.keyc = t.work.keyc) :
    (keySchedule c s).ds = (keySchedule c t).ds := by
  refine (keySchedule_valid c s).eq (keySchedule_valid c t) ?_ ?_ ?_ ?_
  · rw [keySchedule_sbox, keySchedule_sbox, h]
  · rw [keySchedule_shift, keySchedule_shift, h]
  · rw [keySchedule_mixc, keySchedule_mixc, h]
  · exact Vector.ext fun r hr => Vector.ext fun i hi => by
      rw [keySchedule_rk c s r i hr hi, keySchedule_rk c t r i hr hi, h]

/-- The key schedule depends on no width of the machine (R6). -/
theorem keySchedule_widths (w₁ w₂ : Widths) (s : State) :
    keySchedule (Config.cfg w₁) s = keySchedule (Config.cfg w₂) s := rfl

/-- Settles O15. -/
theorem kschedIsAFunctionOfTheKey : Obligations.KschedIsAFunctionOfTheKey := by
  intro s₁ s₂ hb₁ hk₁ hp₁ hb₂ hk₂ hp₂ hkey
  obtain ⟨t₁, he₁, hd₁, -⟩ := kschedBuildsTheContext s₁ hb₁ hk₁ hp₁
  obtain ⟨t₂, he₂, hd₂, -⟩ := kschedBuildsTheContext s₂ hb₂ hk₂ hp₂
  refine ⟨t₁, t₂, he₁, he₂, ?_⟩
  rw [hd₁, hd₂, State.cfg, State.cfg, keySchedule_widths s₁.widths s₂.widths]
  exact keySchedule_ds_of_keyc _ hkey

end Sys2Proof.Machine

/-! # The round transform: each pass position by position, the chains of rounds, and what undoes what -/

namespace Sys2Proof.Machine

/-! ## Passes that undo each other

IMIX runs the steps of MIX in the opposite order, and DECBLK the inverse rounds in the order opposite to ENCBLK's, so
each of the two pairs is an ascending and a descending loop whose steps undo each other one by one. -/

section
variable {α : Type}

/-- A descending loop undoes an ascending one when its steps undo those of the other. -/
theorem foldRev_fold_cancel : ∀ {n : Nat} {f g : (i : Nat) → i < n → α → α},
    (∀ i hi x, g i hi (f i hi x) = x) → ∀ x, n.foldRev g (n.fold f x) = x
  | 0, _, _, _, _ => rfl
  | n + 1, f, g, h, x => by
    rw [Nat.fold_succ, Nat.foldRev_succ, h]
    exact foldRev_fold_cancel (fun i hi => h i (Nat.lt_succ_of_lt hi)) x

/-- An ascending loop undoes a descending one when its steps undo those of the other. -/
theorem fold_foldRev_cancel : ∀ {n : Nat} {f g : (i : Nat) → i < n → α → α},
    (∀ i hi x, f i hi (g i hi x) = x) → ∀ x, n.fold f (n.foldRev g x) = x
  | 0, _, _, _, _ => rfl
  | n + 1, f, g, h, x => by
    rw [Nat.fold_succ, Nat.foldRev_succ, fold_foldRev_cancel fun i hi => h i (Nat.lt_succ_of_lt hi)]
    exact h n (Nat.lt_succ_self n) x

end

/-! ## SUB, SHIFTR, ISHIFTR, ISUB and ARK on the state (R151, R152, R154, R156, R157) -/

/-- Settles O16. -/
theorem subSubstitutesEveryByte : Obligations.SubSubstitutesEveryByte :=
  fun s => ⟨phaseSub s, rfl, subBytes_get s.ds.sbox s.work.blk, rfl⟩

/-- Settles O17. -/
theorem shiftrGathersByShift : Obligations.ShiftrGathersByShift :=
  fun s => ⟨phaseShiftr s, rfl, gatherBytes_get s.ds.shift s.work.blk, rfl⟩

/-- Settles O22. -/
theorem ishiftrGathersByInvShift : Obligations.IshiftrGathersByInvShift :=
  fun s => ⟨phaseIshiftr s, rfl, gatherBytes_get s.ds.invShift s.work.blk, rfl⟩

/-- Settles O23. -/
theorem isubSubstitutesEveryByte : Obligations.IsubSubstitutesEveryByte :=
  fun s => ⟨phaseIsub s, rfl, subBytes_get s.ds.invSbox s.work.blk, rfl⟩

theorem State.setBlk_setBlk (s : State) (b c : Block) : (s.setBlk b).setBlk c = s.setBlk c := rfl

theorem State.setBlk_self (s : State) : s.setBlk s.work.blk = s := rfl

/-- ARK writes neither RND nor RK, so the second pass adds the same round key (R154). -/
theorem phaseArk_phaseArk (s : State) : phaseArk (phaseArk s) = s :=
  calc phaseArk (phaseArk s)
    _ = (phaseArk s).setBlk (xorBlock (xorBlock s.work.blk s.ds.rk[s.work.rnd]) s.ds.rk[s.work.rnd]) := rfl
    _ = (phaseArk s).setBlk s.work.blk := by rw [xorBlock_cancel]
    _ = s := by rw [phaseArk, State.setBlk_setBlk, State.setBlk_self]

/-- Settles O19. -/
theorem arkAddsTheRoundKeyAndUndoesItself : Obligations.ArkAddsTheRoundKeyAndUndoesItself :=
  fun s => ⟨phaseArk s, rfl, xorBlock_get s.work.blk s.ds.rk[s.work.rnd], rfl,
    congrArg Host.Outcome.next (phaseArk_phaseArk s)⟩

/-! ## MIX and IMIX (R153, R155) -/

/-- Settles O18. -/
theorem mixChainsOldNeighbours : Obligations.MixChainsOldNeighbours :=
  fun s => ⟨phaseMix s, rfl, mixColumns_get s.ds.mixc s.work.blk, mixColumns_last s.ds.mixc s.work.blk, rfl⟩

/-- Settles O20. -/
theorem imixChainsRestoredNeighbours : Obligations.ImixChainsRestoredNeighbours :=
  fun s => ⟨phaseImix s, rfl, invMixColumns_get s.ds.mixc s.work.blk, invMixColumns_last s.ds.mixc s.work.blk, rfl⟩

/-- One step of MIX, and of IMIX: position `i` takes the XOR with its right neighbour and the constant. -/
def mixStep (m : Byte) (i : Nat) (hi : i < 15) (b : Block) : Block :=
  b.set i (b[i] ^^^ b[i + 1] ^^^ m)

theorem mixColumns_eq_fold (m : Byte) (b : Block) : mixColumns m b = Nat.fold 15 (mixStep m) b := rfl

theorem invMixColumns_eq_foldRev (m : Byte) (b : Block) : invMixColumns m b = Nat.foldRev 15 (mixStep m) b := rfl

theorem mixStep_self (m : Byte) (i : Nat) (hi : i < 15) (b : Block) :
    (mixStep m i hi b)[i] = b[i] ^^^ b[i + 1] ^^^ m :=
  Vector.getElem_set_self _

theorem mixStep_next (m : Byte) (i : Nat) (hi : i < 15) (b : Block) : (mixStep m i hi b)[i + 1] = b[i + 1] :=
  Vector.getElem_set_ne _ _ (Nat.ne_of_lt (Nat.lt_succ_self i))

/-- A step undoes itself: it leaves the neighbour that it adds as it was. -/
theorem mixStep_mixStep (m : Byte) (i : Nat) (hi : i < 15) (b : Block) : mixStep m i hi (mixStep m i hi b) = b := by
  have hback : (mixStep m i hi b)[i] ^^^ (mixStep m i hi b)[i + 1] ^^^ m = b[i] := by
    rw [mixStep_self, mixStep_next, BitVec.xor_assoc _ b[i + 1] m, BitVec.xor_assoc _ b[i + 1] m, BitVec.xor_assoc,
      BitVec.xor_self, BitVec.xor_zero]
  rw [mixStep, hback, mixStep, Vector.set_set, Vector.set_getElem_self]

/-- Settles O21: IMIX makes the steps of MIX, each its own inverse, in the opposite order. -/
theorem mixAndImixAreInverses : Obligations.MixAndImixAreInverses := by
  intro m b
  simp only [mixColumns_eq_fold, invMixColumns_eq_foldRev]
  exact ⟨foldRev_fold_cancel (mixStep_mixStep m) b, fold_foldRev_cancel (mixStep_mixStep m) b⟩

/-! ## ENCBLK and DECBLK as chains of rounds (R158 to R161) -/

/-- The block before forward round `r`; the round index has three bits (R39). -/
def forwardChain (d : DerivedState) (b : Block) : Nat → Block
  | 0 => b
  | r + 1 => forwardRound d (Fin.ofNat 8 r) (forwardChain d b r)

/-- The block after `k` inverse rounds, the first of which is round 7. -/
def inverseChain (d : DerivedState) (b : Block) : Nat → Block
  | 0 => b
  | k + 1 => inverseRound d (Fin.ofNat 8 (7 - k)) (inverseChain d b k)

section
variable (d : DerivedState) (b : Block)

theorem forwardChain_succ {r : Nat} (h : r < 8) :
    forwardChain d b (r + 1) = forwardRound d ⟨r, h⟩ (forwardChain d b r) := by
  have hr : Fin.ofNat 8 r = ⟨r, h⟩ := Fin.ext (Nat.mod_eq_of_lt h)
  rw [forwardChain, hr]

theorem forwardChain_eight : forwardChain d b 8 = encryptBlock d b := rfl

/-- Inverse round `r` has rounds 7 down to `r + 1` behind it, `8 - (r + 1)` of them (R161). -/
theorem inverseChain_sub {r : Nat} (h : r < 8) :
    inverseChain d b (8 - r) = inverseRound d ⟨r, h⟩ (inverseChain d b (8 - (r + 1))) := by
  have hsucc : 8 - r = 8 - (r + 1) + 1 := by omega
  have hr : Fin.ofNat 8 (7 - (8 - (r + 1))) = ⟨r, h⟩ :=
    Fin.ext (show (7 - (8 - (r + 1))) % 8 = r by omega)
  rw [hsucc, inverseChain, hr]

theorem inverseChain_eight : inverseChain d b 8 = decryptBlock d b := rfl

end

/-- Settles O24. -/
theorem encblkRunsEightForwardRounds : Obligations.EncblkRunsEightForwardRounds := by
  refine fun s => ⟨phaseEncblk s, forwardChain s.ds s.work.blk, rfl, rfl, fun r h => ?_, ?_⟩
  · exact forwardChain_succ s.ds s.work.blk h
  · exact congrArg (fun blk => ((s.setBlk blk).setRnd 7).setIdx 14) (forwardChain_eight s.ds s.work.blk).symm

/-- Settles O25. -/
theorem decblkRunsEightInverseRounds : Obligations.DecblkRunsEightInverseRounds := by
  refine fun s => ⟨phaseDecblk s, fun r => inverseChain s.ds s.work.blk (8 - r), rfl, rfl, fun r h => ?_, ?_⟩
  · exact inverseChain_sub s.ds s.work.blk h
  · exact congrArg (fun blk => ((s.setBlk blk).setRnd 0).setIdx 0) (inverseChain_eight s.ds s.work.blk).symm

/-! ## Decryption undoes encryption (R162) -/

/-- Gathering by a table and then by one that inverts it is no change. -/
theorem gatherBytes_inverse {inv t : Table 4} (h : Inverts inv t) (b : Block) :
    gatherBytes inv (gatherBytes t b) = b :=
  Block.ext fun i hi => by
    have hpos : t[(inv[i]).toNat]'(inv[i].isLt) = BitVec.ofFin ⟨i, hi⟩ := h.symm (BitVec.ofFin ⟨i, hi⟩)
    simp [hpos]

section
variable {d : DerivedState} (h : d.TablesOk) (r : Fin 8) (b : Block)
include h

/-- An inverse round undoes the forward round of its index, step by step from the last to the first. -/
theorem inverseRound_forwardRound : inverseRound d r (forwardRound d r b) = b := by
  rw [inverseRound, forwardRound, xorBlock_cancel, (mixAndImixAreInverses _ _).1, gatherBytes_inverse h.shift,
    subBytes_inverse h.sbox]

/-- A forward round undoes the inverse round of its index: the tables are inverses on either side. -/
theorem forwardRound_inverseRound : forwardRound d r (inverseRound d r b) = b := by
  rw [forwardRound, inverseRound, subBytes_inverse h.sbox.symm, gatherBytes_inverse h.shift.symm,
    (mixAndImixAreInverses _ _).2, xorBlock_cancel]

end

/-- Settles O26: DECBLK makes the inverse rounds in the order opposite to that of ENCBLK. -/
theorem decblkUndoesEncblk : Obligations.DecblkUndoesEncblk :=
  fun _ h b => ⟨foldRev_fold_cancel (fun r hr => inverseRound_forwardRound h ⟨r, hr⟩) b,
    fold_foldRev_cancel (fun r hr => forwardRound_inverseRound h ⟨r, hr⟩) b⟩

end Sys2Proof.Machine

/-! # The chained mode: what its phases, ENCRYPT and DECRYPT make of a buffer of ordinary memory -/

namespace Sys2Proof.Machine

/-! ## Blocks of a buffer -/

theorem blockAt_get (m : Memory) (ptr b i : Nat) (hi : i < 16) :
    (blockAt m ptr b)[i] = m.read (ptr + (16 * b + i)) := by
  rw [Memory.readBlock_get, Nat.add_assoc]

/-- The byte at offset `k` is in block `k / 16`, at position `k % 16` (R62). -/
theorem read_eq_get (m : Memory) (ptr k : Nat) :
    m.read (ptr + k) = (blockAt m ptr (k / 16))[k % 16]'(Nat.mod_lt k (by omega)) := by
  rw [blockAt_get, Nat.div_add_mod]

/-- Two buffers agree on a byte where they agree on its block (R62). -/
theorem read_eq_of_block {m m' : Memory} {ptr ptr' k : Nat} (h : blockAt m ptr (k / 16) = blockAt m' ptr' (k / 16)) :
    m.read (ptr + k) = m'.read (ptr' + k) := by
  simp only [read_eq_get, h]

/-- Two memories that agree outside a buffer and on all of its blocks but `count` from block `first` agree outside
these. -/
theorem read_eq_of_blocks_outside {m m' : Memory} {ptr n first count : Nat}
    (hout : ∀ x, Outside ptr n x → m.read x = m'.read x)
    (hin : ∀ b, 16 * b < n → Outside first count b → blockAt m ptr b = blockAt m' ptr b) {x : Nat}
    (hx : Outside (ptr + 16 * first) (16 * count) x) : m.read x = m'.read x := by
  by_cases ho : Outside ptr n x
  · exact hout x ho
  · obtain ⟨k, rfl⟩ : ∃ k, x = ptr + k := ⟨x - ptr, by omega⟩
    exact read_eq_of_block (hin (k / 16) (by omega) (by omega))

/-- Buffers that agree byte by byte in a block agree on that block (R62). -/
theorem blockAt_eq_of_reads {m m' : Memory} {ptr ptr' b : Nat}
    (h : ∀ i, i < 16 → m.read (ptr + (16 * b + i)) = m'.read (ptr' + (16 * b + i))) :
    blockAt m ptr b = blockAt m' ptr' b :=
  Block.ext fun i hi => by rw [blockAt_get, blockAt_get, h i hi]

theorem blockAt_writeBlock_same {m : Memory} (hw : m.wf = true) (ptr b : Nat) (v : Block) :
    blockAt (m.writeBlock (ptr + 16 * b) v) ptr b = v :=
  Memory.readBlock_writeBlock hw _ v

theorem blockAt_writeBlock_other (m : Memory) (ptr : Nat) (v : Block) {b j : Nat} (h : j ≠ b) :
    blockAt (m.writeBlock (ptr + 16 * b) v) ptr j = blockAt m ptr j :=
  blockAt_eq_of_reads fun i hi => Memory.read_writeBlock_outside _ _ _ (by omega)

theorem paddedBlock_get (m : Memory) (ptr n b i : Nat) (hi : i < 16) :
    (paddedBlock m ptr n b)[i] = paddedByte m ptr n (16 * b + i) := by
  simp [paddedBlock]

theorem blockAt_eq_paddedBlock {m m' : Memory} {ptr n b : Nat}
    (h : ∀ i, i < 16 → m'.read (ptr + (16 * b + i)) = paddedByte m ptr n (16 * b + i)) :
    blockAt m' ptr b = paddedBlock m ptr n b :=
  Block.ext fun i hi => by rw [blockAt_get, paddedBlock_get, h i hi]

theorem read_eq_paddedByte {m m' : Memory} {ptr n k : Nat}
    (h : blockAt m' ptr (k / 16) = paddedBlock m ptr n (k / 16)) : m'.read (ptr + k) = paddedByte m ptr n k := by
  simp only [read_eq_get, h, paddedBlock_get, Nat.div_add_mod]

theorem paddedByte_below {n k : Nat} (m : Memory) (ptr : Nat) (h : k < n) :
    paddedByte m ptr n k = m.read (ptr + k) := if_pos h

theorem paddedByte_marker (m : Memory) (ptr n : Nat) : paddedByte m ptr n n = 0x80 := by
  simp [paddedByte]

theorem paddedByte_above {n k : Nat} (m : Memory) (ptr : Nat) (h : n < k) : paddedByte m ptr n k = 0x00 := by
  rw [paddedByte, if_neg (by omega), if_neg (by omega)]

/-- The padded plaintext is made of the data and its length alone (R182). -/
theorem paddedByte_congr {m m' : Memory} {ptr ptr' n : Nat}
    (h : ∀ k, k < n → m.read (ptr + k) = m'.read (ptr' + k)) (k : Nat) :
    paddedByte m ptr n k = paddedByte m' ptr' n k := by
  by_cases hk : k < n
  · rw [paddedByte_below _ _ hk, paddedByte_below _ _ hk, h k hk]
  · simp only [paddedByte, if_neg hk]

theorem paddedBlock_congr {m m' : Memory} {ptr ptr' n : Nat}
    (h : ∀ k, k < n → m.read (ptr + k) = m'.read (ptr' + k)) (b : Nat) :
    paddedBlock m ptr n b = paddedBlock m' ptr' n b :=
  Block.ext fun i hi => by rw [paddedBlock_get, paddedBlock_get, paddedByte_congr h]

/-! ## PAD (R182) -/

/-- What the zero fill makes of memory `m`: `count` zeros from `a`, and every other byte as it was. -/
structure ZeroFilled (a count : Nat) (m m' : Memory) : Prop where
  wf : m'.wf = true
  zeros : ∀ k, k < count → m'.read (a + k) = 0x00
  outside : ∀ x, Outside a count x → m'.read x = m.read x

/-- One more zero, below those of the rest. -/
theorem ZeroFilled.cons {a count : Nat} {m m' : Memory} (hw : m.wf = true)
    (h : ZeroFilled (a + 1) count (m.write a 0x00) m') : ZeroFilled a (count + 1) m m' where
  wf := h.wf
  zeros := fun k hk => by
    cases k with
    | zero => rw [h.outside _ (by omega)]; exact Memory.read_write_same hw a 0x00
    | succ k =>
      rw [show a + (k + 1) = a + 1 + k by omega]
      exact h.zeros k (by omega)
  outside := fun x hx => by rw [h.outside x (by omega), Memory.read_write_other _ _ (by omega)]

/-- The zero fill completes on ordinary memory. -/
theorem zeroFill_completes (c : Cfg) : ∀ (count idx : Nat) (s : State), s.mem.wf = true →
    Ram c s.map (s.work.ptr + idx) count →
    ∃ m i, zeroFill c count idx s = .go { s with mem := m, work := { s.work with idx := i } } ∧
      ZeroFilled (s.work.ptr + idx) count s.mem m
  | 0, _, s, hw, _ => ⟨s.mem, s.work.idx, rfl, hw, fun _ hk => absurd hk (by omega), fun _ _ => rfl⟩
  | count + 1, idx, s, hw, hr => by
    obtain ⟨m, i, he, hm⟩ := zeroFill_completes c count (idx + 1)
      ((s.storeByte (s.work.ptr + idx) 0x00).setIdx idx) (Memory.wf_write _ _ hw) fun k hk => by
        have := hr (k + 1) (by omega)
        rwa [show s.work.ptr + idx + (k + 1) = s.work.ptr + (idx + 1) + k by omega] at this
    refine ⟨m, i, ?_, hm.cons hw⟩
    rw [zeroFill, reach_ram hr .write (Nat.le_refl _) (by omega)]
    exact he

/-- What PAD makes of memory `m`: the padded plaintext up to `p`, and no byte from there or below `n` touched. -/
structure Padded (ptr n p : Nat) (m m' : Memory) : Prop where
  wf : m'.wf = true
  bytes : ∀ k, k < p → m'.read (ptr + k) = paddedByte m ptr n k
  outside : ∀ x, Outside (ptr + n) (p - n) x → m'.read x = m.read x

/-- The marker, and zeros from the next offset on. -/
theorem Padded.of_zeroFilled {ptr n p : Nat} {m m' : Memory} (hw : m.wf = true) (hn : n < p)
    (h : ZeroFilled (ptr + (n + 1)) (p - (n + 1)) (m.write (ptr + n) 0x80) m') : Padded ptr n p m m' where
  wf := h.wf
  outside := fun x hx => by rw [h.outside x (by omega), Memory.read_write_other _ _ (by omega)]
  bytes := fun k hk => by
    obtain hlt | rfl | hgt := lt_trichotomy k n
    · rw [paddedByte_below _ _ hlt, h.outside _ (by omega), Memory.read_write_other _ _ (by omega)]
    · rw [paddedByte_marker, h.outside _ (by omega), Memory.read_write_same hw]
    · rw [paddedByte_above _ _ hgt, show ptr + k = ptr + (n + 1) + (k - (n + 1)) by omega]
      exact h.zeros _ (by omega)

/-- PAD completes where what it writes is ordinary memory. -/
theorem phasePad_completes {c : Cfg} {s : State} (hw : s.mem.wf = true) (hn : s.work.n < s.work.padded)
    (hr : Ram c s.map (s.work.ptr + s.work.n) (s.work.padded - s.work.n)) :
    ∃ m i, phasePad c s = .go { s with mem := m, work := { s.work with idx := i } } ∧
      Padded s.work.ptr s.work.n s.work.padded s.mem m := by
  obtain ⟨m, i, he, hm⟩ := zeroFill_completes c (s.work.padded - (s.work.n + 1)) (s.work.n + 1)
    (s.storeByte (s.work.ptr + s.work.n) 0x80) (Memory.wf_write _ _ hw) fun k hk => by
      have := hr (k + 1) (by omega)
      rwa [show s.work.ptr + s.work.n + (k + 1) = s.work.ptr + (s.work.n + 1) + k by omega] at this
  refine ⟨m, i, ?_, .of_zeroFilled hw hn hm⟩
  rw [phasePad, reach_ram hr .write (Nat.le_refl _) (by omega)]
  exact he

/-- Settles O27: the marker and the zeros are those of the padded plaintext. -/
theorem padWritesMarkerAndZeros : Obligations.PadWritesMarkerAndZeros := by
  intro s hw hn hr
  obtain ⟨m, i, he, hm⟩ := phasePad_completes hw hn hr
  refine ⟨_, congrArg (Run.settle s.cfg s.work.padded) he, ?_, fun k hk hp => ?_, hm.outside, rfl⟩
  · exact (hm.bytes _ hn).trans (paddedByte_marker ..)
  · exact (hm.bytes k hp).trans (paddedByte_above _ _ hk)

/-! ## UNPAD (R186) -/

/-- Where the backward scan over the offsets below `count` stops: at the highest that holds 0x80, or at `fallback` where
none does. -/
def ScanStops (m : Memory) (ptr count fallback r : Nat) : Prop :=
  (r < count ∧ m.read (ptr + r) = 0x80 ∧ ∀ k, r < k → k < count → m.read (ptr + k) ≠ 0x80) ∨
  (r = fallback ∧ ∀ k, k < count → m.read (ptr + k) ≠ 0x80)

theorem ScanStops.here {m : Memory} {ptr count fallback : Nat} (h : m.read (ptr + count) = 0x80) :
    ScanStops m ptr (count + 1) fallback count :=
  .inl ⟨Nat.lt_succ_self _, h, fun _ _ _ => by omega⟩

theorem ScanStops.below {m : Memory} {ptr count fallback r : Nat} (h : m.read (ptr + count) ≠ 0x80)
    (hs : ScanStops m ptr count fallback r) : ScanStops m ptr (count + 1) fallback r := by
  have hstep : ∀ {k}, k < count + 1 → k < count ∨ k = count := by omega
  obtain ⟨hr, hv, habove⟩ | ⟨hr, hnone⟩ := hs
  · exact .inl ⟨by omega, hv, fun k hk hlt => (hstep hlt).elim (habove k hk) fun he => he ▸ h⟩
  · exact .inr ⟨hr, fun k hlt => (hstep hlt).elim (hnone k) fun he => he ▸ h⟩

/-- The scan completes where its reads are admitted. -/
theorem unpadScan_completes (c : Cfg) : ∀ (count : Nat) (s : State),
    (∀ k, k < count → accessByte c s.map .read (s.work.ptr + k) = .admitted) →
    ∃ r i, unpadScan c count s = .go { s with result := r, work := { s.work with idx := i } } ∧
      ScanStops s.mem s.work.ptr count s.result r
  | 0, s, _ => ⟨s.result, s.work.idx, rfl, .inr ⟨rfl, fun _ hk => absurd hk (by omega)⟩⟩
  | count + 1, s, ha => by
    have hreach : reach c .read (s.work.ptr + count) 1 s = .go s := by
      rw [reach, accessRange_admitted fun k hk => ?_]
      rw [show s.work.ptr + count + k = s.work.ptr + count by omega]
      exact ha count (Nat.lt_succ_self _)
    rw [unpadScan, hreach, Run.bind_go]
    by_cases hv : s.mem.read (s.work.ptr + count) = 0x80
    · exact ⟨count, count, if_pos hv, .here hv⟩
    · obtain ⟨r, i, he, hs⟩ := unpadScan_completes c count (s.setIdx count) fun k hk => ha k (by omega)
      exact ⟨r, i, (if_neg hv).trans he, hs.below hv⟩

theorem phaseUnpad_completes {c : Cfg} {s : State}
    (ha : ∀ k, k < s.work.n → accessByte c s.map .read (s.work.ptr + k) = .admitted) :
    ∃ r i, phaseUnpad c s = .go { s with result := r, work := { s.work with idx := i } } ∧
      IsUnpadded s.mem s.work.ptr s.work.n r :=
  unpadScan_completes c s.work.n (s.setResult s.work.n) ha

/-- Settles O30: by the scan over all `N` offsets, with RESULT set to `N` before it. -/
theorem unpadFindsTheLastMarker : Obligations.UnpadFindsTheLastMarker := by
  intro s ha
  obtain ⟨r, i, he, hr⟩ := phaseUnpad_completes ha
  exact ⟨_, congrArg (Run.settle s.cfg s.work.n) he, hr, rfl⟩

/-- A marker with no other above it is where the scan stops. -/
theorem IsUnpadded.eq_of_marker {m : Memory} {ptr p n r : Nat} (h : IsUnpadded m ptr p r) (hn : n < p)
    (hv : m.read (ptr + n) = 0x80) (habove : ∀ k, n < k → k < p → m.read (ptr + k) ≠ 0x80) : r = n := by
  obtain ⟨hr, hrv, hrabove⟩ | ⟨-, hnone⟩ := h
  · obtain hlt | he | hgt := lt_trichotomy r n
    · exact absurd hv (hrabove n hlt hn)
    · exact he
    · exact absurd hrv (habove r hgt hr)
  · exact absurd hv (hnone n hn)

end Sys2Proof.Machine

/-! # CBC_ENC and CBC_DEC: one chain of blocks, in two modes -/

namespace Sys2Proof.Machine

/-! ## Runs over a buffer of ordinary memory -/

theorem Run.bind_eq_go {r : Run} {f : State → Run} {t : State} (h : r.bind f = .go t) :
    ∃ u, r = .go u ∧ f u = .go t := by
  cases r with
  | go u => exact ⟨u, rfl, h⟩
  | bus u | device a => cases h

/-- A run within a buffer of ordinary memory goes on to its end (R66 to R68). -/
theorem Run.Within.eq_go {c : Cfg} {n : Nat} {s : State} {p : Prop} {r : Run} (h : r.Within c n s p)
    (hr : Ram c s.map s.work.ptr n) : ∃ t, r = .go t := by
  cases r with
  | go t => exact ⟨t, rfl⟩
  | bus u =>
    obtain ⟨k, hk, he⟩ := h
    cases (hr k hk).symm.trans he
  | device x =>
    obtain ⟨k, hk, -, he⟩ := h
    cases (hr k hk).symm.trans he

/-- What a run has come to when it goes on. -/
theorem Run.All.of_go {P : State → Prop} {r : Run} {t : State} (h : r.All P) (he : r = .go t) : P t := by
  subst he
  exact h

/-- An access that is admitted leaves the state as it was. -/
theorem reach_eq_go {c : Cfg} {dir : Dir} {a n : Nat} {s t : State} (h : reach c dir a n s = .go t) : t = s := by
  obtain ⟨-, h'⟩ | ⟨-, h'⟩ | ⟨_, -, h'⟩ := reach_cases c dir a n s <;> cases h'.symm.trans h
  rfl

/-- What a run followed by an update has come to when it goes on. -/
theorem Run.bind_go_eq_go {r : Run} {f : State → State} {t : State} (h : (r.bind fun s => .go (f s)) = .go t) :
    ∃ u, r = .go u ∧ t = f u := by
  obtain ⟨u, hu, ht⟩ := Run.bind_eq_go h
  exact ⟨u, hu, (Run.go.inj ht).symm⟩

theorem loadBlock_eq_go {c : Cfg} {s t : State} (h : loadBlock c s = .go t) :
    t = s.setBlk (s.mem.readBlock (s.work.ptr + s.work.off)) := by
  obtain ⟨u, hu, rfl⟩ := Run.bind_go_eq_go h
  rw [reach_eq_go hu]

theorem storeBlock_eq_go {c : Cfg} {s t : State} (h : storeBlock c s = .go t) :
    t = s.storeBlock (s.work.ptr + s.work.off) s.work.blk := by
  obtain ⟨u, hu, rfl⟩ := Run.bind_go_eq_go h
  rw [reach_eq_go hu]

/-! ## One pass -/

/-- What a pass of the chain does with its block: `write` gives the block it stores, from the old block and PREV, and
`link` the next PREV, from the old block and the one stored. -/
structure Mode where
  write : Block → Block → Block
  link : Block → Block → Block

/-- R183: a block is encrypted after the XOR with PREV, and PREV takes the ciphertext stored. -/
def Mode.enc (d : DerivedState) : Mode where
  write old prev := encryptBlock d (xorBlock old prev)
  link _ new := new

/-- R185: a block is decrypted before the XOR with PREV, and PREV takes the ciphertext loaded. -/
def Mode.dec (d : DerivedState) : Mode where
  write old prev := xorBlock (decryptBlock d old) prev
  link old _ := old

/-- `t` is what a pass in mode `M` at offset OFF makes of `s`, as far as memory, PREV and RESULT go. -/
structure Mode.Pass (M : Mode) (s t : State) : Prop where
  mem : t.mem = s.mem.writeBlock (s.work.ptr + s.work.off)
    (M.write (s.mem.readBlock (s.work.ptr + s.work.off)) s.work.prev)
  prev : t.work.prev = M.link (s.mem.readBlock (s.work.ptr + s.work.off))
    (M.write (s.mem.readBlock (s.work.ptr + s.work.off)) s.work.prev)
  result : t.result = s.result

/-- A pass of CBC_ENC that goes on (R183); it leaves SAVE alone. -/
theorem encStep_pass {c : Cfg} {s t : State} (h : encStep c s = .go t) :
    (Mode.enc s.ds).Pass s t ∧ t.work.save = s.work.save := by
  obtain ⟨u, hu, hstore⟩ := Run.bind_eq_go h
  obtain ⟨v, hload, rfl⟩ := Run.bind_go_eq_go hu
  obtain ⟨w, hw, rfl⟩ := Run.bind_go_eq_go hload
  obtain ⟨x, hx, rfl⟩ := Run.bind_go_eq_go hstore
  cases storeBlock_eq_go hx
  cases loadBlock_eq_go hw
  refine ⟨⟨?_, ?_, ?_⟩, ?_⟩ <;> simp [phaseEncblk, Mode.enc]

/-- A pass of CBC_DEC that goes on (R185). -/
theorem decStep_pass {c : Cfg} {s t : State} (h : decStep c s = .go t) : (Mode.dec s.ds).Pass s t := by
  obtain ⟨u, hu, hstore⟩ := Run.bind_eq_go h
  obtain ⟨v, hload, rfl⟩ := Run.bind_go_eq_go hu
  obtain ⟨w, hw, rfl⟩ := Run.bind_go_eq_go hload
  obtain ⟨x, hx, rfl⟩ := Run.bind_go_eq_go hstore
  cases storeBlock_eq_go hx
  cases loadBlock_eq_go hw
  constructor <;> simp [phaseDecblk, Mode.dec]

/-! ## The chain -/

/-- The block that pass `b` of a chain adds: `first` for the first pass, and else what the pass before has made of its
block in the old memory `m` and in the new memory `m'`. -/
def Mode.before (M : Mode) (first : Block) (m m' : Memory) (ptr b : Nat) : Block :=
  if b = 0 then first else M.link (blockAt m ptr (b - 1)) (blockAt m' ptr (b - 1))

theorem Mode.before_succ (M : Mode) (first : Block) (m m' : Memory) (ptr b : Nat) :
    M.before first m m' ptr (b + 1) = M.link (blockAt m ptr b) (blockAt m' ptr b) := rfl

theorem Mode.before_congr (M : Mode) (first : Block) (m : Memory) {m₁ m₂ : Memory} {ptr b : Nat}
    (h : ∀ j, j < b → blockAt m₁ ptr j = blockAt m₂ ptr j) :
    M.before first m m₁ ptr b = M.before first m m₂ ptr b := by
  cases b with
  | zero => rfl
  | succ b => rw [M.before_succ, M.before_succ, h b (Nat.lt_succ_self b)]

/-- `t` is what the first `count` passes of the chain make of `s`. -/
structure Mode.Chain (M : Mode) (count : Nat) (s t : State) : Prop where
  frame : CbcFrame (16 * count) s t
  result : t.result = s.result
  blocks : ∀ b, b < count → blockAt t.mem s.work.ptr b =
    M.write (blockAt s.mem s.work.ptr b) (M.before s.work.prev s.mem t.mem s.work.ptr b)
  prev : t.work.prev = M.before s.work.prev s.mem t.mem s.work.ptr count

theorem Mode.Chain.zero (M : Mode) (s : State) : M.Chain 0 s s :=
  ⟨.rfl' 0 s, rfl, fun _ h => absurd h (by omega), rfl⟩

/-- The block of the pass to come is as it was. -/
theorem Mode.Chain.blockAt_next {M : Mode} {count : Nat} {s t : State} (h : M.Chain count s t) :
    blockAt t.mem s.work.ptr count = blockAt s.mem s.work.ptr count :=
  blockAt_eq_of_reads fun i _ => h.frame.mem _ (by omega)

/-- One more pass. The blocks before it stand as they were written, and its own is what it has stored. -/
theorem Mode.Chain.succ {M : Mode} {count : Nat} {s t u : State} (hw : s.mem.wf = true) (h : M.Chain count s t)
    (hu : M.Pass (t.setOff (16 * count)) u) (hf : CbcFrame (16 * (count + 1)) s u) : M.Chain (count + 1) s u := by
  obtain ⟨hmem, hprev, hresult⟩ := hu
  simp only [State.setOff_mem, State.setOff_work, State.setOff_result, h.frame.ptr, h.blockAt_next, h.prev]
    at hmem hprev hresult
  have hother : ∀ j, j < count → blockAt t.mem s.work.ptr j = blockAt u.mem s.work.ptr j := fun j hj => by
    rw [hmem, blockAt_writeBlock_other _ _ _ (Nat.ne_of_lt hj)]
  have hsame : blockAt u.mem s.work.ptr count =
      M.write (blockAt s.mem s.work.ptr count) (M.before s.work.prev s.mem t.mem s.work.ptr count) := by
    rw [hmem, blockAt_writeBlock_same (h.frame.wf hw)]
  refine ⟨hf, hresult.trans h.result, fun b hb => ?_, ?_⟩
  · rw [← M.before_congr s.work.prev s.mem fun j hj => hother j (by omega)]
    obtain hlt | rfl : b < count ∨ b = count := by omega
    · rw [← hother b hlt, h.blocks b hlt]
    · exact hsame
  · rw [hprev, M.before_succ, hsame]

/-- The passes of CBC_ENC, where they go on (R183); they leave SAVE alone. -/
theorem encLoop_chain {c : Cfg} {s : State} (hw : s.mem.wf = true) : ∀ {count : Nat} {t : State},
    encLoop c count s = .go t → (Mode.enc s.ds).Chain count s t ∧ t.work.save = s.work.save
  | 0, t, h => by
    cases h
    exact ⟨.zero _ s, rfl⟩
  | count + 1, t, h => by
    obtain ⟨u, hu, hstep⟩ := Run.bind_eq_go h
    obtain ⟨hchain, hsave⟩ := encLoop_chain hw hu
    obtain ⟨hpass, hsave'⟩ := encStep_pass hstep
    rw [State.setOff_ds, hchain.frame.ds] at hpass
    exact ⟨hchain.succ hw hpass ((encLoop_keeps c _ (count + 1) s (Nat.le_refl _)).of_go h), hsave'.trans hsave⟩

/-- The passes of CBC_DEC, where they go on (R185). -/
theorem decLoop_chain {c : Cfg} {s : State} (hw : s.mem.wf = true) : ∀ {count : Nat} {t : State},
    decLoop c count s = .go t → (Mode.dec s.ds).Chain count s t
  | 0, t, h => by
    cases h
    exact .zero _ s
  | count + 1, t, h => by
    obtain ⟨u, hu, hstep⟩ := Run.bind_eq_go h
    have hchain := decLoop_chain hw hu
    have hpass := decStep_pass hstep
    rw [State.setOff_ds, hchain.frame.ds] at hpass
    exact hchain.succ hw hpass ((decLoop_keeps c _ (count + 1) s (Nat.le_refl _)).of_go h)

/-- CBC_ENC completes on ordinary memory (R183). -/
theorem phaseCbcEnc_completes {c : Cfg} {s : State} (hw : s.mem.wf = true)
    (hr : Ram c s.map s.work.ptr s.work.padded) :
    ∃ t, phaseCbcEnc c s = .go t ∧ (Mode.enc s.ds).Chain (s.work.padded / 16) s t ∧ t.work.save = s.work.save := by
  obtain ⟨t, ht⟩ := (encLoop_within c s.work.padded s (s.work.padded / 16) (Nat.mul_div_le _ _)).eq_go hr
  exact ⟨t, ht, encLoop_chain hw ht⟩

/-- CBC_DEC completes on ordinary memory (R185). -/
theorem phaseCbcDec_completes {c : Cfg} {s : State} (hw : s.mem.wf = true) (hr : Ram c s.map s.work.ptr s.work.n) :
    ∃ t, phaseCbcDec c s = .go t ∧ (Mode.dec s.ds).Chain (s.work.n / 16) s t := by
  obtain ⟨t, ht⟩ := (decLoop_within c s.work.n s (s.work.n / 16) (Nat.mul_div_le _ _)).eq_go hr
  exact ⟨t, ht, decLoop_chain hw ht⟩

/-- The frame of the chained mode, written as an equation. -/
theorem CbcFrame.eq {n : Nat} {s t : State} (h : CbcFrame n s t) : t = { s with
    result := t.result
    mem := t.mem
    work := { s.work with
      blk := t.work.blk, prev := t.work.prev, save := t.work.save, off := t.work.off, rnd := t.work.rnd,
      idx := t.work.idx } } := by
  dsimp only
  rw [← h.status, ← h.key, ← h.iv, ← h.dataPtr, ← h.len, ← h.ds, ← h.phase, ← h.cmd, ← h.map, ← h.widths, ← h.trespass,
    ← h.unseen, ← h.turns, ← h.rdata, ← h.pace, ← h.draws, ← h.keyc, ← h.ptr, ← h.count, ← h.g, ← h.padded]

/-- Settles O28: by the chain of `PADDED / 16` passes in the mode of encryption. -/
theorem cbcEncChainsEveryBlock : Obligations.CbcEncChainsEveryBlock := by
  intro s hw hm hr
  obtain ⟨t, he, hchain, hsave⟩ := phaseCbcEnc_completes hw hr
  refine ⟨t, congrArg (Run.settle s.cfg s.work.padded) he, fun b hb => hchain.blocks b (by omega),
    fun x hx => hchain.frame.mem x (by omega), ?_⟩
  have heq := hchain.frame.eq
  rwa [hchain.result, hsave] at heq

/-- Settles O29: by the chain of `N / 16` passes in the mode of decryption. -/
theorem cbcDecUnchainsEveryBlock : Obligations.CbcDecUnchainsEveryBlock := by
  intro s hw hm hr
  obtain ⟨t, he, hchain⟩ := phaseCbcDec_completes hw hr
  refine ⟨t, congrArg (Run.settle s.cfg s.work.n) he, fun b hb => hchain.blocks b (by omega),
    fun x hx => hchain.frame.mem x (by omega), ?_⟩
  have heq := hchain.frame.eq
  rwa [hchain.result] at heq

end Sys2Proof.Machine

/-! # ENCRYPT and DECRYPT on a buffer of ordinary memory -/

namespace Sys2Proof.Machine

/-! ## How the two commands end -/

theorem endEncrypt_kept (c : Cfg) {u : State} (h : u.trespass = false) :
    endEncrypt c u = (u.setResult u.work.padded).complete.retire c := by
  rw [endEncrypt, State.loseIfTrespassed_kept c (s := u.setResult u.work.padded) h]

theorem endDecrypt_kept (c : Cfg) {u : State} (h : u.trespass = false) : endDecrypt c u = u.complete.retire c := by
  rw [endDecrypt, State.loseIfTrespassed_kept c h]

theorem Status.complete_accept {st : Status} (hb : st.busy = false) :
    st.accept.complete = { st with cc := .ok, done := true } := by
  rw [Status.complete, Status.accept, hb]

/-- How a launched command that has run to its end is completed (R242). -/
theorem Launched.endedWith_complete (c : Cfg) {n : Nat} {cmd : Command} {s l u : State} (hl : Launched cmd s l)
    (hu : CbcFrame n l u) (hb : s.status.busy = false) :
    EndedWith { s.status with cc := .ok, done := true } cmd s (u.complete.retire c) := by
  have hf := (hl.toContextFrame.trans hu.context).trans (complete_retire_context c u)
  have hw : u.window = windowOf cmd s.dataPtr s.len := by
    rw [State.window, hu.cmd, hu.ptr, hu.count, hl.cmd, hl.ptr, hl.n]
    rfl
  have he := EndedWith.of_idle (cmd := cmd) hf (State.complete_retire_idle c u)
    (by rw [State.retire_unseen, State.complete_unseen, hw, hu.unseen, hl.unseen])
  rwa [State.retire_status, State.complete_status, hu.status, hl.status, Status.complete_accept hb] at he

/-! ## ENCRYPT -/

/-- `t` is what a completed ENCRYPT leaves of `s` (R180, R184, R213). -/
structure Encrypted (s t : State) : Prop where
  result : t.result = paddedLength s.len
  blocks : ∀ b, 16 * b < paddedLength s.len → blockAt t.mem s.dataPtr b =
    encryptBlock s.ds (xorBlock (paddedBlock s.mem s.dataPtr s.len b)
      (if b = 0 then s.iv else blockAt t.mem s.dataPtr (b - 1)))
  outside : ∀ x, Outside s.dataPtr (paddedLength s.len) x → t.mem.read x = s.mem.read x
  ended : EndedWith { s.status with cc := .ok, done := true } .encrypt s t
  wf : t.mem.wf = true

/-- The phases of ENCRYPT complete on ordinary memory: the chain runs over what PAD has made of the buffer. -/
theorem runEncrypt_completes {c : Cfg} {s : State} (hw : s.mem.wf = true) (hn : s.work.n < s.work.padded)
    (hm : s.work.padded % 16 = 0) (hr : Ram c s.map s.work.ptr s.work.padded) :
    ∃ t, runEncrypt c s = .go t ∧ CbcFrame s.work.padded s t ∧
      ∀ b, 16 * b < s.work.padded → blockAt t.mem s.work.ptr b =
        encryptBlock s.ds (xorBlock (paddedBlock s.mem s.work.ptr s.work.n b)
          (if b = 0 then s.work.prev else blockAt t.mem s.work.ptr (b - 1))) := by
  obtain ⟨m, i, hpad, hp⟩ := phasePad_completes (c := c) hw hn fun k hk => by
    rw [Nat.add_assoc]
    exact hr _ (by omega)
  obtain ⟨t, henc, hchain, -⟩ := phaseCbcEnc_completes (c := c)
    (s := { s with mem := m, work := { s.work with idx := i } }) hp.wf hr
  have hrun : runEncrypt c s = .go t := by
    rw [runEncrypt, hpad]
    exact henc
  refine ⟨t, hrun, (runEncrypt_keeps c hn).of_go hrun, fun b hb => ?_⟩
  rw [← blockAt_eq_paddedBlock fun i hi => hp.bytes _ (by omega)]
  exact hchain.blocks b (show b < s.work.padded / 16 by omega)

/-- ENCRYPT completes on ordinary memory. -/
theorem EncryptReady.completes {s : State} (h : EncryptReady s)
    (hr : Ram s.cfg s.map s.dataPtr (paddedLength s.len)) : ∃ t, exec .encrypt s = .next t ∧ Encrypted s t := by
  have hl := launchEncrypt_launched s
  obtain ⟨u, hrun, hu, hblocks⟩ := runEncrypt_completes (c := s.cfg) (s := launchEncrypt (s.accept .encrypt)) h.wf
    (lt_paddedLength s.len) (paddedLength_mod s.len) hr
  refine ⟨endEncrypt s.cfg u, by rw [h.exec_eq, hrun]; rfl, ?_⟩
  rw [endEncrypt_kept s.cfg (hu.trespass.trans hl.trespass)]
  exact {
    result := hu.padded
    blocks := hblocks
    outside := hu.mem
    ended := hl.endedWith_complete s.cfg (hu.trans (frame_setResult _ u _)) h.busy
    wf := hu.wf h.wf }

/-- Settles O31: PAD, the chain over the padded plaintext, and the completion with RESULT the padded length. -/
theorem encryptCompletes : Obligations.EncryptCompletes := by
  intro s h hr
  obtain ⟨t, he, ht⟩ := h.completes hr
  exact ⟨t, he, ht.result, ht.blocks, ht.outside, ht.ended⟩

/-- Settles O36: block by block, since each depends on its padded plaintext and on the block before. -/
theorem ciphertextIsAFunctionOfItsInputs : Obligations.CiphertextIsAFunctionOfItsInputs := by
  intro s₁ s₂ h₁ h₂ hr₁ hr₂ hlen hiv hds hplain
  obtain ⟨t₁, he₁, ht₁⟩ := h₁.completes hr₁
  obtain ⟨t₂, he₂, ht₂⟩ := h₂.completes hr₂
  have hblocks : ∀ b, 16 * b < paddedLength s₁.len → blockAt t₁.mem s₁.dataPtr b = blockAt t₂.mem s₂.dataPtr b := by
    intro b
    induction b with
    | zero =>
      intro hb
      rw [ht₁.blocks 0 hb, ht₂.blocks 0 (hlen ▸ hb), hds, paddedBlock_congr hplain, hlen, if_pos rfl, if_pos rfl, hiv]
    | succ b ih =>
      intro hb
      rw [ht₁.blocks _ hb, ht₂.blocks _ (hlen ▸ hb), hds, paddedBlock_congr hplain, hlen, if_neg b.succ_ne_zero,
        if_neg b.succ_ne_zero, Nat.add_sub_cancel, ih (by omega)]
  exact ⟨t₁, t₂, he₁, he₂, by rw [ht₁.result, ht₂.result, hlen], fun k hk => read_eq_of_block (hblocks _ (by omega))⟩

/-! ## DECRYPT -/

/-- The block that DECRYPT adds to decrypted block `b` of the ciphertext in `m` (R185). -/
def blockBefore (first : Block) (m : Memory) (ptr b : Nat) : Block :=
  if b = 0 then first else blockAt m ptr (b - 1)

theorem blockBefore_congr (first : Block) {m m' : Memory} {ptr b : Nat}
    (h : ∀ j, b = j + 1 → blockAt m ptr j = blockAt m' ptr j) :
    blockBefore first m ptr b = blockBefore first m' ptr b := by
  cases b with
  | zero => rfl
  | succ j => exact h j rfl

/-- Memory `m'` and RESULT `r` are what DECRYPT makes of the `n` bytes at `ptr` of `m`, with key context `d` and `iv`
(R185, R186). -/
structure Decrypted (d : DerivedState) (iv : Block) (ptr n : Nat) (m m' : Memory) (r : Nat) : Prop where
  result : IsUnpadded m' ptr n r
  blocks : ∀ b, 16 * b < n →
    blockAt m' ptr b = xorBlock (decryptBlock d (blockAt m ptr b)) (blockBefore iv m ptr b)
  outside : ∀ x, Outside ptr n x → m'.read x = m.read x

/-- The phases of DECRYPT complete on ordinary memory: the scan runs over what the chain has made of the buffer. -/
theorem runDecrypt_completes {c : Cfg} {s : State} (hw : s.mem.wf = true) (hm : s.work.n % 16 = 0)
    (hr : Ram c s.map s.work.ptr s.work.n) :
    ∃ t, runDecrypt c s = .go t ∧ CbcFrame s.work.n s t ∧
      Decrypted s.ds s.work.prev s.work.ptr s.work.n s.mem t.mem t.result := by
  obtain ⟨u, hdec, hchain⟩ := phaseCbcDec_completes (c := c) hw hr
  have hu := hchain.frame
  obtain ⟨r, i, hscan, hres⟩ := phaseUnpad_completes (c := c) (s := u) fun k hk => by
    rw [hu.count] at hk
    rw [hu.map, hu.ptr]
    exact accessByte_read_of_write (hr k hk) .read
  rw [hu.ptr, hu.count] at hres
  have hrun : runDecrypt c s = .go { u with result := r, work := { u.work with idx := i } } := by
    rw [runDecrypt, hdec]
    exact hscan
  have hframe := (runDecrypt_keeps c s).of_go hrun
  exact ⟨_, hrun, hframe, hres, fun b hb => hchain.blocks b (by omega), hframe.mem⟩

/-- DECRYPT completes on ordinary memory. -/
theorem DecryptReady.completes {s : State} (h : DecryptReady s) (hr : Ram s.cfg s.map s.dataPtr s.len) :
    ∃ t, exec .decrypt s = .next t ∧ Decrypted s.ds s.iv s.dataPtr s.len s.mem t.mem t.result ∧
      EndedWith { s.status with cc := .ok, done := true } .decrypt s t := by
  have hl := accept_decrypt_launched s
  obtain ⟨u, hrun, hu, hdec⟩ := runDecrypt_completes (c := s.cfg) (s := s.accept .decrypt) h.wf h.multiple hr
  refine ⟨endDecrypt s.cfg u, by rw [h.exec_eq, hrun]; rfl, ?_⟩
  rw [endDecrypt_kept s.cfg (hu.trespass.trans hl.trespass)]
  exact ⟨hdec, hl.endedWith_complete s.cfg hu h.busy⟩

/-- Two blocks that differ by what was added to them last. -/
theorem xorBlock_exchange (d x y : Block) : xorBlock d y = xorBlock (xorBlock (xorBlock d x) x) y := by
  rw [xorBlock_cancel]

/-- Settles O34: IV is added to block 0 alone. -/
theorem wrongIvChangesTheFirstBlockOnly : Obligations.WrongIvChangesTheFirstBlockOnly := by
  intro s v h hr
  obtain ⟨t, het, ht, -⟩ := h.completes hr
  obtain ⟨u, heu, hu, -⟩ := DecryptReady.completes (s := s.writeIv v) { h with } hr
  replace hu : Decrypted s.ds v s.dataPtr s.len s.mem u.mem u.result := hu
  have hpos : 16 * 0 < s.len := Nat.pos_of_ne_zero h.positive
  have hfirst : blockAt u.mem s.dataPtr 0 = xorBlock (xorBlock (blockAt t.mem s.dataPtr 0) s.iv) v := by
    rw [hu.blocks 0 hpos, ht.blocks 0 hpos]
    exact xorBlock_exchange _ s.iv v
  refine ⟨t, u, het, heu, fun i hi => ?_, fun x hx => ?_⟩
  · simpa using congrArg (fun b : Block => b[i]) hfirst
  · refine read_eq_of_blocks_outside (n := s.len) (first := 0) (count := 1)
      (fun y hy => (hu.outside y hy).trans (ht.outside y hy).symm) (fun b hb hne => ?_) hx
    have hb0 : b ≠ 0 := by omega
    rw [hu.blocks b hb, ht.blocks b hb, blockBefore, if_neg hb0, blockBefore, if_neg hb0]

/-- Settles O35: a ciphertext block enters its own block and the one after it, and no other. -/
theorem corruptedBlockSpreadsToTheNextOnly : Obligations.CorruptedBlockSpreadsToTheNextOnly := by
  intro s m k h hr hw hk hm
  obtain ⟨t, het, ht, -⟩ := h.completes hr
  obtain ⟨u, heu, hu, -⟩ := DecryptReady.completes (s := { s with mem := m }) { h with wf := hw } hr
  replace hu : Decrypted s.ds s.iv s.dataPtr s.len m u.mem u.result := hu
  have hmul := h.multiple
  have hsame : ∀ b, b ≠ k → blockAt m s.dataPtr b = blockAt s.mem s.dataPtr b := fun b hb =>
    blockAt_eq_of_reads fun i hi => hm _ (by omega)
  have hbefore : ∀ b, b ≠ k + 1 → blockBefore s.iv m s.dataPtr b = blockBefore s.iv s.mem s.dataPtr b :=
    fun b hb => blockBefore_congr s.iv fun j hj => hsame j (by omega)
  refine ⟨t, u, het, heu, ?_, fun i hi hnext => ?_, fun x hx => ?_⟩
  · rw [hu.blocks k hk, hbefore k (by omega), blockBefore]
  · have hspread : blockAt u.mem s.dataPtr (k + 1) =
        xorBlock (xorBlock (blockAt t.mem s.dataPtr (k + 1)) (blockAt s.mem s.dataPtr k)) (blockAt m s.dataPtr k) := by
      rw [hu.blocks _ hnext, ht.blocks _ hnext, hsame _ (Nat.succ_ne_self k)]
      exact xorBlock_exchange _ (blockAt s.mem s.dataPtr k) (blockAt m s.dataPtr k)
    simpa [hi] using congrArg (fun b : Block => b[i]) hspread
  · refine read_eq_of_blocks_outside (n := s.len) (first := k) (count := if 16 * (k + 1) < s.len then 2 else 1)
      (fun y hy => ?_) (fun b hb hne => ?_) (by split_ifs at hx ⊢ <;> exact hx)
    · rw [ht.outside y hy, hu.outside y hy]
      exact hm y (by omega)
    · have hne' : b ≠ k ∧ b ≠ k + 1 := by split_ifs at hne <;> omega
      rw [hu.blocks b hb, ht.blocks b hb, hsame b hne'.1, hbefore b hne'.2]

/-! ## DECRYPT after ENCRYPT (R188) -/

theorem State.writeLen_of_fits {c : Cfg} {n : Nat} (h : n < 2 ^ c.lenw) (s : State) :
    s.writeLen c n = { s with len := n } := by
  rw [State.writeLen, Nat.mod_eq_of_lt h]

/-- DECRYPT can run on what ENCRYPT has left, with LEN the padded length. -/
theorem Encrypted.decryptReady {s t : State} (h : EncryptReady s) (ht : Encrypted s t) :
    DecryptReady { t with len := paddedLength s.len } := by
  have hstatus : t.status = { s.status with cc := .ok, done := true } := congrArg State.status ht.ended
  exact {
    busy := (congrArg Status.busy hstatus).trans h.busy
    keyed := (congrArg Status.keyed hstatus).trans h.keyed
    positive := Nat.ne_zero_of_lt (lt_paddedLength s.len)
    multiple := paddedLength_mod s.len
    pace := (congrArg State.pace ht.ended).trans h.pace
    wf := ht.wf }

/-- DECBLK undoes ENCBLK, and the second XOR with the block before undoes the first. -/
theorem decrypted_block {d : DerivedState} (hd : d.TablesOk) (p prev : Block) :
    xorBlock (decryptBlock d (encryptBlock d (xorBlock p prev))) prev = p := by
  rw [(decblkUndoesEncblk d hd _).1, xorBlock_cancel]

/-- DECRYPT of what ENCRYPT made gives the padded plaintext back, block by block. -/
theorem Encrypted.decrypted_bytes {s t : State} {m : Memory} {r k : Nat} (ht : Encrypted s t) (hd : s.ds.TablesOk)
    (hm : Decrypted s.ds s.iv s.dataPtr (paddedLength s.len) t.mem m r) (hk : k < paddedLength s.len) :
    m.read (s.dataPtr + k) = paddedByte s.mem s.dataPtr s.len k := by
  have hb : 16 * (k / 16) < paddedLength s.len := by omega
  apply read_eq_paddedByte
  rw [hm.blocks _ hb, ht.blocks _ hb]
  exact decrypted_block hd _ _

/-- Settles O33: what DECRYPT gives back is the padded plaintext, whose last 0x80 is its marker. -/
theorem decryptUndoesEncrypt : Obligations.DecryptUndoesEncrypt := by
  intro s h hr hd
  obtain ⟨t, het, ht⟩ := h.completes hr
  obtain ⟨⟨⟨-, hiv, hptr, -⟩, ⟨hmap, hwidths, -⟩⟩, hds, -⟩ := encryptCommand_context het
  have hcfg : t.cfg = s.cfg := congrArg Config.cfg hwidths
  obtain ⟨u, heu, hu, hend⟩ := (ht.decryptReady h).completes (show Ram t.cfg t.map t.dataPtr _ by
    rwa [hcfg, hmap, hptr])
  replace hu : Decrypted t.ds t.iv t.dataPtr (paddedLength s.len) t.mem u.mem u.result := hu
  rw [hds, hiv, hptr] at hu
  have hlen := lt_paddedLength s.len
  have hbytes := fun k (hk : k < paddedLength s.len) => ht.decrypted_bytes hd hu hk
  have hmarker : u.mem.read (s.dataPtr + s.len) = 0x80 := (hbytes _ hlen).trans (paddedByte_marker ..)
  have hzeros : ∀ k, s.len < k → k < paddedLength s.len → u.mem.read (s.dataPtr + k) = 0x00 := fun k hk hlt =>
    (hbytes k hlt).trans (paddedByte_above _ _ hk)
  refine ⟨t, u, het, by rw [State.writeLen_of_fits h.fits]; exact heu, ?_, congrArg (·.status.cc) hend,
    fun k hk => ?_, hmarker, hzeros⟩
  · refine hu.result.eq_of_marker hlen hmarker fun k hk hlt => ?_
    rw [hzeros k hk hlt]
    decide
  · exact (hbytes k (by omega)).trans (paddedByte_below _ _ hk)

end Sys2Proof.Machine

/-! # The commands at the boundary: dropped, released, accepted, completed -/

namespace Sys2Proof.Machine

/-- Settles O32. -/
theorem decryptCompletes : Obligations.DecryptCompletes := by
  intro s h hr
  obtain ⟨t, he, hdec, hend⟩ := h.completes hr
  exact ⟨t, he, hdec.result, hdec.blocks, hdec.outside, hend⟩

/-- Settles O44: a dropped command sets FAULT alone. -/
theorem commandDroppedWhileBusy : Obligations.CommandDroppedWhileBusy := by
  intro s i hb hi
  obtain ⟨hksched, hencrypt, hdecrypt, hrelease, hreserved⟩ := commands_dropped (c := s.cfg) hb
  obtain rfl | rfl | rfl | rfl | ⟨w, rfl⟩ := hi
  · exact congrArg Host.Outcome.next hksched
  · exact hencrypt
  · exact hdecrypt
  · exact congrArg Host.Outcome.next hrelease
  · exact congrArg Host.Outcome.next hreserved

/-! ## RELEASE -/

/-- An empty context is not emptied again (R215). -/
theorem State.emptyContext_of_empty {s : State} (hk : s.status.keyed = false) : s.emptyContext = s := by
  rw [State.emptyContext, hk]
  rfl

/-- Settles O45. -/
theorem releaseEmptiesTheContext : Obligations.ReleaseEmptiesTheContext := by
  intro s hb
  refine ⟨releaseCommand s, rfl, ?_, fun hk => ?_⟩
  · obtain ⟨hbusy, -⟩ | ⟨-, d, k, he⟩ := releaseCommand_cases s
    · exact absurd (hb.symm.trans hbusy) Bool.false_ne_true
    · rw [he]
      simp only [State.complete, State.toIdle, State.window, Status.complete, Status.clearKeyed, Status.accept, hb]
      rfl
  · have hempty : s.acceptPlain.emptyContext = s.acceptPlain := State.emptyContext_of_empty hk
    simp [releaseCommand, hb, hempty]

/-! ## Acceptance -/

/-- KSCHED past its checks, where its phases are steps (R211). -/
theorem kschedCommand_accepts {c : Cfg} {s : State} (hb : s.status.busy = false) (hk : s.status.keyed = false)
    (hp : s.pace ≠ .atomic) : kschedCommand c s = s.accept .ksched := by
  cases hq : s.pace with
  | atomic => exact absurd hq hp
  | phases | micro => simp [kschedCommand, hb, hk, hq]

/-- ENCRYPT past its checks, where its phases are steps (R213). -/
theorem encryptCommand_accepts {c : Cfg} {s : State} (hb : s.status.busy = false) (hk : s.status.keyed = true)
    (hl : paddedLength s.len < 2 ^ c.lenw) (hp : s.pace ≠ .atomic) :
    encryptCommand c s = .next (launchEncrypt (s.accept .encrypt)) := by
  have hl' : ¬ paddedOverflows c s.len := Nat.not_le.mpr hl
  cases hq : s.pace with
  | atomic => exact absurd hq hp
  | phases | micro => simp [encryptCommand, hb, hk, hl', hq]

/-- What acceptance of a DECRYPT leaves where its phases are steps; at the pace `micro` CBC_DEC starts at offset 0
(R185). -/
def launchDecrypt (s : State) : State :=
  if s.pace = .micro then (s.accept .decrypt).setOff 0 else s.accept .decrypt

/-- DECRYPT past its checks, where its phases are steps (R214). -/
theorem decryptCommand_accepts {c : Cfg} {s : State} (hb : s.status.busy = false) (hk : s.status.keyed = true)
    (hl : ¬ badCipherLength s.len) (hp : s.pace ≠ .atomic) : decryptCommand c s = .next (launchDecrypt s) := by
  cases hq : s.pace with
  | atomic => exact absurd hq hp
  | phases | micro =>
    simp only [decryptCommand, launchDecrypt, hb, hk, if_neg hl, hq, if_false, if_true, Bool.true_eq_false,
      Bool.false_eq_true, reduceCtorEq]

/-- Settles O46. -/
theorem acceptanceSamplesTheOperands : Obligations.AcceptanceSamplesTheOperands := by
  intro s hb hp
  refine ⟨fun hk => ?_, fun hk hl => ?_, fun hk hz hm => ?_⟩
  · exact congrArg Host.Outcome.next (kschedCommand_accepts hb hk hp)
  · exact encryptCommand_accepts hb hk hl hp
  · refine (decryptCommand_accepts hb hk (not_or.mpr ⟨hz, not_not.mpr hm⟩) hp).trans (congrArg Host.Outcome.next ?_)
    unfold launchDecrypt
    split <;> rfl

end Sys2Proof.Machine

/-! # What the phases of the chained mode do not see

A change of the state that leaves the platform's map, DerivedState, memory, RESULT and the working registers alone is
seen by no phase of the chained mode, and none undoes it. -/

namespace Sys2Proof.Machine

/-- A change of the state that no phase of the chained mode sees (R182 to R186). -/
structure Bystander (f : State → State) : Prop where
  map : ∀ s, (f s).map = s.map
  ds : ∀ s, (f s).ds = s.ds
  work : ∀ s, (f s).work = s.work
  mem : ∀ s, (f s).mem = s.mem
  update_work : ∀ (s : State) (w : Working), { f s with work := w } = f { s with work := w }
  update_mem : ∀ (s : State) (m : Memory), { f s with mem := m } = f { s with mem := m }
  update_result : ∀ (s : State) (r : Nat), { f s with result := r } = f { s with result := r }

namespace Bystander

variable {f : State → State} (hf : Bystander f) (c : Cfg)
include hf

theorem modify_work (u : Working → Working) (s : State) :
    { f s with work := u (f s).work } = f { s with work := u s.work } := by
  rw [hf.work, hf.update_work]

theorem setBlk (s : State) (b : Block) : (f s).setBlk b = f (s.setBlk b) :=
  hf.modify_work (fun w => { w with blk := b }) s

theorem setIdx (s : State) (i : Nat) : (f s).setIdx i = f (s.setIdx i) :=
  hf.modify_work (fun w => { w with idx := i }) s

theorem setRnd (s : State) (r : Fin 8) : (f s).setRnd r = f (s.setRnd r) :=
  hf.modify_work (fun w => { w with rnd := r }) s

theorem setOff (s : State) (off : Nat) : (f s).setOff off = f (s.setOff off) :=
  hf.modify_work (fun w => { w with off := off }) s

theorem setPrev (s : State) (b : Block) : (f s).setPrev b = f (s.setPrev b) :=
  hf.modify_work (fun w => { w with prev := b }) s

theorem setSave (s : State) (b : Block) : (f s).setSave b = f (s.setSave b) :=
  hf.modify_work (fun w => { w with save := b }) s

theorem setResult (s : State) (r : Nat) : (f s).setResult r = f (s.setResult r) :=
  hf.update_result s r

theorem storeByte (s : State) (a : Nat) (v : Byte) : (f s).storeByte a v = f (s.storeByte a v) := by
  rw [State.storeByte, hf.mem, hf.update_mem, State.storeByte]

theorem storeBlock (s : State) (a : Nat) (b : Block) : (f s).storeBlock a b = f (s.storeBlock a b) := by
  rw [State.storeBlock, hf.mem, hf.update_mem, State.storeBlock]

/-! ## Accesses, and the phases made of them -/

/-- An access at an address that a bystander does not change is admitted or not as it was (R68). -/
theorem reach_blind (dir : Dir) (a : Working → Nat) (n : Nat) : Blind f fun s => reach c dir (a s.work) n s := by
  intro s
  dsimp only [reach]
  rw [hf.map, hf.work]
  cases accessRange c s.map dir (a s.work) n <;> rfl

theorem zeroFill_blind : ∀ count idx, Blind f (zeroFill c count idx)
  | 0, _ => fun _ => rfl
  | count + 1, idx => by
    refine (hf.reach_blind c .write (fun w => w.ptr + idx) 1).bind fun t => ?_
    rw [hf.work, hf.storeByte, hf.setIdx]
    exact zeroFill_blind count (idx + 1) _

theorem phasePad_blind : Blind f (phasePad c) := by
  refine (hf.reach_blind c .write (fun w => w.ptr + w.n) 1).bind fun t => ?_
  rw [hf.work, hf.storeByte]
  exact hf.zeroFill_blind c _ _ _

theorem storeBlock_blind : Blind f (Machine.storeBlock c) :=
  (hf.reach_blind c .write (fun w => w.ptr + w.off) 16).then_go fun t => by rw [hf.work, hf.storeBlock]

theorem loadBlock_blind : Blind f (loadBlock c) :=
  (hf.reach_blind c .read (fun w => w.ptr + w.off) 16).then_go fun t => by rw [hf.work, hf.mem, hf.setBlk]

theorem encLoad_blind : Blind f (encLoad c) :=
  (hf.loadBlock_blind c).then_go fun t => by rw [hf.work, hf.setBlk]

theorem decLoad_blind : Blind f (decLoad c) :=
  (hf.loadBlock_blind c).then_go fun t => by rw [hf.work, hf.setSave]

theorem encStore_blind : Blind f (encStore c) :=
  (hf.storeBlock_blind c).then_go fun t => by rw [hf.work, hf.setPrev]

theorem decStore_blind : Blind f (decStore c) := fun s => by
  rw [decStore, hf.work, hf.setBlk]
  exact (hf.storeBlock_blind c).then_go (u := fun t => t.setPrev t.work.save)
    (fun t => by rw [hf.work, hf.setPrev]) _

theorem phaseEncblk_eq (s : State) : phaseEncblk (f s) = f (phaseEncblk s) := by
  rw [phaseEncblk, hf.ds, hf.work, hf.setBlk, hf.setRnd, hf.setIdx, phaseEncblk]

theorem phaseDecblk_eq (s : State) : phaseDecblk (f s) = f (phaseDecblk s) := by
  rw [phaseDecblk, hf.ds, hf.work, hf.setBlk, hf.setRnd, hf.setIdx, phaseDecblk]

theorem encStep_blind : Blind f (encStep c) :=
  ((hf.encLoad_blind c).then_go hf.phaseEncblk_eq).bind (hf.encStore_blind c)

theorem decStep_blind : Blind f (decStep c) :=
  ((hf.decLoad_blind c).then_go hf.phaseDecblk_eq).bind (hf.decStore_blind c)

theorem encLoop_blind : ∀ count, Blind f (encLoop c count)
  | 0 => fun _ => rfl
  | b + 1 => by
    refine (encLoop_blind b).bind fun t => ?_
    rw [hf.setOff]
    exact hf.encStep_blind c _

theorem decLoop_blind : ∀ count, Blind f (decLoop c count)
  | 0 => fun _ => rfl
  | b + 1 => by
    refine (decLoop_blind b).bind fun t => ?_
    rw [hf.setOff]
    exact hf.decStep_blind c _

theorem phaseCbcEnc_blind : Blind f (phaseCbcEnc c) := fun s => by
  rw [phaseCbcEnc, hf.work]
  exact hf.encLoop_blind c _ s

theorem phaseCbcDec_blind : Blind f (phaseCbcDec c) := fun s => by
  rw [phaseCbcDec, hf.work]
  exact hf.decLoop_blind c _ s

theorem unpadScan_blind : ∀ count, Blind f (unpadScan c count)
  | 0 => fun _ => rfl
  | idx + 1 => by
    refine (hf.reach_blind c .read (fun w => w.ptr + idx) 1).bind fun t => ?_
    rw [hf.work, hf.mem, hf.setIdx]
    split
    · rw [hf.setResult]
      rfl
    · exact unpadScan_blind idx _

theorem phaseUnpad_blind : Blind f (phaseUnpad c) := fun s => by
  rw [phaseUnpad, hf.work, hf.setResult]
  exact hf.unpadScan_blind c _ _

end Bystander

end Sys2Proof.Machine

/-! # Moves of the engine, counted

The pace says how much of a command one move runs, and nothing of where the command ends. So what is compared are two
outcomes with the pace left out, and the number of moves that lead from the one to the other at a given pace. -/

namespace Sys2Proof.Machine

/-! ## Runs of the engine -/

theorem engineRun_succ (k : Nat) (s : State) : engineRun (k + 1) s = thenEngine k (engineStep s) := by
  rw [engineRun]
  cases engineStep s <;> rfl

theorem thenEngine_zero (o : Host.Outcome State Fault Refusal) : thenEngine 0 o = o := by
  cases o <;> rfl

theorem thenEngine_succ (k : Nat) (o : Host.Outcome State Fault Refusal) :
    thenEngine (k + 1) o = thenEngine k (thenEngine 1 o) := by
  cases o with
  | next s =>
    have hone : thenEngine 1 (.next s) = engineStep s := (engineRun_succ 0 s).trans (thenEngine_zero _)
    rw [hone]
    exact engineRun_succ k s
  | fault r | refused r => rfl

theorem thenEngine_add (j k : Nat) (o : Host.Outcome State Fault Refusal) :
    thenEngine (j + k) o = thenEngine k (thenEngine j o) := by
  induction j generalizing o with
  | zero => rw [Nat.zero_add, thenEngine_zero]
  | succ j ih => rw [Nat.add_right_comm, thenEngine_succ, ih, ← thenEngine_succ]

/-- An idle engine stays where it is (R257). -/
theorem engineRun_idle {s : State} (h : s.phase = .idle) : ∀ k, engineRun k s = .next s
  | 0 => rfl
  | k + 1 => by
    rw [engineRun_succ, engineStep_idle h]
    exact engineRun_idle h k

/-- At pace `q`, `k` moves of the engine lead from outcome `o` to outcome `o'`, the pace apart. -/
structure Leads (q : Pace) (k : Nat) (o o' : Host.Outcome State Fault Refusal) : Prop where
  run : thenEngine k (mapNext (State.setPace · q) o) = mapNext (State.setPace · q) o'

section
variable {q : Pace} {j k : Nat} {o o₁ o₂ : Host.Outcome State Fault Refusal} {s : State}

theorem Leads.refl (q : Pace) (o : Host.Outcome State Fault Refusal) : Leads q 0 o o :=
  ⟨thenEngine_zero _⟩

theorem Leads.trans (h : Leads q j o o₁) (h' : Leads q k o₁ o₂) : Leads q (j + k) o o₂ :=
  ⟨by rw [thenEngine_add, h.run, h'.run]⟩

/-- One move. -/
theorem Leads.move (h : engineStep (s.setPace q) = mapNext (State.setPace · q) o) : Leads q 1 (.next s) o :=
  ⟨(engineRun_succ 0 (s.setPace q)).trans ((thenEngine_zero _).trans h)⟩

theorem Leads.idle (h : s.phase = .idle) : Leads q k (.next s) (.next s) :=
  ⟨engineRun_idle (s := s.setPace q) h k⟩

/-- Where a run goes on, the engine does what follows; where it has stopped, the command is over. -/
theorem Leads.bind {c : Cfg} {n : Nat} {r : Run} {e e' : State → Run}
    (h : ∀ t, r = .go t → Leads q k ((e t).settle c n) ((e' t).settle c n)) :
    Leads q k ((r.bind e).settle c n) ((r.bind e').settle c n) := by
  cases r with
  | go t => exact h t rfl
  | bus t => exact .idle (State.refuseBus_phase t c n)
  | device a => exact ⟨rfl⟩

end

/-! ## Phases of ENCRYPT and DECRYPT, at any pace -/

/-- The state with the engine in phase `p`, at pace `q`. -/
def State.atPhase (p : Phase) (q : Pace) (s : State) : State :=
  (s.setPhase p).setPace q

theorem atPhase_bystander (p : Phase) (q : Pace) : Bystander (State.atPhase p q) where
  map _ := rfl
  ds _ := rfl
  work _ := rfl
  mem _ := rfl
  update_work _ _ := rfl
  update_mem _ _ := rfl
  update_result _ _ := rfl

/-- An update after a phase sets PHASE anew, whatever it was, and keeps the pace. -/
def SetsPhase (f : State → State) : Prop :=
  ∀ p q s, f (s.atPhase p q) = (f s).setPace q

theorem loseIfTrespassed_atPhase (c : Cfg) (p : Phase) (q : Pace) (s : State) :
    (s.atPhase p q).loseIfTrespassed c = (s.loseIfTrespassed c).atPhase p q := by
  unfold State.loseIfTrespassed
  rw [show (s.atPhase p q).trespass = s.trespass from rfl]
  cases s.trespass <;> rfl

theorem endDecrypt_atPhase (c : Cfg) (p : Phase) (q : Pace) (s : State) :
    endDecrypt c (s.atPhase p q) = (endDecrypt c s).setPace q := by
  rw [endDecrypt, loseIfTrespassed_atPhase]
  rfl

theorem endEncrypt_atPhase (c : Cfg) (p : Phase) (q : Pace) (s : State) :
    endEncrypt c (s.atPhase p q) = (endEncrypt c s).setPace q :=
  endDecrypt_atPhase c p q (s.setResult s.work.padded)

/-- A phase, and the update after it, come to the same whatever PHASE and the pace were. -/
theorem Blind.settle_atPhase {g : State → Run} {f : State → State} {p : Phase} {q : Pace}
    (hg : Blind (State.atPhase p q) g) (hf : SetsPhase f) (c : Cfg) (n : Nat) (s : State) :
    ((g (s.atPhase p q)).bind fun t => .go (f t)).settle c n =
      mapNext (State.setPace · q) (((g s).bind fun t => .go (f t)).settle c n) := by
  rw [hg s]
  cases g s with
  | go t => exact congrArg Host.Outcome.next (hf p q t)
  | bus t => rfl
  | device a => rfl

/-- A phase that accesses memory has run: the engine moves on from where it goes on, and has ended the command where it
has stopped. -/
theorem proceed_settle {c : Cfg} {n : Nat} {p : Phase} {r : Run} {f : State → State}
    (hr : r.All fun t => t.phase ≠ .idle) (ha : ∀ t, advance c p t = .next (f t)) :
    proceed c p (r.settle c n) = (r.bind fun t => .go (f t)).settle c n := by
  cases r with
  | go t => exact (if_neg hr).trans (ha t)
  | bus t => rfl
  | device a => rfl

/-- A move of the engine that runs phase `p` and goes on by the update `f` (R40). -/
theorem leads_phase {p : Phase} {q : Pace} {s : State} {g : State → Run} {f : State → State} {n : Nat}
    (hq : ¬ (q = .micro ∧ isComposite p = true)) (hi : p ≠ .idle)
    (he : exec p.instr (s.atPhase p q) = (g (s.atPhase p q)).settle s.cfg n)
    (hk : (g (s.atPhase p q)).All (PhaseFrame s.cfg (s.atPhase p q))) (hg : Blind (State.atPhase p q) g)
    (ha : ∀ t, advance s.cfg p t = .next (f t)) (hf : SetsPhase f) :
    Leads q 1 (.next (s.setPhase p)) (((g s).bind fun t => .go (f t)).settle s.cfg n) :=
  .move <| calc
    engineStep (s.atPhase p q) = proceed s.cfg p (exec p.instr (s.atPhase p q)) := if_neg hq
    _ = ((g (s.atPhase p q)).bind fun t => .go (f t)).settle s.cfg n := by
      rw [he]
      exact proceed_settle (hk.imp fun t ht => ht.phase.trans_ne hi) ha
    _ = _ := hg.settle_atPhase hf s.cfg n s

theorem leads_pad (q : Pace) (s : State) : Leads q 1 (.next (s.setPhase .pad))
    (((phasePad s.cfg s).bind fun t => .go ((t.setOff 0).setPhase .cbcEnc)).settle s.cfg s.work.padded) :=
  leads_phase (fun h => Bool.false_ne_true h.2) (by decide) rfl (phasePad_frame _ _)
    ((atPhase_bystander _ _).phasePad_blind _) (fun _ => rfl) fun _ _ _ => rfl

theorem leads_unpad (q : Pace) (s : State) : Leads q 1 (.next (s.setPhase .unpad))
    (((phaseUnpad s.cfg s).bind fun t => .go (endDecrypt s.cfg t)).settle s.cfg s.work.n) :=
  leads_phase (fun h => Bool.false_ne_true h.2) (by decide) rfl (phaseUnpad_frame _ _)
    ((atPhase_bystander _ _).phaseUnpad_blind _) (fun _ => rfl) (endDecrypt_atPhase _)

theorem leads_cbcEnc {q : Pace} (hq : q ≠ .micro) (s : State) : Leads q 1 (.next (s.setPhase .cbcEnc))
    (((phaseCbcEnc s.cfg s).bind fun t => .go (endEncrypt s.cfg t)).settle s.cfg s.work.padded) :=
  leads_phase (fun h => hq h.1) (by decide) rfl (phaseCbcEnc_frame _ _)
    ((atPhase_bystander _ _).phaseCbcEnc_blind _) (fun _ => rfl) (endEncrypt_atPhase _)

theorem leads_cbcDec {q : Pace} (hq : q ≠ .micro) (s : State) : Leads q 1 (.next (s.setPhase .cbcDec))
    (((phaseCbcDec s.cfg s).bind fun t => .go (t.setPhase .unpad)).settle s.cfg s.work.n) :=
  leads_phase (fun h => hq h.1) (by decide) rfl (phaseCbcDec_frame _ _)
    ((atPhase_bystander _ _).phaseCbcDec_blind _) (fun _ => rfl) fun _ _ _ => rfl

end Sys2Proof.Machine

/-! # The pace `micro`: every round phase of every block a move -/

namespace Sys2Proof.Machine

/-! ## The round phases -/

/-- A move of the engine that runs a round phase (R40). -/
theorem engineStep_roundPhase {p : Phase} {s t : State} (hm : isComposite p = false) (hi : p ≠ .idle)
    (he : exec p.instr (s.atPhase p .micro) = .next (t.atPhase p .micro)) :
    engineStep (s.atPhase p .micro) = advance s.cfg p (t.atPhase p .micro) := by
  refine (if_neg fun h => Bool.false_ne_true (hm.symm.trans h.2)).trans ?_
  rw [show (s.atPhase p .micro).phase = p from rfl, he]
  exact if_neg hi

/-- A round phase that is always followed by the phase `p'` (R40). -/
theorem leads_roundPhase {p p' : Phase} {s t : State} (hm : isComposite p = false) (hi : p ≠ .idle)
    (he : exec p.instr (s.atPhase p .micro) = .next (t.atPhase p .micro))
    (ha : ∀ c u, advance c p u = .next (u.setPhase p')) :
    Leads .micro 1 (.next (s.setPhase p)) (.next (t.setPhase p')) :=
  .move ((engineStep_roundPhase hm hi he).trans (ha _ _))

section
variable (s : State)

theorem leads_sub : Leads .micro 1 (.next (s.setPhase .sub)) (.next ((phaseSub s).setPhase .shiftr)) :=
  leads_roundPhase rfl (by decide) rfl fun _ _ => rfl

theorem leads_shiftr : Leads .micro 1 (.next (s.setPhase .shiftr)) (.next ((phaseShiftr s).setPhase .mix)) :=
  leads_roundPhase rfl (by decide) rfl fun _ _ => rfl

theorem leads_mix : Leads .micro 1 (.next (s.setPhase .mix)) (.next ((phaseMix s).setPhase .ark)) :=
  leads_roundPhase rfl (by decide) rfl fun _ _ => rfl

theorem leads_imix : Leads .micro 1 (.next (s.setPhase .imix)) (.next ((phaseImix s).setPhase .ishiftr)) :=
  leads_roundPhase rfl (by decide) rfl fun _ _ => rfl

theorem leads_ishiftr : Leads .micro 1 (.next (s.setPhase .ishiftr)) (.next ((phaseIshiftr s).setPhase .isub)) :=
  leads_roundPhase rfl (by decide) rfl fun _ _ => rfl

end

section
variable {s t : State}

theorem engineStep_ark (ht : phaseArk s = t) :
    engineStep (s.atPhase .ark .micro) = afterArk s.cfg (t.atPhase .ark .micro) :=
  ht ▸ engineStep_roundPhase rfl (by decide) rfl

theorem engineStep_isub (ht : phaseIsub s = t) :
    engineStep (s.atPhase .isub .micro) = afterIsub s.cfg (t.atPhase .isub .micro) :=
  ht ▸ engineStep_roundPhase rfl (by decide) rfl

/-- ARK at the start of an inverse round (R160). -/
theorem leads_ark_inverse (ht : phaseArk s = t) (hc : t.cmd = some .decrypt) :
    Leads .micro 1 (.next (s.setPhase .ark)) (.next (t.setPhase .imix)) :=
  .move ((engineStep_ark ht).trans (if_pos hc))

/-- ARK at the end of a forward round that is not the last (R159). -/
theorem leads_ark_forward (ht : phaseArk s = t) (hc : t.cmd = some .encrypt) (hr : t.work.rnd ≠ 7) :
    Leads .micro 1 (.next (s.setPhase .ark)) (.next ((t.setRnd (t.work.rnd + 1)).setPhase .sub)) := by
  have hd : t.cmd ≠ some .decrypt := by
    rw [hc]
    decide
  exact .move ((engineStep_ark ht).trans ((if_neg hd).trans (if_neg hr)))

/-- ISUB at the end of an inverse round that is not the last (R161). -/
theorem leads_isub (ht : phaseIsub s = t) (hr : t.work.rnd ≠ 0) :
    Leads .micro 1 (.next (s.setPhase .isub)) (.next ((t.setRnd (t.work.rnd - 1)).setPhase .ark)) :=
  .move ((engineStep_isub ht).trans (if_neg hr))

end

/-! ## The rounds of a block -/

/-- Where the engine stands between two rounds of a block operation on `u`: the block, the round index and what the loop
of the round before has left in IDX (R39). -/
def State.inBlock (u : State) (b : Block) (r : Fin 8) (i : Nat) : State :=
  ((u.setBlk b).setRnd r).setIdx i

section
variable (u : State) (b : Block) (r : Fin 8) (i : Nat)

theorem inBlock_cmd : (u.inBlock b r i).cmd = u.cmd := rfl
theorem inBlock_blk : (u.inBlock b r i).work.blk = b := rfl
theorem inBlock_rnd : (u.inBlock b r i).work.rnd = r := rfl
theorem inBlock_ds : (u.inBlock b r i).ds = u.ds := rfl
theorem inBlock_setBlk (b' : Block) : (u.inBlock b r i).setBlk b' = u.inBlock b' r i := rfl
theorem inBlock_setRnd (r' : Fin 8) : (u.inBlock b r i).setRnd r' = u.inBlock b r' i := rfl
theorem inBlock_setIdx (j : Nat) : (u.inBlock b r i).setIdx j = u.inBlock b r j := rfl

theorem phaseArk_inBlock : phaseArk (u.inBlock b r i) = u.inBlock (xorBlock b u.ds.rk[r]) r i := rfl

theorem forwardRound_inBlock : phaseArk (phaseMix (phaseShiftr (phaseSub (u.inBlock b r i)))) =
    u.inBlock (forwardRound u.ds r b) r 14 := by
  simp only [phaseSub, phaseShiftr, phaseMix, phaseArk, forwardRound, inBlock_blk, inBlock_rnd, inBlock_ds,
    inBlock_setBlk, inBlock_setIdx]

theorem inverseRound_inBlock : phaseIsub (phaseIshiftr (phaseImix (phaseArk (u.inBlock b r i)))) =
    u.inBlock (inverseRound u.ds r b) r 0 := by
  simp only [phaseIsub, phaseIshiftr, phaseImix, phaseArk, inverseRound, inBlock_blk, inBlock_rnd, inBlock_ds,
    inBlock_setBlk, inBlock_setIdx]

end

section
variable {u : State} (b : Block) {r : Fin 8} (i : Nat)

/-- A forward round up to its ARK (R158). -/
theorem leads_forwardMix : Leads .micro 3 (.next ((u.inBlock b r i).setPhase .sub))
    (.next ((phaseMix (phaseShiftr (phaseSub (u.inBlock b r i)))).setPhase .ark)) :=
  (leads_sub _).trans ((leads_shiftr _).trans (leads_mix _))

/-- A forward round that is not the last (R158, R159). -/
theorem leads_forwardRound (hc : u.cmd = some .encrypt) (hr : r ≠ 7) :
    Leads .micro 4 (.next ((u.inBlock b r i).setPhase .sub))
      (.next ((u.inBlock (forwardRound u.ds r b) (r + 1) 14).setPhase .sub)) := by
  have hark := leads_ark_forward (forwardRound_inBlock u b r i) ((inBlock_cmd ..).trans hc)
    ((inBlock_rnd ..).trans_ne hr)
  rw [inBlock_rnd, inBlock_setRnd] at hark
  exact (leads_forwardMix b i).trans hark

/-- An inverse round up to its ISUB (R160). -/
theorem leads_inverseShift (hc : u.cmd = some .decrypt) : Leads .micro 3 (.next ((u.inBlock b r i).setPhase .ark))
    (.next ((phaseIshiftr (phaseImix (phaseArk (u.inBlock b r i)))).setPhase .isub)) := by
  rw [phaseArk_inBlock]
  exact (leads_ark_inverse (phaseArk_inBlock u b r i) ((inBlock_cmd ..).trans hc)).trans
    ((leads_imix _).trans (leads_ishiftr _))

/-- An inverse round that is not the last (R160, R161). -/
theorem leads_inverseRound (hc : u.cmd = some .decrypt) (hr : r ≠ 0) :
    Leads .micro 4 (.next ((u.inBlock b r i).setPhase .ark))
      (.next ((u.inBlock (inverseRound u.ds r b) (r - 1) 0).setPhase .ark)) := by
  have hisub := leads_isub (inverseRound_inBlock u b r i) ((inBlock_rnd ..).trans_ne hr)
  rw [inBlock_rnd, inBlock_setRnd] at hisub
  exact (leads_inverseShift b i hc).trans hisub

end

/-- A chain of rounds, four moves a round. -/
theorem leads_rounds {u : State} {p : Phase} {i' : Nat} {r : Nat → Fin 8} {chain : Nat → Block}
    (h : ∀ k, k < 7 → ∀ i, Leads .micro 4 (.next ((u.inBlock (chain k) (r k) i).setPhase p))
      (.next ((u.inBlock (chain (k + 1)) (r (k + 1)) i').setPhase p))) (i : Nat) : ∀ k, k ≤ 7 →
    ∃ j, Leads .micro (4 * k) (.next ((u.inBlock (chain 0) (r 0) i).setPhase p))
      (.next ((u.inBlock (chain k) (r k) j).setPhase p))
  | 0, _ => ⟨i, .refl _ _⟩
  | k + 1, hk =>
    let ⟨j, hj⟩ := leads_rounds h i k (by omega)
    ⟨i', hj.trans (h k hk j)⟩

/-- The first seven rounds of ENCBLK (R159). -/
theorem leads_sevenForward {u : State} (hc : u.cmd = some .encrypt) : ∃ j,
    Leads .micro 28 (.next ((u.setRnd 0).setPhase .sub))
      (.next ((u.inBlock (forwardChain u.ds u.work.blk 7) 7 j).setPhase .sub)) := by
  have hr : ∀ k, k < 7 → Fin.ofNat 8 k ≠ 7 ∧ Fin.ofNat 8 (k + 1) = Fin.ofNat 8 k + 1 := by decide
  refine leads_rounds (r := Fin.ofNat 8) (chain := forwardChain u.ds u.work.blk) (i' := 14) (fun k hk i => ?_)
    u.work.idx 7 (Nat.le_refl 7)
  rw [(hr k hk).2]
  exact leads_forwardRound _ i hc (hr k hk).1

/-- The first seven rounds of DECBLK (R161). -/
theorem leads_sevenInverse {u : State} (hc : u.cmd = some .decrypt) : ∃ j,
    Leads .micro 28 (.next ((u.setRnd 7).setPhase .ark))
      (.next ((u.inBlock (inverseChain u.ds u.work.blk 7) 0 j).setPhase .ark)) := by
  have hr : ∀ k, k < 7 → Fin.ofNat 8 (7 - k) ≠ 0 ∧ Fin.ofNat 8 (7 - (k + 1)) = Fin.ofNat 8 (7 - k) - 1 := by decide
  refine leads_rounds (r := fun k => Fin.ofNat 8 (7 - k)) (chain := inverseChain u.ds u.work.blk) (i' := 0)
    (fun k hk i => ?_) u.work.idx 7 (Nat.le_refl 7)
  rw [(hr k hk).2]
  exact leads_inverseRound _ i hc (hr k hk).1

end Sys2Proof.Machine

/-! # Blocks and buffers at the pace `micro` -/

namespace Sys2Proof.Machine

/-! ## Between two blocks -/

/-- Where the engine goes when the block before offset `off` is done: to the block at `off`, in phase `p`, or by `last`
when the `n` bytes of the buffer are done (R183, R185). -/
def nextBlock (p : Phase) (n : Nat) (last : State → State) (off : Nat) (s : State) : State :=
  if off < n then (s.setOff off).setPhase p else last s

theorem nextBlock_setsPhase {last : State → State} (hl : SetsPhase last) (p : Phase) (n off : Nat) :
    SetsPhase (nextBlock p n last off) := by
  intro p' q s
  unfold nextBlock
  split
  · rfl
  · exact hl p' q s

theorem encStore_lengths {c : Cfg} {s t : State} (h : encStore c s = .go t) :
    t.work.off = s.work.off ∧ t.work.padded = s.work.padded := by
  obtain ⟨u, hu, rfl⟩ := Run.bind_go_eq_go h
  rw [storeBlock_eq_go hu]
  simp

theorem decStore_lengths {c : Cfg} {s t : State} (h : decStore c s = .go t) :
    t.work.off = s.work.off ∧ t.work.n = s.work.n := by
  obtain ⟨u, hu, rfl⟩ := Run.bind_go_eq_go h
  rw [storeBlock_eq_go hu]
  simp

theorem Run.bind_congr {r : Run} {f g : State → Run} (h : ∀ t, r = .go t → f t = g t) : r.bind f = r.bind g := by
  cases r with
  | go t => exact h t rfl
  | bus t | device a => rfl

theorem afterEncBlock_eq (c : Cfg) (s : State) : afterEncBlock c s = ((encStore c s).bind fun t =>
    .go (nextBlock .cbcEnc s.work.padded (endEncrypt c) (s.work.off + 16) t)).settle c s.work.padded := by
  refine congrArg (Run.settle c s.work.padded) (Run.bind_congr fun t ht => ?_)
  obtain ⟨hoff, hpadded⟩ := encStore_lengths ht
  rw [hoff, hpadded, ← apply_ite Run.go]
  rfl

theorem afterDecBlock_eq (c : Cfg) (s : State) : afterDecBlock c s = ((decStore c s).bind fun t =>
    .go (nextBlock .cbcDec s.work.n (·.setPhase .unpad) (s.work.off + 16) t)).settle c s.work.n := by
  refine congrArg (Run.settle c s.work.n) (Run.bind_congr fun t ht => ?_)
  obtain ⟨hoff, hn⟩ := decStore_lengths ht
  rw [hoff, hn, ← apply_ite Run.go]
  rfl

/-! ## The end of a block -/

section
variable {c : Cfg} {s t : State}

/-- ARK at the end of the last forward round (R159, R183). -/
theorem leads_ark_last (hs : s.cfg = c) (ht : phaseArk s = t) (hc : t.cmd = some .encrypt) (hr : t.work.rnd = 7) :
    Leads .micro 1 (.next (s.setPhase .ark)) (((encStore c t).bind fun w =>
      .go (nextBlock .cbcEnc t.work.padded (endEncrypt c) (t.work.off + 16) w)).settle c t.work.padded) := by
  have hd : t.cmd ≠ some .decrypt := by
    rw [hc]
    decide
  refine .move ((engineStep_ark ht).trans ((if_neg hd).trans ((if_pos hr).trans ?_)))
  rw [hs, afterEncBlock_eq]
  exact ((atPhase_bystander _ _).encStore_blind c).settle_atPhase
    (nextBlock_setsPhase (endEncrypt_atPhase c) _ _ _) c _ t

/-- ISUB at the end of the last inverse round (R161, R185). -/
theorem leads_isub_last (hs : s.cfg = c) (ht : phaseIsub s = t) (hr : t.work.rnd = 0) :
    Leads .micro 1 (.next (s.setPhase .isub)) (((decStore c t).bind fun w =>
      .go (nextBlock .cbcDec t.work.n (·.setPhase .unpad) (t.work.off + 16) w)).settle c t.work.n) := by
  refine .move ((engineStep_isub ht).trans ((if_pos hr).trans ?_))
  rw [hs, afterDecBlock_eq]
  exact ((atPhase_bystander _ _).decStore_blind c).settle_atPhase
    (nextBlock_setsPhase (fun _ _ _ => rfl) _ _ _) c _ t

end

section
variable {u : State}

theorem lastForward_inBlock (j : Nat) : phaseArk (phaseMix (phaseShiftr (phaseSub
    (u.inBlock (forwardChain u.ds u.work.blk 7) 7 j)))) = phaseEncblk u := by
  rw [forwardRound_inBlock, phaseEncblk, ← forwardChain_eight]
  rfl

theorem lastInverse_inBlock (j : Nat) : phaseIsub (phaseIshiftr (phaseImix (phaseArk
    (u.inBlock (inverseChain u.ds u.work.blk 7) 0 j)))) = phaseDecblk u := by
  rw [inverseRound_inBlock, phaseDecblk, ← inverseChain_eight]
  rfl

/-- ENCBLK, round phase by round phase, and the rest of its pass (R159, R183). -/
theorem leads_encBlock (hc : u.cmd = some .encrypt) : Leads .micro 33 (.next (u.setPhase .encblk))
    (((encStore u.cfg (phaseEncblk u)).bind fun w =>
      .go (nextBlock .cbcEnc u.work.padded (endEncrypt u.cfg) (u.work.off + 16) w)).settle u.cfg u.work.padded) := by
  have henter : Leads .micro 1 (.next (u.setPhase .encblk)) (.next ((u.setRnd 0).setPhase .sub)) := .move rfl
  obtain ⟨j, hseven⟩ := leads_sevenForward hc
  have hlast := leads_ark_last (c := u.cfg) ?_ (lastForward_inBlock (u := u) j) ((frame_encblk 0 u).cmd.trans hc) rfl
  · exact henter.trans (hseven.trans ((leads_forwardMix _ j).trans hlast))
  · simp [State.cfg, phaseMix, phaseShiftr, phaseSub, State.inBlock]

/-- DECBLK, round phase by round phase, and the rest of its pass (R161, R185). -/
theorem leads_decBlock (hc : u.cmd = some .decrypt) : Leads .micro 33 (.next (u.setPhase .decblk))
    (((decStore u.cfg (phaseDecblk u)).bind fun w =>
      .go (nextBlock .cbcDec u.work.n (·.setPhase .unpad) (u.work.off + 16) w)).settle u.cfg u.work.n) := by
  have henter : Leads .micro 1 (.next (u.setPhase .decblk)) (.next ((u.setRnd 7).setPhase .ark)) := .move rfl
  obtain ⟨j, hseven⟩ := leads_sevenInverse hc
  have hlast := leads_isub_last (c := u.cfg) ?_ (lastInverse_inBlock (u := u) j) rfl
  · exact henter.trans (hseven.trans ((leads_inverseShift _ j hc).trans hlast))
  · simp [State.cfg, phaseImix, phaseIshiftr, phaseArk, State.inBlock]

end

/-! ## A pass over a block -/

theorem PassFrame.cfg {n : Nat} {s t : State} (h : PassFrame n s t) : t.cfg = s.cfg :=
  State.cfg_eq h.1.widths

/-- A pass of CBC_ENC: the block is loaded, encrypted and stored (R183). -/
theorem leads_encPass {s : State} (hc : s.cmd = some .encrypt) : Leads .micro 34 (.next (s.setPhase .cbcEnc))
    (((encStep s.cfg s).bind fun w =>
      .go (nextBlock .cbcEnc s.work.padded (endEncrypt s.cfg) (s.work.off + 16) w)).settle s.cfg s.work.padded) := by
  have henter : Leads .micro 1 (.next (s.setPhase .cbcEnc))
      (((encLoad s.cfg s).bind fun t => .go (t.setPhase .encblk)).settle s.cfg s.work.padded) :=
    .move (((atPhase_bystander _ _).encLoad_blind _).settle_atPhase (fun _ _ _ => rfl) _ _ s)
  rw [encStep, Run.bind_assoc, Run.bind_assoc]
  refine henter.trans (k := 33) (.bind fun t ht => ?_)
  have hpass := (encLoad_pass s.cfg 0 s).of_go ht
  rw [← hpass.cfg, ← hpass.1.padded, ← hpass.2]
  exact leads_encBlock (hpass.1.cmd.trans hc)

/-- A pass of CBC_DEC: the block is loaded, decrypted and stored (R185). -/
theorem leads_decPass {s : State} (hc : s.cmd = some .decrypt) : Leads .micro 34 (.next (s.setPhase .cbcDec))
    (((decStep s.cfg s).bind fun w =>
      .go (nextBlock .cbcDec s.work.n (·.setPhase .unpad) (s.work.off + 16) w)).settle s.cfg s.work.n) := by
  have henter : Leads .micro 1 (.next (s.setPhase .cbcDec))
      (((decLoad s.cfg s).bind fun t => .go (t.setPhase .decblk)).settle s.cfg s.work.n) :=
    .move (((atPhase_bystander _ _).decLoad_blind _).settle_atPhase (fun _ _ _ => rfl) _ _ s)
  rw [decStep, Run.bind_assoc, Run.bind_assoc]
  refine henter.trans (k := 33) (.bind fun t ht => ?_)
  have hpass := (decLoad_pass s.cfg 0 s).of_go ht
  rw [← hpass.cfg, ← hpass.1.count, ← hpass.2]
  exact leads_decBlock (hpass.1.cmd.trans hc)

/-! ## All blocks -/

section
variable {c : Cfg} {n m : Nat} {p : Phase} {last : State → State} {s : State} {pass : State → Run}
  {loop : Nat → State → Run} (hn : 0 < n) (hzero : loop 0 s = .go s)
  (hsucc : ∀ b, loop (b + 1) s = (loop b s).bind fun t => pass (t.setOff (16 * b)))
  (hkeeps : ∀ b, 16 * b ≤ n → (loop b s).Keeps n s)
  (hpass : ∀ t, CbcFrame n s t → Leads .micro m (.next (t.setPhase p))
    (((pass t).bind fun w => .go (nextBlock p n last (t.work.off + 16) w)).settle c n))
include hn hzero hsucc hkeeps hpass

/-- The passes over the first `b` blocks of a buffer of `n` bytes, `m` moves a block (R183, R185). -/
theorem leads_loop : ∀ b, 16 * b ≤ n → Leads .micro (m * b) (.next ((s.setOff 0).setPhase p))
    (((loop b s).bind fun t => .go (nextBlock p n last (16 * b) t)).settle c n)
  | 0, _ => by
    rw [hzero, Run.bind_go, nextBlock, if_pos hn]
    exact .refl _ _
  | b + 1, hb => by
    rw [hsucc, Run.bind_assoc]
    refine (leads_loop b (by omega)).trans (.bind fun t ht => ?_)
    rw [nextBlock, if_pos (by omega)]
    exact hpass _ (((hkeeps b (by omega)).of_go ht).trans (frame_setOff n t _))

/-- The passes over all blocks of the buffer, and what follows the last. -/
theorem leads_blocks (hm : n % 16 = 0) : Leads .micro (m * (n / 16)) (.next ((s.setOff 0).setPhase p))
    (((loop (n / 16) s).bind fun t => .go (last t)).settle c n) := by
  have h := leads_loop hn hzero hsucc hkeeps hpass (n / 16) (Nat.mul_div_le n 16)
  have hend : ¬ 16 * (n / 16) < n := by omega
  simpa only [nextBlock, if_neg hend] using h

end

/-- CBC_ENC, round phase by round phase (R183). -/
theorem leads_cbcEnc_micro {s : State} (hc : s.cmd = some .encrypt) (hp : 0 < s.work.padded)
    (hm : s.work.padded % 16 = 0) : Leads .micro (34 * (s.work.padded / 16)) (.next ((s.setOff 0).setPhase .cbcEnc))
      (((phaseCbcEnc s.cfg s).bind fun t => .go (endEncrypt s.cfg t)).settle s.cfg s.work.padded) := by
  refine leads_blocks (loop := encLoop s.cfg) hp rfl (fun _ => rfl) (fun b hb => encLoop_keeps _ _ b s hb)
    (fun t ht => ?_) hm
  have hpass := leads_encPass (ht.cmd.trans hc)
  rwa [State.cfg_eq ht.widths, ht.padded] at hpass

/-- CBC_DEC, round phase by round phase (R185). -/
theorem leads_cbcDec_micro {s : State} (hc : s.cmd = some .decrypt) (hn : 0 < s.work.n) (hm : s.work.n % 16 = 0) :
    Leads .micro (34 * (s.work.n / 16)) (.next ((s.setOff 0).setPhase .cbcDec))
      (((phaseCbcDec s.cfg s).bind fun t => .go (t.setPhase .unpad)).settle s.cfg s.work.n) := by
  refine leads_blocks (loop := decLoop s.cfg) hn rfl (fun _ => rfl) (fun b hb => decLoop_keeps _ _ b s hb)
    (fun t ht => ?_) hm
  have hpass := leads_decPass (ht.cmd.trans hc)
  rwa [State.cfg_eq ht.widths, ht.count] at hpass

end Sys2Proof.Machine

/-! # A command in one step, phase by phase, and round phase by round phase -/

namespace Sys2Proof.Machine

/-! ## The phases of a command, one after the other -/

/-- A move of the engine that runs a phase of KSCHED which goes on to the phase `p'` (R40). -/
theorem leads_keyPhase {p p' : Phase} {g : Cfg → State → State}
    (he : ∀ {s : State}, s.phase = p → engineStep s = .next ((g s.cfg s).setPhase p'))
    (hg : ∀ c s q, g c (State.atPhase p q s) = (g c s).atPhase p q) (q : Pace) {c : Cfg} {s : State} (hc : s.cfg = c) :
    Leads q 1 (.next (s.setPhase p)) (.next ((g c s).setPhase p')) :=
  .move <| calc
    engineStep (s.atPhase p q) = .next ((g s.cfg (s.atPhase p q)).setPhase p') := he rfl
    _ = .next (((g c s).atPhase p q).setPhase p') := by rw [hc, hg]

/-- KSCHED, phase by phase (R40, R120, R211). -/
theorem leads_keySchedule (q : Pace) (s : State) :
    Leads q 5 (.next (s.setPhase .ksSeed)) (.next (endKsched s.cfg (keySchedule s.cfg s))) := by
  have fseed := ksSeed_frame s.cfg s
  have fsbox := fseed.trans (ksSbox_frame s.cfg _)
  have fshift := fsbox.trans (ksShift_frame s.cfg _)
  have fmixc := fshift.trans (ksMixc_frame s.cfg _)
  have hseed := leads_keyPhase engineStep_ksSeed (fun _ _ _ => rfl) q (s := s) rfl
  have hsbox := leads_keyPhase engineStep_ksSbox (fun _ _ _ => rfl) q fseed.operands.cfg
  have hshift := leads_keyPhase engineStep_ksShift (fun _ _ _ => rfl) q fsbox.operands.cfg
  have hmixc := leads_keyPhase engineStep_ksMixc (fun _ _ _ => rfl) q fshift.operands.cfg
  have hrkeys : ∀ u : State, u.cfg = s.cfg →
      Leads q 1 (.next (u.setPhase .ksRkeys)) (.next (endKsched s.cfg (ksRkeys s.cfg u))) :=
    fun u hu => hu ▸ .move (engineStep_ksRkeys rfl)
  exact hseed.trans (hsbox.trans (hshift.trans (hmixc.trans (hrkeys _ fmixc.operands.cfg))))

/-- ENCRYPT: PAD, and CBC_ENC from offset 0 in `k` moves (R40, R213). -/
theorem leads_runEncrypt {q : Pace} {k : Nat} {s : State} (hp : s.work.n < s.work.padded)
    (hcbc : ∀ t, CbcFrame s.work.padded s t → Leads q k (.next ((t.setOff 0).setPhase .cbcEnc))
      (((phaseCbcEnc t.cfg t).bind fun u => .go (endEncrypt t.cfg u)).settle t.cfg t.work.padded)) :
    Leads q (1 + k) (.next (s.setPhase .pad))
      (((runEncrypt s.cfg s).bind fun u => .go (endEncrypt s.cfg u)).settle s.cfg s.work.padded) := by
  rw [runEncrypt, Run.bind_assoc]
  refine (leads_pad q s).trans (.bind fun t ht => ?_)
  have hframe := (phasePad_keeps s.cfg s hp).of_go ht
  rw [← State.cfg_eq hframe.widths, ← hframe.padded]
  exact hcbc t hframe

/-- DECRYPT: CBC_DEC from the state `l` in `k` moves, and UNPAD (R40, R214). -/
theorem leads_runDecrypt {q : Pace} {k : Nat} {s l : State} (hcbc : Leads q k (.next l)
      (((phaseCbcDec s.cfg s).bind fun t => .go (t.setPhase .unpad)).settle s.cfg s.work.n)) :
    Leads q (k + 1) (.next l)
      (((runDecrypt s.cfg s).bind fun u => .go (endDecrypt s.cfg u)).settle s.cfg s.work.n) := by
  rw [runDecrypt, Run.bind_assoc]
  refine hcbc.trans (.bind fun t ht => ?_)
  have hframe := (phaseCbcDec_keeps s.cfg s).of_go ht
  rw [← State.cfg_eq hframe.widths, ← hframe.count]
  exact leads_unpad q t

/-- The first pass of CBC_ENC sets OFF, whatever it was (R183). -/
theorem encLoop_setOff (c : Cfg) (s : State) (off : Nat) : ∀ b, encLoop c (b + 1) (s.setOff off) = encLoop c (b + 1) s
  | 0 => rfl
  | b + 1 => by
    rw [encLoop, encLoop_setOff c s off b]
    rfl

theorem phaseCbcEnc_setOff (c : Cfg) {s : State} (h : 16 ≤ s.work.padded) (off : Nat) :
    phaseCbcEnc c (s.setOff off) = phaseCbcEnc c s := by
  obtain ⟨b, hb⟩ := Nat.exists_eq_add_one.mpr (Nat.div_pos h (by decide))
  rw [phaseCbcEnc, phaseCbcEnc, State.setOff_work, hb, encLoop_setOff]

/-! ## Refusals, at any pace (R243) -/

section
variable {c : Cfg} {s : State} (hb : s.status.busy = false)
include hb

theorem kschedCommand_refuses (hk : s.status.keyed = true) :
    kschedCommand c s = refuseCommand c .eKeyed (s.accept .ksched) := by
  simp [kschedCommand, hb, hk]

theorem encryptCommand_refuses_noKey (hk : s.status.keyed = false) :
    encryptCommand c s = .next (refuseCommand c .eNokey (s.accept .encrypt)) := by
  simp [encryptCommand, hb, hk]

theorem encryptCommand_refuses_length (hk : s.status.keyed = true) (hl : paddedOverflows c s.len) :
    encryptCommand c s = .next (refuseCommand c .eLen (s.accept .encrypt)) := by
  simp [encryptCommand, hb, hk, hl]

theorem decryptCommand_refuses_noKey (hk : s.status.keyed = false) :
    decryptCommand c s = .next (refuseCommand c .eNokey (s.accept .decrypt)) := by
  simp [decryptCommand, hb, hk]

theorem decryptCommand_refuses_length (hk : s.status.keyed = true) (hl : badCipherLength s.len) :
    decryptCommand c s = .next (refuseCommand c .eLen (s.accept .decrypt)) := by
  simp only [decryptCommand, hb, hk, if_pos hl, if_false, Bool.true_eq_false, Bool.false_eq_true]

end

/-! ## The commands -/

/-- What a command answers at the pace `q` leads in `k` moves to what it answers at the pace of `s` (R219). -/
def PaceAgrees (i : Instr) (q : Pace) (k : Nat) (s : State) : Prop :=
  thenEngine k (exec i (s.setPace q)) = mapNext (State.setPace · q) (exec i s)

section
variable {s : State} {q : Pace} {k : Nat}

theorem Leads.paceAgrees {i : Instr} {o o' : Host.Outcome State Fault Refusal} (h : Leads q k o o')
    (ho : exec i (s.setPace q) = mapNext (State.setPace · q) o) (ho' : exec i s = o') : PaceAgrees i q k s := by
  rw [PaceAgrees, ho, ho']
  exact h.run

/-- A refused command is over at once (R243). -/
theorem PaceAgrees.of_refused {i : Instr} {cmd : Command} {code : CC}
    (h : ∀ r, exec i (s.setPace r) = .next (refuseCommand s.cfg code ((s.setPace r).accept cmd))) :
    PaceAgrees i q k s :=
  have hidle := Leads.idle (q := q) (k := k) (s := refuseCommand s.cfg code (s.accept cmd)) rfl
  hidle.paceAgrees ((h q).trans (by cases cmd <;> rfl)) (h s.pace)

variable (hq : q ≠ .atomic) (hp : s.pace = .atomic) (hb : s.status.busy = false)
include hq hp hb

/-- KSCHED, accepted or refused (R211, R212). -/
theorem ksched_paceAgrees : PaceAgrees .ksched q 5 s := by
  cases hk : s.status.keyed with
  | true => exact .of_refused fun r => congrArg Host.Outcome.next (kschedCommand_refuses (s := s.setPace r) hb hk)
  | false =>
    exact (leads_keySchedule q (s.accept .ksched)).paceAgrees
      (congrArg Host.Outcome.next (kschedCommand_accepts (s := s.setPace q) hb hk hq))
      (congrArg Host.Outcome.next (kschedCommand_run hb hk hp))

/-- ENCRYPT, if its CBC_ENC takes `k` moves from offset 0 (R213). -/
theorem encrypt_paceAgrees (hcbc : ∀ t, CbcFrame (paddedLength s.len) (launchEncrypt (s.accept .encrypt)) t →
    Leads q k (.next ((t.setOff 0).setPhase .cbcEnc))
      (((phaseCbcEnc t.cfg t).bind fun u => .go (endEncrypt t.cfg u)).settle t.cfg t.work.padded)) :
    PaceAgrees .encrypt q (1 + k) s := by
  cases hk : s.status.keyed with
  | false => exact .of_refused fun r => encryptCommand_refuses_noKey (s := s.setPace r) hb hk
  | true =>
    by_cases hl : paddedOverflows s.cfg s.len
    · exact .of_refused fun r => encryptCommand_refuses_length (s := s.setPace r) hb hk hl
    · have hfits := Nat.not_le.mp hl
      exact (leads_runEncrypt (s := launchEncrypt (s.accept .encrypt)) (lt_paddedLength s.len) hcbc).paceAgrees
        (encryptCommand_accepts (s := s.setPace q) hb hk hfits hq) (encryptCommand_run hb hk hfits hp)

/-- DECRYPT, if its CBC_DEC takes `k` moves from the state that acceptance leaves (R214). -/
theorem decrypt_paceAgrees {l : State} (hlaunch : launchDecrypt (s.setPace q) = l.setPace q)
    (hcbc : ¬ badCipherLength s.len → Leads q k (.next l) (((phaseCbcDec s.cfg (s.accept .decrypt)).bind fun t =>
      .go (t.setPhase .unpad)).settle s.cfg s.len)) :
    PaceAgrees .decrypt q (k + 1) s := by
  cases hk : s.status.keyed with
  | false => exact .of_refused fun r => decryptCommand_refuses_noKey (s := s.setPace r) hb hk
  | true =>
    by_cases hl : badCipherLength s.len
    · exact .of_refused fun r => decryptCommand_refuses_length (s := s.setPace r) hb hk hl
    · exact (leads_runDecrypt (s := s.accept .decrypt) (hcbc hl)).paceAgrees
        ((decryptCommand_accepts (s := s.setPace q) hb hk hl hq).trans (congrArg Host.Outcome.next hlaunch))
        (decryptCommand_run hb hk hl hp)

end

section
variable {s : State} (hp : s.pace = .atomic) (hb : s.status.busy = false)
include hp hb

theorem encrypt_paceAgrees_phases : PaceAgrees .encrypt .phases 2 s :=
  encrypt_paceAgrees (k := 1) Pace.noConfusion hp hb fun t ht => by
    have hpadded : 16 ≤ t.work.padded := by
      rw [ht.padded]
      exact Nat.le_mul_of_pos_left 16 (Nat.succ_pos _)
    rw [← phaseCbcEnc_setOff t.cfg hpadded 0]
    exact leads_cbcEnc Pace.noConfusion (t.setOff 0)

theorem decrypt_paceAgrees_phases : PaceAgrees .decrypt .phases 2 s :=
  decrypt_paceAgrees (k := 1) Pace.noConfusion hp hb (l := s.accept .decrypt) rfl fun _ =>
    leads_cbcDec Pace.noConfusion (s.accept .decrypt)

/-- PAD, and 34 moves for each block of the padded buffer. -/
theorem encrypt_paceAgrees_micro : PaceAgrees .encrypt .micro (1 + 34 * (paddedLength s.len / 16)) s :=
  encrypt_paceAgrees Pace.noConfusion hp hb fun t ht => by
    have hpadded : t.work.padded = paddedLength s.len := ht.padded
    have hlt := lt_paddedLength s.len
    rw [← hpadded]
    exact leads_cbcEnc_micro ht.cmd (by omega) (hpadded ▸ paddedLength_mod s.len)

/-- 34 moves for each block of the buffer, and UNPAD. -/
theorem decrypt_paceAgrees_micro : PaceAgrees .decrypt .micro (34 * (s.len / 16) + 1) s :=
  decrypt_paceAgrees Pace.noConfusion hp hb (l := (s.accept .decrypt).setOff 0) rfl fun hl => by
    obtain ⟨hz, hm⟩ := not_or.mp hl
    exact leads_cbcDec_micro (s := s.accept .decrypt) rfl (Nat.pos_of_ne_zero hz) (not_not.mp hm)

end

/-- Settles O56: each phase of the command at the pace `phases` is the next part of its one step. -/
theorem atomicCommandEqualsItsPhases : Obligations.AtomicCommandEqualsItsPhases := fun s hb =>
  have hb' : (s.setPace .atomic).status.busy = false := hb
  ⟨ksched_paceAgrees (q := .phases) Pace.noConfusion rfl hb', encrypt_paceAgrees_phases rfl hb',
    decrypt_paceAgrees_phases rfl hb'⟩

/-- Settles O57: KSCHED takes its five phases, and ENCRYPT and DECRYPT 34 moves a block beside PAD or UNPAD. -/
theorem microStepsReachTheAtomicEnd : Obligations.MicroStepsReachTheAtomicEnd := by
  intro s i hi hb
  have hb' : (s.setPace .atomic).status.busy = false := hb
  obtain rfl | rfl | rfl := hi
  · exact ⟨_, ksched_paceAgrees (q := .micro) Pace.noConfusion rfl hb'⟩
  · exact ⟨_, encrypt_paceAgrees_micro rfl hb'⟩
  · exact ⟨_, decrypt_paceAgrees_micro rfl hb'⟩

end Sys2Proof.Machine

/-! # Refused commands, and FAULT -/

namespace Sys2Proof.Machine

/-! ## IDLE and the refusals (R243 to R251) -/

/-- Settles O5. -/
theorem idleChangesNothing : Obligations.IdleChangesNothing :=
  fun _ => rfl

/-- A reserved word on an idle engine samples nothing and is refused with `E_CMD` (R93, R244). -/
theorem reservedCommand_refuses {s : State} (hb : s.status.busy = false) :
    reservedCommand s = s.acceptPlain.refuse .eCmd := by
  simp [reservedCommand, hb]

/-- Settles O38: a command without operands bars the host from nothing, so its refusal leaves no window. -/
theorem reservedWordRefused : Obligations.ReservedWordRefused :=
  fun _ _ _ hb => congrArg Host.Outcome.next (reservedCommand_refuses hb)

/-- The refusal of a command with phases at its acceptance is the complete effect of R243, and nothing else changes. -/
theorem refuseCommand_refusedWith (c : Cfg) (code : CC) (cmd : Command) (s : State) :
    RefusedWith code cmd s (refuseCommand c code (s.accept cmd)) := by
  cases cmd <;> rfl

/-- Settles O39: the mark of the context is checked before the length. -/
theorem keyContextIsChecked : Obligations.KeyContextIsChecked :=
  ⟨fun s hb hk => ⟨_, _, encryptCommand_refuses_noKey hb hk, refuseCommand_refusedWith s.cfg _ _ s,
      decryptCommand_refuses_noKey hb hk, refuseCommand_refusedWith s.cfg _ _ s⟩,
    fun s hb hk => ⟨_, congrArg Host.Outcome.next (kschedCommand_refuses hb hk), refuseCommand_refusedWith s.cfg _ _ s⟩⟩

/-- Settles O40: on a keyed context the length decides. -/
theorem decryptRefusesBadLengths : Obligations.DecryptRefusesBadLengths :=
  fun s hb hk hl => ⟨_, decryptCommand_refuses_length hb hk hl, refuseCommand_refusedWith s.cfg _ _ s⟩

theorem paddedLength_le (n : Nat) : paddedLength n ≤ n + 16 := by
  unfold paddedLength; omega

/-- The lengths whose padded length does not fit `w` bits (R181, R248): with fewer than 4 bits no padded length fits, and
from there on `2^w` is a whole number of blocks. -/
theorem two_pow_le_paddedLength_iff (w n : Nat) : 2 ^ w ≤ paddedLength n ↔ 2 ^ w - 16 ≤ n := by
  refine ⟨fun h => Nat.sub_le_of_le_add (h.trans (paddedLength_le n)), fun h => ?_⟩
  unfold paddedLength
  obtain hw | hw := Nat.lt_or_ge w 4
  · have hsmall : 2 ^ w < 2 ^ 4 := Nat.pow_lt_pow_right (by decide) hw
    omega
  · have hblocks : 2 ^ 4 ∣ 2 ^ w := pow_dvd_pow 2 hw
    omega

/-- Settles O41: the bound on the length is the overflow of its padded length. -/
theorem encryptRefusesOverflowingLengths : Obligations.EncryptRefusesOverflowingLengths := by
  refine ⟨fun s hb hk hl => ?_, fun w n hn => ?_, by decide⟩
  · have hover := (two_pow_le_paddedLength_iff s.cfg.lenw s.len).mpr hl
    exact ⟨hover, _, encryptCommand_refuses_length hb hk hover, refuseCommand_refusedWith s.cfg _ _ s⟩
  · exact Nat.lt_of_not_le fun h => Nat.not_le.mpr hn ((two_pow_le_paddedLength_iff w n).mp h)

/-! ## FAULT is sticky (R250) -/

/-- `t` has FAULT set if `s` has (R250). -/
def FaultKept (s t : State) : Prop :=
  s.status.fault = true → t.status.fault = true

theorem FaultKept.trans {s t u : State} (h : FaultKept s t) (h' : FaultKept t u) : FaultKept s u :=
  h' ∘ h

theorem FaultKept.of_eq {s t : State} (h : t.status.fault = s.status.fault) : FaultKept s t :=
  h.trans

theorem KeyFrame.faultKept {s t : State} (h : KeyFrame s t) : FaultKept s t := by
  obtain ⟨d, g, i, rfl⟩ := h
  exact id

theorem PhaseFrame.faultKept {c : Cfg} {s t : State} (h : PhaseFrame c s t) : FaultKept s t :=
  .of_eq (h.frame.elim fun _ hf => congrArg Status.fault hf.status)

theorem AccessFrame.faultKept {s t : State} (h : AccessFrame s t) : FaultKept s t :=
  .of_eq (congrArg Status.fault h.status)

theorem accept_faultKept (s : State) (cmd : Command) : FaultKept s (s.accept cmd) :=
  .of_eq (by simp)

/-- A refusal sets FAULT (R243). -/
theorem refuseCommand_faultKept (c : Cfg) (code : CC) (s t : State) : FaultKept s (refuseCommand c code t) :=
  fun _ => rfl

/-- The end by E_BUS sets FAULT (R243, R249). -/
theorem refuseBus_retire_faultKept (c : Cfg) (n : Nat) (s t : State) : FaultKept s ((t.refuseBus c n).retire c) :=
  fun _ => rfl

/-- `complete` leaves FAULT as it was (R242). -/
theorem endKsched_faultKept (c : Cfg) (s : State) : FaultKept s (endKsched c s) :=
  id

theorem endEncrypt_faultKept (c : Cfg) (s : State) : FaultKept s (endEncrypt c s) :=
  .of_eq (by simp [endEncrypt])

theorem endDecrypt_faultKept (c : Cfg) (s : State) : FaultKept s (endDecrypt c s) :=
  .of_eq (by simp [endDecrypt])

theorem setPhase_faultKept (s : State) (p : Phase) : FaultKept s (s.setPhase p) :=
  id

/-! ### The engine -/

section
variable {c : Cfg} {s t : State}

theorem PhaseEnd.faultKept (h : PhaseEnd c s t) : FaultKept s t := by
  obtain ⟨u, hu, rfl | ⟨n, rfl⟩⟩ := h
  · exact hu.faultKept
  · exact refuseBus_retire_faultKept c n s u

/-- However the accesses of a phase go, FAULT stays set if the update that follows them keeps it. -/
theorem Run.All.settle_faultKept {n : Nat} {r : Run} {f : State → State} (hr : r.All (PhaseFrame c s))
    (hf : ∀ u, FaultKept u (f u)) (h : (r.bind fun u => .go (f u)).settle c n = .next t) : FaultKept s t := by
  obtain ⟨u, hu, rfl | rfl⟩ := hr.settle_bind h
  · exact hu.faultKept.trans (hf u)
  · exact refuseBus_retire_faultKept c n s u

theorem nextBlock_faultKept {last : State → State} (hl : ∀ u, FaultKept u (last u)) (p : Phase) (n off : Nat)
    (s : State) : FaultKept s (nextBlock p n last off s) := by
  unfold nextBlock
  split
  · exact id
  · exact hl s

theorem afterEncBlock_faultKept (h : afterEncBlock c s = .next t) : FaultKept s t := by
  rw [afterEncBlock_eq] at h
  exact (encStore_frame c s).settle_faultKept (nextBlock_faultKept (endEncrypt_faultKept c) _ _ _) h

theorem afterDecBlock_faultKept (h : afterDecBlock c s = .next t) : FaultKept s t := by
  rw [afterDecBlock_eq] at h
  exact (decStore_frame c s).settle_faultKept (nextBlock_faultKept (setPhase_faultKept · _) _ _ _) h

theorem afterArk_faultKept (h : afterArk c s = .next t) : FaultKept s t := by
  unfold afterArk at h
  split at h
  · cases h; exact id
  · split at h
    · exact afterEncBlock_faultKept h
    · cases h; exact id

theorem afterIsub_faultKept (h : afterIsub c s = .next t) : FaultKept s t := by
  unfold afterIsub at h
  split at h
  · exact afterDecBlock_faultKept h
  · cases h; exact id

/-- Wherever the engine goes after a phase, FAULT stays set, whichever command is in progress (R40). -/
theorem advance_faultKept {p : Phase} (h : advance c p s = .next t) : FaultKept s t := by
  cases p with
  | ark => exact afterArk_faultKept h
  | isub => exact afterIsub_faultKept h
  | encblk => exact afterEncBlock_faultKept h
  | decblk => exact afterDecBlock_faultKept h
  | ksRkeys => cases h; exact endKsched_faultKept c s
  | cbcEnc => cases h; exact endEncrypt_faultKept c s
  | unpad => cases h; exact endDecrypt_faultKept c s
  | idle | ksSeed | ksSbox | ksShift | ksMixc | sub | shiftr | mix | imix | ishiftr | pad | cbcDec =>
    cases h; exact id

theorem enter_faultKept (h : enter c s = .next t) : FaultKept s t := by
  unfold enter at h
  split at h
  · exact (encLoad_frame c s).settle_faultKept (setPhase_faultKept · _) h
  · exact (decLoad_frame c s).settle_faultKept (setPhase_faultKept · _) h
  all_goals cases h; exact id

/-- No phase clears FAULT (R250). -/
theorem exec_phase_faultKept {p : Phase} (h : exec p.instr s = .next t) : FaultKept s t := by
  cases hk : phaseFits p (some .ksched) with
  | false => exact (exec_phase_end hk h).faultKept
  | true =>
    cases p with
    | ksSeed => cases h; exact (ksSeed_frame _ s).faultKept
    | ksSbox => cases h; exact (ksSbox_frame _ s).faultKept
    | ksShift => cases h; exact (ksShift_frame _ s).faultKept
    | ksMixc => cases h; exact (ksMixc_frame _ s).faultKept
    | ksRkeys => cases h; exact (ksRkeys_frame _ s).faultKept
    | _ => cases hk

theorem engineStep_faultKept (h : engineStep s = .next t) : FaultKept s t := by
  obtain ⟨-, -, he⟩ | ⟨u, hu, ⟨-, rfl⟩ | ⟨-, ha⟩⟩ := engineStep_cases h
  · exact enter_faultKept he
  · exact exec_phase_faultKept hu
  · exact (exec_phase_faultKept hu).trans (advance_faultKept ha)

/-! ### The commands -/

/-- A dropped command sets FAULT (R258). -/
theorem dropCommand_faultKept (s : State) : FaultKept s s.dropCommand :=
  fun _ => rfl

theorem kschedCommand_faultKept (c : Cfg) (s : State) : FaultKept s (kschedCommand c s) := by
  obtain ⟨-, he⟩ | ⟨-, -, he⟩ | ⟨-, -, he | he⟩ := kschedCommand_cases c s <;> rw [he]
  · exact dropCommand_faultKept s
  · exact refuseCommand_faultKept _ _ _ _
  · exact accept_faultKept s _
  · exact ((accept_faultKept s _).trans (keySchedule_frame c _).faultKept).trans (endKsched_faultKept c _)

theorem encryptCommand_faultKept (h : encryptCommand c s = .next t) : FaultKept s t := by
  obtain ⟨-, rfl⟩ | ⟨-, code, rfl⟩ | ⟨-, -, -, rfl | ⟨u, hu, rfl | ⟨n, rfl⟩⟩⟩ := encryptCommand_cases h
  · exact dropCommand_faultKept s
  · exact refuseCommand_faultKept _ _ _ _
  · exact accept_faultKept s .encrypt
  · exact ((accept_faultKept s .encrypt).trans hu.faultKept).trans (endEncrypt_faultKept c u)
  · exact refuseBus_retire_faultKept _ _ _ _

theorem decryptCommand_faultKept (h : decryptCommand c s = .next t) : FaultKept s t := by
  obtain ⟨-, rfl⟩ | ⟨-, code, rfl⟩ | ⟨-, -, -, -, u, hu, hend⟩ := decryptCommand_cases h
  · exact dropCommand_faultKept s
  · exact refuseCommand_faultKept _ _ _ _
  · have hl := (accept_faultKept s .decrypt).trans hu.faultKept
    obtain rfl | rfl | ⟨n, rfl⟩ := hend
    · exact hl
    · exact hl.trans (endDecrypt_faultKept c u)
    · exact refuseBus_retire_faultKept _ _ _ _

theorem releaseCommand_faultKept (s : State) : FaultKept s (releaseCommand s) := by
  obtain ⟨-, he⟩ | ⟨-, d, k, he⟩ := releaseCommand_cases s <;> rw [he]
  · exact dropCommand_faultKept s
  · exact id

theorem reservedCommand_faultKept (s : State) : FaultKept s (reservedCommand s) := by
  unfold reservedCommand
  split
  · exact dropCommand_faultKept s
  · exact fun _ => rfl

/-- No command clears FAULT (R250). -/
theorem exec_decodeCmd_faultKept {word : Byte} (h : exec (decodeCmd word) s = .next t) : FaultKept s t := by
  unfold decodeCmd at h
  split_ifs at h
  · cases h; exact kschedCommand_faultKept _ s
  · exact encryptCommand_faultKept h
  · exact decryptCommand_faultKept h
  · cases h; exact releaseCommand_faultKept s
  · cases h; exact reservedCommand_faultKept s

/-! ### The host and the step -/

/-- Of the other moves of the host, the reset input alone clears FAULT (R250, R270). -/
theorem hostMove_faultKept {m : HostMove} (hm : m ≠ .rst) (h : hostMove c m s = .next t) : FaultKept s t := by
  cases m with
  | wrCmd | wrStatus | wrResult | wrAbsent | wait | wrKey | wrIv | wrDataPtr | wrLen => cases h; exact id
  | rd r => cases h; exact (hostReadReg_frame s r).faultKept
  | memWrite a bytes => obtain ⟨-, rfl⟩ := hostAccess_eq_next h; exact (hostWrite_frame ..).faultKept
  | memRead a n => obtain ⟨-, rfl⟩ := hostAccess_eq_next h; exact (hostRead_frame ..).faultKept
  | rst => exact absurd rfl hm

theorem hostStep_faultKept {m : HostMove} (hm : m ≠ .rst) (h : hostStep m s = .next t) : FaultKept s t := by
  have hread := (hostReadReg_frame s .status).faultKept
  obtain ⟨word, -, hw⟩ | ⟨-, -, rfl⟩ | ⟨-, -, hw⟩ | hw := hostStep_cases h
  · exact exec_decodeCmd_faultKept hw
  · exact hread
  · exact fun hs => engineStep_faultKept hw (hread hs)
  · exact hostMove_faultKept hm hw

end

/-- Settles O47: neither a move of the engine nor one of the host other than the reset input clears FAULT. -/
theorem faultIsSticky : Obligations.FaultIsSticky := by
  intro s t h hs hrst
  obtain ⟨m, rest, hturns, hm⟩ | ⟨rest, -, he⟩ := step_cases h
  · have hne : m ≠ .rst := fun hm => hrst rest (hm ▸ hturns)
    exact hostStep_faultKept hne hm hs
  · exact engineStep_faultKept he hs

end Sys2Proof.Machine

/-! # The reset input -/

namespace Sys2Proof.Machine

/-- The reset input is taken whatever the engine is doing (R270, R271). -/
theorem step_rst {s : State} {rest : List Turn} (ht : s.turns = .host .rst :: rest) :
    step s = .next (({ s with turns := rest } : State).assertReset s.cfg) :=
  step_host ht

/-- Reset leaves every byte outside the buffer of the abandoned command (R271). -/
theorem State.read_assertReset_outside (c : Cfg) (s : State) {x : Nat} (hx : Outside s.work.ptr s.extent x) :
    (s.assertReset c).mem.read x = s.mem.read x :=
  Memory.read_unspecify_outside s.mem c s.work.ptr s.extent s.draws hx

/-- Settles O54: the state that reset leaves is known field by field, but for memory, which has the frame above. -/
theorem resetInputAbandonsTheCommand : Obligations.ResetInputAbandonsTheCommand := by
  intro s rest ht
  have hmem : ∀ x, Outside s.work.ptr s.extent x →
      (({ s with turns := rest } : State).assertReset s.cfg).mem.read x = s.mem.read x :=
    fun _ hx => State.read_assertReset_outside s.cfg { s with turns := rest } hx
  exact ⟨_, step_rst ht, reset_toByte, rfl, rfl, rfl, rfl, rfl, rfl, rfl, rfl, hmem⟩

end Sys2Proof.Machine
